-- ==== Sys2Proof/Word.lean ====
section
/-! DEFINITION. The word types of the engine: 8-bit stream bytes, 16-bit header fields, 32-bit CRC values
(spec/00_scope.md section 7, spec/30_encoding.md R63). -/

namespace Sys2Proof

/-- A byte of a stream or of the scratch buffer. -/
abbrev Byte := BitVec 8

/-- `u16`: `flags`, `length`. -/
abbrev U16 := BitVec 16

/-- `u32`: the CRC value and its seed. -/
abbrev U32 := BitVec 32

end Sys2Proof
end

