-- ==== Sys2Proof/Config.lean ====
section
/-! DEFINITION. The engine's constants (spec/00_scope.md R2, fixed by the source) and the construction parameter's bounds
(R3). CAP itself is a field of the state. -/

namespace Sys2Proof.Config

/-- R2 `POLY`: the CRC feedback polynomial. -/
def poly : U32 := 0xEDB88320#32

/-- R2 `PREAMBLE`: on the wire, little-endian, `55 AA 55 AA`. -/
def preamble : U32 := 0xAA55AA55#32

/-- R2 `FLAG`: a byte value the encoder escapes. -/
def flag : Byte := 0xAA#8

/-- R2 `ESCAPE`: the escape prefix, itself escaped as data. -/
def escape : Byte := 0x1B#8

/-- R2 `HDR_LEN`. -/
def hdrLen : Nat := 5

/-- R2 `CRC_LEN`. -/
def crcLen : Nat := 4

/-- R2 `MARGIN`. -/
def margin : Nat := 1

/-- R2 `OVERHEAD = HDR_LEN + CRC_LEN + MARGIN`. -/
def overhead : Nat := hdrLen + crcLen + margin

/-- R2 `CRC_SEED`: the seed of every frame CRC. -/
def crcSeed : U32 := 0#32

/-- R3, D3: the least capacity an instance may be built with. -/
def minCapacity : Nat := 10

/-- DESIGN CHOICE (log entry 2), unsafe: the capacity of the instance `State.reset`. R3 leaves `CAP` open; 64 is the
capacity of most vectors of spec/95_test_vectors.md. No statement rests on it. -/
def resetCapacity : Nat := 64

/-- The free value D6 asks for: what the scratch byte at an index holds after construction where the builder has not said
(R23, R200; log entry 4). It has no body, so a claim holds whatever the bytes are. -/
opaque initialByte : Nat → Byte

end Sys2Proof.Config
end

