-- ==== Sys2Proof/Machine/Operands.lean ====
section
/-! DEFINITION. Operand forms: little-endian assembly and disassembly (spec/00_scope.md section 7, spec/20_memory.md R32,
R33), the escape code (spec/30_encoding.md R54) and its parse (spec/42_decode.md R123). -/

namespace Sys2Proof.Machine

/-- `le16(b0, b1)` (00_scope.md section 7). -/
def le16 (b0 b1 : Byte) : U16 := b0.setWidth 16 ||| (b1.setWidth 16 <<< 8)

/-- `le32(b0, b1, b2, b3)` (00_scope.md section 7). -/
def le32 (b0 b1 b2 b3 : Byte) : U32 :=
  b0.setWidth 32 ||| (b1.setWidth 32 <<< 8) ||| (b2.setWidth 32 <<< 16) ||| (b3.setWidth 32 <<< 24)

/-- `bytes_le16(v)` (00_scope.md section 7). -/
def bytesLE16 (v : U16) : List Byte := [v.extractLsb' 0 8, v.extractLsb' 8 8]

/-- `bytes_le32(v)` (00_scope.md section 7). -/
def bytesLE32 (v : U32) : List Byte :=
  [v.extractLsb' 0 8, v.extractLsb' 8 8, v.extractLsb' 16 8, v.extractLsb' 24 8]

/-- The preamble as raw wire bytes, `55 AA 55 AA` (R32, R50). -/
def preambleBytes : List Byte := bytesLE32 Config.preamble

/-- The logical bytes that are escaped on the wire: FLAG and ESCAPE (R54). -/
def needsEscape (x : Byte) : Bool := x == Config.flag || x == Config.escape

/-- `esc(x)`: the wire bytes of one logical byte; the escaped byte is not transformed (R54). -/
def escByte (x : Byte) : List Byte := if needsEscape x then [Config.escape, x] else [x]

/-- `esc(A)` of a sequence (R54). -/
def escBytes : List Byte → List Byte
  | [] => []
  | x :: xs => escByte x ++ escBytes xs

/-- The parse of wire bytes into logical bytes: ESCAPE `x` gives `x` for every `x`, another byte gives itself (R123, R58).
`none` where the bytes end inside a pair. -/
def unescape : List Byte → Option (List Byte)
  | [] => some []
  | [b] => if b = Config.escape then none else some [b]
  | b :: x :: rest =>
    if b = Config.escape then (unescape rest).map (x :: ·)
    else (unescape (x :: rest)).map (b :: ·)

/-- A natural number as bytes, least significant first, no trailing zero byte; the first argument bounds their number. -/
def natBytesUpTo : Nat → Nat → List Byte
  | 0, _ => []
  | k + 1, n => if n = 0 then [] else BitVec.ofNat 8 n :: natBytesUpTo k (n / 256)

/-- A natural number as bytes, least significant first, no trailing zero byte (log entry 7). -/
def natBytes (n : Nat) : List Byte := natBytesUpTo n n

/-- The number that bytes, least significant first, stand for. -/
def natOfBytes : List Byte → Nat
  | [] => 0
  | b :: bs => b.toNat + 256 * natOfBytes bs

end Sys2Proof.Machine
end

