-- ==== Sys2Proof/Machine/Crc.lean ====
section
/-! DEFINITION. The Checksum Engine's two functions (spec/40_checksum.md R80 to R88) and the layout of a frame built from them
(spec/30_encoding.md R51, R56). -/

namespace Sys2Proof.Machine

/-- One iteration of the loop of R80: shift toward bit 0, feeding back POLY when the bit shifted out is 1. -/
def crcShift (c : U32) : U32 := if c.getLsbD 0 then (c >>> 1) ^^^ Config.poly else c >>> 1

/-- `crc_byte(c, d)`: the byte enters at bits 7..0, then eight iterations (R80). -/
def crcByte (c : U32) (d : Byte) : U32 := Nat.repeat crcShift 8 (c ^^^ d.setWidth 32)

/-- `crc_bit(c, x)`: one data bit per shift (R82). -/
def crcBit (c : U32) (x : Bool) : U32 :=
  if c.getLsbD 0 != x then (c >>> 1) ^^^ Config.poly else c >>> 1

/-- `crc32(seed, data)`: the raw running value after the last byte; no initial or final XOR (R81). -/
def crc32 (seed : U32) (data : List Byte) : U32 := data.foldl crcByte seed

/-- `header_checksum(flags, length)` (R86). -/
def headerChecksum (flags length : U16) : Byte :=
  flags.extractLsb' 0 8 ^^^ flags.extractLsb' 8 8 ^^^ length.extractLsb' 0 8 ^^^ length.extractLsb' 8 8

/-- `frame_crc(H, P)`, over logical bytes, from the seed `CRC_SEED` (R88). -/
def frameCrc (header payload : List Byte) : U32 := crc32 (crc32 Config.crcSeed header) payload

/-- The logical header `H` of five bytes (R51, R101). -/
def headerBytes (flags length : U16) : List Byte :=
  bytesLE16 flags ++ bytesLE16 length ++ [headerChecksum flags length]

/-- The logical frame `F = H ‖ P ‖ C` without its preamble (R51). -/
def logicalFrame (flags length : U16) (payload : List Byte) : List Byte :=
  headerBytes flags length ++ payload ++ bytesLE32 (frameCrc (headerBytes flags length) payload)

/-- The wire form of a frame, `55 AA 55 AA ‖ esc(F)`; the preamble is never escaped (R56). -/
def wireFrame (flags length : U16) (payload : List Byte) : List Byte :=
  preambleBytes ++ escBytes (logicalFrame flags length payload)

end Sys2Proof.Machine
end

