-- ==== Sys2Proof/Syntax.lean ====
section
/-! DEFINITION. The instructions: one constructor per row of spec/opcode_table.json, and the words that carry them. -/

namespace Sys2Proof

/-- One constructor per row of opcode_table.json. Formats OP (R62, R63), WIRE (R57), ESC (R54) and FRAME (R51). -/
inductive Instr where
  /-- OP 000 `crc32` (R81). -/
  | crc32 (seed : U32) (data : List Byte)
  /-- OP 001 `header_checksum` (R86). -/
  | headerChecksum (flags length : U16)
  /-- OP 010 `encode` (R108). -/
  | encode (flags length : U16) (payload : List Byte)
  /-- OP 011 `decode_step` (R150). -/
  | decodeStep (b : Byte)
  /-- OP 100 `read` (R164); `dest` is the host's buffer, a field of the state. -/
  | read (b : Byte) (destCapacity : Nat)
  /-- OP 101, not assigned (R62). -/
  | opUnassigned101
  /-- OP 110, not assigned (R62). -/
  | opUnassigned110
  /-- OP 111, not assigned (R62). -/
  | opUnassigned111
  /-- WIRE `rx.preamble`: the four raw bytes `55 AA 55 AA` (R126). -/
  | rxPreamble
  /-- WIRE `rx.seek_raw`: a raw byte while seeking (R128). -/
  | rxSeekRaw (b : Byte)
  /-- WIRE `rx.seek_raw_full`: a raw byte that fills the buffer (R127). -/
  | rxSeekRawFull (b : Byte)
  /-- WIRE `rx.escape_prefix`: the byte `1B` in a frame (R122). -/
  | rxEscapePrefix
  /-- WIRE `rx.literal`: a byte other than `1B` in a frame (R124). -/
  | rxLiteral (b : Byte)
  /-- WIRE `rx.escaped`: the byte after an escape prefix (R121). -/
  | rxEscaped (b : Byte)
  /-- WIRE `rx.pair`: the two bytes `1B x` (R123). -/
  | rxPair (x : Byte)
  /-- WIRE `rx.header_complete`: five logical header bytes (R135 to R139). -/
  | rxHeaderComplete (flags length : U16) (hcs : Byte)
  /-- WIRE `rx.body_complete`: the logical payload and CRC bytes (R145 to R149). -/
  | rxBodyComplete (payload : List Byte) (crc : U32)
  /-- ESC `tx.esc_flag`: `1B AA` for the logical byte FLAG (R54). -/
  | txEscFlag
  /-- ESC `tx.esc_escape`: `1B 1B` for the logical byte ESCAPE (R54). -/
  | txEscEscape
  /-- ESC `tx.verbatim`: any other logical byte, as it is (R54). -/
  | txVerbatim (x : Byte)
  /-- ESC `tx.preamble`: `55 AA 55 AA`, raw (R103). -/
  | txPreamble
  /-- FRAME `frame`: a whole frame on the wire (R51, R56). -/
  | frame (flags length : U16) (payload : List Byte)
  deriving DecidableEq, Repr

/-- The context that a WIRE row's fields name beside its bytes (`state`, `unescaping`, the condition): the rows are selected by
it as well as by the byte (R57). -/
inductive WireSelect where
  /-- SeekingPreamble, the window not filling: one raw byte, or the four bytes of the preamble. -/
  | seeking
  /-- SeekingPreamble, the byte fills the buffer. -/
  | seekingFull
  /-- ReadingHeader or ReadingBody, `unescaping = false`. -/
  | framing
  /-- ReadingHeader or ReadingBody, `unescaping = true`. -/
  | framingEscaped
  /-- The five logical header bytes. -/
  | headerLogical
  /-- The logical payload and CRC bytes. -/
  | bodyLogical
  deriving DecidableEq, Repr

/-- The formats of opcode_table.json (30_encoding.md section 7). -/
inductive Format where
  | op
  | wire (sel : WireSelect)
  | esc
  | frame
  deriving DecidableEq, Repr

/-- What the host issues: the format that names the interface, and the bytes in stream order (log entries 6 and 7). -/
structure Request where
  format : Format
  bytes  : List Byte
  deriving DecidableEq, Repr

end Sys2Proof
end

