-- ==== Sys2Proof/WellFormed.lean ====
section
/-! DEFINITION. Which instructions the opcode table's rows admit: the side conditions on their operands. -/

namespace Sys2Proof

open Sys2Proof.Machine

/-- `payload` is a byte sequence of exactly `length` bytes (R100, R51, D15). -/
def payloadMatches (length : U16) (payload : List Byte) : Bool := payload.length == length.toNat

/-- The side conditions of each row. `rx.literal` excludes `1B`, which `rx.escape_prefix` takes (R57); `tx.verbatim` excludes the
two escaped values (R54); the payload of `rx.body_complete` is counted by a 16-bit field (R53). -/
def Instr.wellFormed : Instr → Bool
  | .crc32 _ _ => true
  | .headerChecksum _ _ => true
  | .encode _ length payload => payloadMatches length payload
  | .decodeStep _ => true
  | .read _ _ => true
  | .opUnassigned101 => true
  | .opUnassigned110 => true
  | .opUnassigned111 => true
  | .rxPreamble => true
  | .rxSeekRaw _ => true
  | .rxSeekRawFull _ => true
  | .rxEscapePrefix => true
  | .rxLiteral b => b != Config.escape
  | .rxEscaped _ => true
  | .rxPair _ => true
  | .rxHeaderComplete _ _ _ => true
  | .rxBodyComplete payload _ => payload.length < 2 ^ 16
  | .txEscFlag => true
  | .txEscEscape => true
  | .txVerbatim x => !needsEscape x
  | .txPreamble => true
  | .frame _ length payload => payloadMatches length payload

end Sys2Proof
end

