-- ==== Sys2Proof/Decode.lean ====
section
/-! DEFINITION. The decoder of requests into instructions, total on any bytes and rejecting by name; after it the encoder,
written from the same tables (spec/30_encoding.md R50 to R63, spec/opcode_table.json). -/

namespace Sys2Proof

open Sys2Proof.Machine

/-- Why bytes are no instruction of their format. -/
inductive DecodeError where
  /-- No byte at all. -/
  | emptyWord
  /-- The select byte of format OP has a bit above the 3-bit select set (R62, log entry 7). -/
  | reservedOpBits
  /-- An operand of format OP is cut short (R63). -/
  | missingOperand
  /-- Bytes after the last operand. -/
  | trailingBytes
  /-- The number of payload bytes differs from `length` (R100, D15). -/
  | payloadLength
  /-- `dest_capacity` is not written in its shortest form (log entry 7). -/
  | nonCanonicalNatural
  /-- The bytes are no symbol of this format and context (R54, R57). -/
  | notThisSymbol
  /-- A payload too long for a 16-bit length (R53). -/
  | payloadTooLong
  /-- A frame does not begin with `55 AA 55 AA` (R50). -/
  | badPreamble
  /-- A frame ends inside an escape pair (R65 item 1). -/
  | danglingEscape
  /-- A frame does not have `9 + length` logical bytes (R51). -/
  | frameLength
  /-- A frame's header checksum field is not the XOR of the four bytes before it (R50, R53). -/
  | frameHeaderChecksum
  /-- A frame's CRC field is not the frame CRC (R50, R88). -/
  | frameCrcField
  /-- A frame is not escaped as the encoder escapes it (R54, R58). -/
  | nonCanonicalEscape
  deriving DecidableEq, Repr

/-! ### Format OP: the select in the low three bits of the first byte, then the operands in the order of R63 -/

def decodeCrc32 : List Byte → Except DecodeError Instr
  | s0 :: s1 :: s2 :: s3 :: data => .ok (.crc32 (le32 s0 s1 s2 s3) data)
  | _ => .error .missingOperand

def decodeHeaderChecksum : List Byte → Except DecodeError Instr
  | [f0, f1, l0, l1] => .ok (.headerChecksum (le16 f0 f1) (le16 l0 l1))
  | _ :: _ :: _ :: _ :: _ => .error .trailingBytes
  | _ => .error .missingOperand

def decodeEncode : List Byte → Except DecodeError Instr
  | f0 :: f1 :: l0 :: l1 :: payload =>
    if payloadMatches (le16 l0 l1) payload then .ok (.encode (le16 f0 f1) (le16 l0 l1) payload)
    else .error .payloadLength
  | _ => .error .missingOperand

def decodeDecodeStep : List Byte → Except DecodeError Instr
  | [b] => .ok (.decodeStep b)
  | _ :: _ => .error .trailingBytes
  | [] => .error .missingOperand

def decodeRead : List Byte → Except DecodeError Instr
  | b :: cap =>
    if cap.getLast? = some 0#8 then .error .nonCanonicalNatural
    else .ok (.read b (natOfBytes cap))
  | [] => .error .missingOperand

/-- An unassigned select takes no operands (R62). -/
def decodeUnassigned (i : Instr) : List Byte → Except DecodeError Instr
  | [] => .ok i
  | _ :: _ => .error .trailingBytes

/-- Format OP (R62): `000` to `100` the five operations, `101`, `110`, `111` not assigned. -/
def decodeOp : List Byte → Except DecodeError Instr
  | [] => .error .emptyWord
  | op :: rest =>
    match op.toNat with
    | 0 => decodeCrc32 rest
    | 1 => decodeHeaderChecksum rest
    | 2 => decodeEncode rest
    | 3 => decodeDecodeStep rest
    | 4 => decodeRead rest
    | 5 => decodeUnassigned .opUnassigned101 rest
    | 6 => decodeUnassigned .opUnassigned110 rest
    | 7 => decodeUnassigned .opUnassigned111 rest
    | _ => .error .reservedOpBits

/-! ### Format WIRE: the rows of R57, selected by the context and the bytes -/

/-- SeekingPreamble: one raw byte (`rx.seek_raw`), or the preamble `55 AA 55 AA` (`rx.preamble`). -/
def decodeSeeking (bytes : List Byte) : Except DecodeError Instr :=
  if bytes = preambleBytes then .ok .rxPreamble
  else match bytes with
    | [] => .error .emptyWord
    | [b] => .ok (.rxSeekRaw b)
    | _ => .error .notThisSymbol

def decodeSeekingFull : List Byte → Except DecodeError Instr
  | [] => .error .emptyWord
  | [b] => .ok (.rxSeekRawFull b)
  | _ => .error .notThisSymbol

/-- In a frame with the flag clear: `1B` is the prefix, another byte a literal, `1B x` the pair. -/
def decodeFraming : List Byte → Except DecodeError Instr
  | [] => .error .emptyWord
  | [b] => if b = Config.escape then .ok .rxEscapePrefix else .ok (.rxLiteral b)
  | [p, x] => if p = Config.escape then .ok (.rxPair x) else .error .notThisSymbol
  | _ => .error .notThisSymbol

def decodeFramingEscaped : List Byte → Except DecodeError Instr
  | [] => .error .emptyWord
  | [b] => .ok (.rxEscaped b)
  | _ => .error .notThisSymbol

def decodeHeaderLogical : List Byte → Except DecodeError Instr
  | [] => .error .emptyWord
  | [f0, f1, l0, l1, h] => .ok (.rxHeaderComplete (le16 f0 f1) (le16 l0 l1) h)
  | _ => .error .notThisSymbol

/-- The payload, then the four CRC bytes, least significant first. -/
def decodeBodyLogical (bytes : List Byte) : Except DecodeError Instr :=
  match bytes.drop (bytes.length - 4) with
  | [c0, c1, c2, c3] =>
    if bytes.length - 4 < 2 ^ 16 then .ok (.rxBodyComplete (bytes.take (bytes.length - 4)) (le32 c0 c1 c2 c3))
    else .error .payloadTooLong
  | _ => .error .notThisSymbol

def decodeWire : WireSelect → List Byte → Except DecodeError Instr
  | .seeking, bytes => decodeSeeking bytes
  | .seekingFull, bytes => decodeSeekingFull bytes
  | .framing, bytes => decodeFraming bytes
  | .framingEscaped, bytes => decodeFramingEscaped bytes
  | .headerLogical, bytes => decodeHeaderLogical bytes
  | .bodyLogical, bytes => decodeBodyLogical bytes

/-! ### Format ESC: the encoder's output forms (R54, R103) -/

def decodeEsc (bytes : List Byte) : Except DecodeError Instr :=
  if bytes = preambleBytes then .ok .txPreamble
  else match bytes with
    | [] => .error .emptyWord
    | [x] => if needsEscape x then .error .notThisSymbol else .ok (.txVerbatim x)
    | [p, x] =>
      if p = Config.escape then
        if x = Config.flag then .ok .txEscFlag
        else if x = Config.escape then .ok .txEscEscape
        else .error .notThisSymbol
      else .error .notThisSymbol
    | _ => .error .notThisSymbol

/-! ### Format FRAME: the wire layout (R50, R51, R56) -/

/-- The logical bytes `F` of a frame, its fields checked one after another (R51, R52). -/
def decodeLogicalFrame : List Byte → Except DecodeError Instr
  | f0 :: f1 :: l0 :: l1 :: h :: rest =>
    if rest.length ≠ (le16 l0 l1).toNat + 4 then .error .frameLength
    else if headerChecksum (le16 f0 f1) (le16 l0 l1) ≠ h then .error .frameHeaderChecksum
    else if rest.drop (le16 l0 l1).toNat
        ≠ bytesLE32 (frameCrc [f0, f1, l0, l1, h] (rest.take (le16 l0 l1).toNat)) then .error .frameCrcField
    else .ok (.frame (le16 f0 f1) (le16 l0 l1) (rest.take (le16 l0 l1).toNat))
  | _ => .error .frameLength

def decodeFrame (bytes : List Byte) : Except DecodeError Instr :=
  if bytes.take 4 ≠ preambleBytes then .error .badPreamble
  else match unescape (bytes.drop 4) with
    | none => .error .danglingEscape
    | some logical =>
      if escBytes logical ≠ bytes.drop 4 then .error .nonCanonicalEscape
      else decodeLogicalFrame logical

/-! ### The decoder -/

/-- The instruction a request stands for, or the reason it is none. -/
def decode (r : Request) : Except DecodeError Instr :=
  match r.format with
  | .op => decodeOp r.bytes
  | .wire sel => decodeWire sel r.bytes
  | .esc => decodeEsc r.bytes
  | .frame => decodeFrame r.bytes

/-! ### The encoder -/

/-- The words of a well-formed instruction, written from the same tables. -/
def encode : Instr → Request
  | .crc32 seed data => ⟨.op, 0x00#8 :: (bytesLE32 seed ++ data)⟩
  | .headerChecksum flags length => ⟨.op, 0x01#8 :: (bytesLE16 flags ++ bytesLE16 length)⟩
  | .encode flags length payload => ⟨.op, 0x02#8 :: (bytesLE16 flags ++ bytesLE16 length ++ payload)⟩
  | .decodeStep b => ⟨.op, [0x03#8, b]⟩
  | .read b destCapacity => ⟨.op, 0x04#8 :: b :: natBytes destCapacity⟩
  | .opUnassigned101 => ⟨.op, [0x05#8]⟩
  | .opUnassigned110 => ⟨.op, [0x06#8]⟩
  | .opUnassigned111 => ⟨.op, [0x07#8]⟩
  | .rxPreamble => ⟨.wire .seeking, preambleBytes⟩
  | .rxSeekRaw b => ⟨.wire .seeking, [b]⟩
  | .rxSeekRawFull b => ⟨.wire .seekingFull, [b]⟩
  | .rxEscapePrefix => ⟨.wire .framing, [Config.escape]⟩
  | .rxLiteral b => ⟨.wire .framing, [b]⟩
  | .rxEscaped b => ⟨.wire .framingEscaped, [b]⟩
  | .rxPair x => ⟨.wire .framing, [Config.escape, x]⟩
  | .rxHeaderComplete flags length hcs => ⟨.wire .headerLogical, bytesLE16 flags ++ bytesLE16 length ++ [hcs]⟩
  | .rxBodyComplete payload crc => ⟨.wire .bodyLogical, payload ++ bytesLE32 crc⟩
  | .txEscFlag => ⟨.esc, [Config.escape, Config.flag]⟩
  | .txEscEscape => ⟨.esc, [Config.escape, Config.escape]⟩
  | .txVerbatim x => ⟨.esc, [x]⟩
  | .txPreamble => ⟨.esc, preambleBytes⟩
  | .frame flags length payload => ⟨.frame, wireFrame flags length payload⟩

/-! ### Words of the opcode table -/

/-- The bytes of a table word: the table reads the first wire byte as the most significant byte (30_encoding.md section 7). -/
def tableBytes (nbits w : Nat) : List Byte :=
  (List.range ((nbits + 7) / 8)).reverse.map (fun k => BitVec.ofNat 8 (w >>> (8 * k)))

/-- The zero operand bytes that follow a select byte whose table word has no bits for them (R63). -/
def zeroOperands : List Byte → List Byte
  | [op] => List.replicate
      (match op.toNat with | 0 => 4 | 1 => 4 | 2 => 4 | 3 => 1 | 4 => 1 | _ => 0) 0#8
  | _ => []

/-- The requests a table word may stand for, in the order they are tried (log entry 8): a one-byte word is first a select of
format OP, then the formats whose patterns it may fit. -/
def tableRequests (bytes : List Byte) : List Request :=
  [⟨.op, bytes ++ zeroOperands bytes⟩, ⟨.esc, bytes⟩, ⟨.wire .framing, bytes⟩, ⟨.wire .headerLogical, bytes⟩,
    ⟨.wire .seeking, bytes⟩, ⟨.frame, bytes⟩, ⟨.wire .bodyLogical, bytes⟩]

/-- Whether the decoder reads an instruction from the request; a format OP word of the table is one byte (its three bits). -/
def readsTableWord (nbits : Nat) (r : Request) : Bool :=
  match decode r with
  | .ok _ => r.format != .op || nbits ≤ 8
  | .error _ => false

/-- The request that a table word stands for: the first that the decoder reads; the format OP word itself where it reads none. -/
def requestOfTable (nbits w : Nat) : Request :=
  match (tableRequests (tableBytes nbits w)).find? (readsTableWord nbits) with
  | some r => r
  | none => ⟨.op, tableBytes nbits w⟩

/-- The instruction the decoder reads from a table word of `nbits` bits. -/
def decodeTableWord (nbits w : Nat) : Option Instr :=
  match decode (requestOfTable nbits w) with
  | .ok i => some i
  | .error _ => none

end Sys2Proof
end

