-- ==== Sys2Proof/Machine/Memory.lean ====
section
/-! DEFINITION. Byte memories: a list of (index, byte) in one canonical form, indices strictly rising. A byte neither given nor
written is not listed; the scratch buffer reads there as the free value `Config.initialByte` (spec/10_state.md R23, D6;
log entry 4). -/

namespace Sys2Proof.Machine

/-- The written bytes of a memory, indices strictly rising. -/
abbrev Memory := List Host.Cell

/-- Every index is above `lo`'s, and they rise strictly. -/
def Memory.risesFrom : Nat → Memory → Bool
  | _, [] => true
  | lo, (i, _) :: m => decide (lo ≤ i) && Memory.risesFrom (i + 1) m

/-- The canonical form: indices strictly rising. -/
def Memory.wf (m : Memory) : Bool := Memory.risesFrom 0 m

/-- The byte at an index, `none` where nothing has written it. -/
def Memory.read : Memory → Nat → Option Byte
  | [], _ => none
  | (j, v) :: m, i => if i = j then some v else Memory.read m i

/-- The byte a scratch index holds: the listed one, else the free value of its contents after construction (R23, D6). -/
def Memory.byte (m : Memory) (i : Nat) : Byte := (m.read i).getD (Config.initialByte i)

/-- The memory with a byte written at an index, in canonical form again (R39: "changes that byte only"). -/
def Memory.write : Memory → Nat → Byte → Memory
  | [], i, v => [(i, v)]
  | (j, w) :: m, i, v =>
    if i < j then (i, v) :: (j, w) :: m
    else if i = j then (i, v) :: m
    else (j, w) :: Memory.write m i v

/-- The memory with the bytes of a list written from an index upward. -/
def Memory.writeList : Memory → Nat → List Byte → Memory
  | m, _, [] => m
  | m, i, v :: vs => Memory.writeList (Memory.write m i v) (i + 1) vs

end Sys2Proof.Machine
end

