-- ==== Sys2Proof/Machine/State.lean ====
section
/-! DEFINITION. The state of one engine instance and of the two sides of its interface (spec/10_state.md), the reasons a step
may stop, and the state after reset (R23, R200). -/

namespace Sys2Proof.Machine

/-- The register `state` (R13); D20 gives it three values and no fourth. -/
inductive DecoderState where
  | seekingPreamble
  | readingHeader
  | readingBody
  deriving DecidableEq, Repr

/-- The Frame record, its payload by value (R19, D10). -/
structure Frame where
  flags   : U16
  length  : U16
  payload : List Byte
  deriving DecidableEq, Repr

/-- The five error events with the values `raise E(info)` names (R170 to R175). Ghost labels: the engine has no cause register. -/
inductive Event where
  /-- `encode`: `length > CAP` (R171). -/
  | oversize (length : U16)
  /-- ReadingHeader: the header checksum differs (R172). -/
  | hdrCsum
  /-- ReadingHeader: checksum good, `length > CAP - 10` (R173). -/
  | hdrLen
  /-- ReadingBody: the CRC differs (R174). -/
  | bodyCrc (rxCrc calcCrc : U32)
  /-- `read`: the frame is longer than `dest_capacity` (R175). -/
  | destSmall (length : U16) (destCapacity : Nat)
  deriving DecidableEq, Repr

/-- What an operation returns (R63, R26). -/
inductive Result where
  /-- Nothing has returned yet. -/
  | none
  /-- `crc32`: the 32-bit value. -/
  | crc (v : U32)
  /-- `header_checksum`: the 8-bit value. -/
  | checksum (v : Byte)
  /-- `encode`, `read`: success. -/
  | success
  /-- `encode`, `read`: failure. -/
  | failure
  /-- `decode_step`: no frame. -/
  | noFrame
  /-- `decode_step`: a frame. -/
  | frame (f : Frame)
  /-- `feed` (R64): the frames delivered, in order. -/
  | frames (fs : List Frame)
  deriving DecidableEq, Repr

/-- Why the model faults. The engine itself has no fault (R176); these are faults of the model (R35), safe, and no state that
meets the invariant of Safety.lean raises one. -/
inductive Fault where
  /-- Raised by an access to the scratch buffer at an index of `CAP` or above (R35). Safe. -/
  | bufOutOfRange (index : Nat)
  /-- Raised by the step back of R121 where `cursor` is 0 (R121: "cannot underflow"). Safe. -/
  | cursorUnderflow
  deriving DecidableEq, Repr

/-- Why the model refuses. -/
inductive Refusal where
  /-- Raised by `exec` for an instruction without a meaning yet. Safe. -/
  | notModelled (mnemonic : String)
  /-- Raised by the select codes 101, 110, 111, which are not operations (R62, U11). Safe. -/
  | unassignedSelect (code : BitVec 3)
  /-- Raised by `encode` and `frame` where the payload is not `length` bytes: not an operation (R100, U8, D15). Safe. -/
  | payloadNotLength
  /-- Raised by a step whose request decodes to no instruction. Safe. -/
  | undecodable (e : DecodeError)
  deriving DecidableEq, Repr

/-- One engine instance (R10) with the streams, the host's buffer and the host's requests. -/
structure State where
  /-- The construction parameter CAP (R3, R23); no operation writes it. -/
  cap        : Nat
  /-- The register `state` (R13). -/
  state      : DecoderState
  /-- The register `cursor` (R12). -/
  cursor     : Nat
  /-- The register `unescaping` (R14). -/
  unescaping : Bool
  /-- The scratch buffer (R15): its bytes given at construction or written since; any other of its `CAP` bytes is
  `Config.initialByte` (D6; log entry 4). -/
  buf        : Memory
  /-- The transmit stream, oldest byte first (R17). -/
  tx         : List Byte
  /-- How many bytes of the receive stream have been consumed (R16, R23, R154). -/
  rxPos      : Nat
  /-- The host's destination buffer (R18, R30). -/
  dest       : Memory
  /-- The model's own: what the last operation returned (R26; log entry 12). -/
  result     : Result
  /-- The model's own ghost: the labels the last operation raised (R177; log entry 13). -/
  events     : List Event
  /-- The model's own: the operations the host has issued, oldest first (R5; log entry 6). -/
  pending    : List Request
  deriving DecidableEq, Repr

/-- The state that construction with capacity `cap` leaves (R23, R200). The initial contents of the scratch buffer are an argument
(D6): `contents` are its first bytes, and a byte not given is the free value `Config.initialByte`. -/
def State.afterConstruction (cap : Nat) (contents : List Byte) : State where
  cap := cap
  state := .seekingPreamble
  cursor := 0
  unescaping := false
  buf := Memory.writeList [] 0 contents
  tx := []
  rxPos := 0
  dest := []
  result := .none
  events := []
  pending := []

/-- Construction of an instance: refused below the least capacity (R3, D3, U5), and with more initial bytes than the buffer has
(R15, D6). -/
def State.construct (cap : Nat) (contents : List Byte) : Option State :=
  if Config.minCapacity ≤ cap ∧ contents.length ≤ cap then some (State.afterConstruction cap contents) else none

/-- The machine right after reset: reset is construction (R200); its capacity is a DESIGN CHOICE (log entry 2), and no byte of its
scratch buffer is given, so each is the free value (R23, D6; log entry 4). -/
def State.reset : State := State.afterConstruction Config.resetCapacity []

end Sys2Proof.Machine
end

