-- ==== Sys2Proof/Machine/Ops.lean ====
section
/-! DEFINITION. The named operations over the scratch buffer, the registers, the streams and the host's buffer
(spec/20_memory.md R31, spec/42_decode.md R121, R122, R124), and taking an error event (spec/60_exceptions.md R170 to R178). -/

namespace Sys2Proof.Machine

/-! ### The scratch buffer -/

/-- `MemRead(i, 1)` (R31, R35): each of the `CAP` bytes holds a value from construction on (R15, D6). -/
def bufRead (i : Nat) (s : State) : Except Fault Byte :=
  if i < s.cap then .ok (s.buf.byte i) else .error (.bufOutOfRange i)

/-- `MemWrite(i, 1, v)` (R31, R35, R39). -/
def bufWrite (i : Nat) (v : Byte) (s : State) : Except Fault State :=
  if i < s.cap then .ok { s with buf := s.buf.write i v } else .error (.bufOutOfRange i)

/-- `buf[i .. i+n)`, read one byte at a time in ascending order. -/
def bufSlice (i : Nat) : Nat → State → Except Fault (List Byte)
  | 0, _ => .ok []
  | n + 1, s => do
    let v ← bufRead i s
    let vs ← bufSlice (i + 1) n s
    pure (v :: vs)

/-- `buf[dst] <- buf[src]` (R127). -/
def bufMove (dst src : Nat) (s : State) : Except Fault State := do
  let v ← bufRead src s
  bufWrite dst v s

/-! ### The registers -/

/-- The append of R124: `buf[cursor] <- b; cursor <- cursor + 1`. -/
def append (b : Byte) (s : State) : Except Fault State := do
  let s ← bufWrite s.cursor b s
  pure { s with cursor := s.cursor + 1 }

/-- The step back of R121: where the flag is set, `cursor <- cursor - 1; unescaping <- false`. -/
def stepBack (s : State) : Except Fault State :=
  if s.unescaping then
    if s.cursor = 0 then .error .cursorUnderflow
    else .ok { s with cursor := s.cursor - 1, unescaping := false }
  else .ok s

/-- The marker store of R122: `unescaping <- true; buf[cursor] <- 1B; cursor <- cursor + 1`. -/
def storeMarker (s : State) : Except Fault State :=
  append Config.escape { s with unescaping := true }

/-- `state <- SeekingPreamble; cursor <- 0`: the resync of R147 and of discard-and-resync (R178). -/
def resync (s : State) : State := { s with state := .seekingPreamble, cursor := 0 }

/-- The buffer-full shift of R127: the last four bytes to the front in ascending order, `cursor <- 4`. -/
def shiftWindow (s : State) : Except Fault State := do
  let s ← bufMove 0 (s.cap - 4) s
  let s ← bufMove 1 (s.cap - 3) s
  let s ← bufMove 2 (s.cap - 2) s
  let s ← bufMove 3 (s.cap - 1) s
  pure { s with cursor := 4 }

/-! ### Error events: the engine's counterpart of taking an exception -/

/-- The state changes section 60 lists for an event: the decoder's three discard and resync (R172 to R174, R178), the other two
change no engine state (R171, R175). Nothing is saved (R178) and there is no return from it (R179). -/
def eventEffect : Event → State → State
  | .oversize _, s => s
  | .hdrCsum, s => resync s
  | .hdrLen, s => resync s
  | .bodyCrc _ _, s => resync s
  | .destSmall _ _, s => s

/-- The failure result section 60 lists for an event (R170). -/
def eventResult : Event → Result
  | .oversize _ => .failure
  | .hdrCsum => .noFrame
  | .hdrLen => .noFrame
  | .bodyCrc _ _ => .noFrame
  | .destSmall _ _ => .failure

/-- `raise E(info)` (00_scope.md section 7): the state changes of the event, its failure result, and its ghost label (R177). -/
def raiseEvent (e : Event) (s : State) : State :=
  { eventEffect e s with result := eventResult e, events := s.events ++ [e] }

/-! ### The streams and the host's buffer -/

/-- `TxByte(b)`: append to the transmit stream; a write always succeeds (R17, D9). -/
def txByte (b : Byte) (s : State) : State := { s with tx := s.tx ++ [b] }

/-- `TxByte` of each byte of a sequence, in order. -/
def txBytes : List Byte → State → State
  | [], s => s
  | b :: bs, s => txBytes bs (txByte b s)

/-- One pass of the loop of R108: the escape prefix where the byte needs it, then the byte. -/
def txEscaped (x : Byte) (s : State) : State :=
  if needsEscape x then txByte x (txByte Config.escape s) else txByte x s

/-- The loop of R108 over a sequence of logical bytes. -/
def txEscapedAll : List Byte → State → State
  | [], s => s
  | x :: xs, s => txEscapedAll xs (txEscaped x s)

/-- One byte of the receive stream is consumed (R39, R154). -/
def takeRx (s : State) : State := { s with rxPos := s.rxPos + 1 }

/-- The copy of R161: `dest[i] <- payload[i]`, every other byte unchanged (D11). -/
def copyToDest (payload : List Byte) (s : State) : State := { s with dest := s.dest.writeList 0 payload }

/-! ### Beginning and ending an operation -/

/-- A new operation: no label is raised yet (log entry 13). -/
def startOp (s : State) : State := { s with events := [] }

/-- The operation ends with a result (`return X`). -/
def ret (r : Result) (s : State) : State := { s with result := r }

/-- The outcome of an operation that may meet a fault of the model. -/
def outcome : Except Fault State → Host.Outcome State Fault Refusal
  | .ok s => .next s
  | .error f => .fault f

/-! ### Fetching the next request -/

/-- What the step finds at the head of `pending`. -/
inductive Fetched where
  /-- The host has issued nothing. -/
  | idle
  /-- The oldest request is this instruction; the state has it taken off. -/
  | instr (i : Instr) (s : State)
  /-- The oldest request is no instruction. -/
  | bad (e : DecodeError)

/-- Take the oldest request and decode it (log entry 6). -/
def fetch (s : State) : Fetched :=
  match s.pending with
  | [] => .idle
  | r :: rest =>
    match decode r with
    | .ok i => .instr i { s with pending := rest }
    | .error e => .bad e

end Sys2Proof.Machine
end

