-- ==== Sys2Proof/Machine/ChecksumOps.lean ====
section
/-! DEFINITION. The Checksum Engine's operations of format OP (spec/40_checksum.md R81, R86): they return a value and change
nothing else (R89). -/

namespace Sys2Proof.Machine

/-- `crc32(seed, data)` (R81). -/
def execCrc32 (seed : U32) (data : List Byte) (s : State) : Host.Outcome State Fault Refusal :=
  .next (ret (.crc (crc32 seed data)) (startOp s))

/-- `header_checksum(flags, length)` (R86). -/
def execHeaderChecksum (flags length : U16) (s : State) : Host.Outcome State Fault Refusal :=
  .next (ret (.checksum (headerChecksum flags length)) (startOp s))

end Sys2Proof.Machine
end

