-- ==== Sys2Proof/Machine/Flags.lean ====
section
/-! DEFINITION. The conditions the engine computes: the preamble match (spec/42_decode.md R126), the header checksum test (R136),
the length bound test (R137), the CRC test (R146), and the size tests of `encode` (R100) and `read` (R162). -/

namespace Sys2Proof.Machine

/-- The preamble match of R126: at least four bytes, and the last four, little-endian, are the preamble constant. -/
def preambleSeen (s : State) : Except Fault Bool :=
  if 4 ≤ s.cursor then do
    let w0 ← bufRead (s.cursor - 4) s
    let w1 ← bufRead (s.cursor - 3) s
    let w2 ← bufRead (s.cursor - 2) s
    let w3 ← bufRead (s.cursor - 1) s
    pure (le32 w0 w1 w2 w3 == Config.preamble)
  else pure false

/-- `csum_ok` of R136. -/
def csumOk (flags length : U16) (received : Byte) : Bool := headerChecksum flags length == received

/-- `len_ok` of R137: `length + 10 <= CAP`, on natural numbers (D4). -/
def lenOk (length : U16) (cap : Nat) : Bool := decide (length.toNat + Config.overhead ≤ cap)

/-- `crc_ok` of R146. -/
def crcOk (rxCrc calcCrc : U32) : Bool := rxCrc == calcCrc

/-- `length > CAP`: the test of `encode` (R100). -/
def oversize (length : U16) (cap : Nat) : Bool := decide (cap < length.toNat)

/-- `length > dest_capacity`: the test of `read` (R162). -/
def destTooSmall (length : U16) (destCapacity : Nat) : Bool := decide (destCapacity < length.toNat)

/-- The event of a rejected header: `E_HDR_CSUM` where the checksum fails, else `E_HDR_LEN` (R139, R180, D16). -/
def headerEvent (csum : Bool) : Event := if csum then .hdrLen else .hdrCsum

end Sys2Proof.Machine
end

