-- ==== Sys2Proof/Machine/DecodePath.lean ====
section
/-! DEFINITION. The decode path (spec/42_decode.md R120 to R150), phase by phase: unescape pre-processing, append, the state
logic; the whole step; and `feed` (spec/30_encoding.md R64). -/

namespace Sys2Proof.Machine

/-- What a `decode_step` returns: `none` is "no frame" (R26). -/
abbrev FrameResult := Option Frame

/-- Phase 1 (R121, R122), in ReadingHeader and ReadingBody only; `true` where it ends the call. The flag tested is the flag as
the previous call left it. -/
def unescapePhase (b : Byte) (s : State) : Except Fault (State × Bool) :=
  if s.state = .seekingPreamble then pure (s, false)
  else do
    let was := s.unescaping
    let s ← stepBack s
    if b = Config.escape ∧ was = false then do
      let s ← storeMarker s
      pure (s, true)
    else pure (s, false)

/-- Phase 3 in SeekingPreamble: match, else buffer-full shift, else keep accumulating (R126 to R128). -/
def seekLogic (s : State) : Except Fault State := do
  let seen ← preambleSeen s
  if seen then pure { s with state := .readingHeader, cursor := 0 }
  else if s.cursor = s.cap then shiftWindow s
  else pure s

/-- The completion test of the header on its five logical bytes (R136 to R139). -/
def judgeHeader (flags length : U16) (hcs : Byte) (s : State) : State :=
  if csumOk flags length hcs && lenOk length s.cap then { s with state := .readingBody }
  else raiseEvent (headerEvent (csumOk flags length hcs)) s

/-- Phase 3 in ReadingHeader (R135 to R139). -/
def headerLogic (s : State) : Except Fault State :=
  if s.cursor = Config.hdrLen then do
    let b0 ← bufRead 0 s
    let b1 ← bufRead 1 s
    let b2 ← bufRead 2 s
    let b3 ← bufRead 3 s
    let b4 ← bufRead 4 s
    pure (judgeHeader (le16 b0 b1) (le16 b2 b3) b4 s)
  else pure s

/-- The end of a frame (R147 to R149): resync unconditionally, then deliver or drop. -/
def judgeBody (rxCrc calcCrc : U32) (f : Frame) (s : State) : State × FrameResult :=
  if crcOk rxCrc calcCrc then (resync s, some f)
  else (raiseEvent (.bodyCrc rxCrc calcCrc) (resync s), none)

/-- Phase 3 in ReadingBody (R145 to R149). -/
def bodyLogic (s : State) : Except Fault (State × FrameResult) := do
  let b2 ← bufRead 2 s
  let b3 ← bufRead 3 s
  let length := le16 b2 b3
  if s.cursor = Config.hdrLen + length.toNat + Config.crcLen then do
    let header ← bufSlice 0 5 s
    let payload ← bufSlice 5 length.toNat s
    let c0 ← bufRead (5 + length.toNat) s
    let c1 ← bufRead (6 + length.toNat) s
    let c2 ← bufRead (7 + length.toNat) s
    let c3 ← bufRead (8 + length.toNat) s
    let b0 ← bufRead 0 s
    let b1 ← bufRead 1 s
    pure (judgeBody (le32 c0 c1 c2 c3) (frameCrc header payload) ⟨le16 b0 b1, length, payload⟩ s)
  else pure (s, none)

/-- Phase 3, on the state the call started in (R120). -/
def stateLogic (s : State) : Except Fault (State × FrameResult) :=
  match s.state with
  | .seekingPreamble => do
    let s ← seekLogic s
    pure (s, none)
  | .readingHeader => do
    let s ← headerLogic s
    pure (s, none)
  | .readingBody => bodyLogic s

/-- `decode_step(b)` in full (R150); it consumes one received byte whatever its outcome (R154). -/
def decodeStepCore (b : Byte) (s : State) : Except Fault (State × FrameResult) := do
  let (s, ended) ← unescapePhase b (takeRx s)
  if ended then pure (s, none)
  else do
    let s ← append b s
    stateLogic s

/-- The result of a `decode_step` as the interface shows it (R63). -/
def frameResult : FrameResult → Result
  | none => .noFrame
  | some f => .frame f

/-- A whole `decode_step` operation. -/
def decodeByte (b : Byte) (s : State) : Host.Outcome State Fault Refusal :=
  match decodeStepCore b (startOp s) with
  | .ok (t, r) => .next (ret (frameResult r) t)
  | .error f => .fault f

/-- `feed [b0 ... bn]` (R64): one `decode_step` per byte, collecting every frame in order. -/
def feedCore : List Byte → State → Except Fault (State × List Frame)
  | [], s => pure (s, [])
  | b :: bs, s => do
    let (s, r) ← decodeStepCore b s
    let (s, fs) ← feedCore bs s
    pure (s, r.toList ++ fs)

/-- A whole `feed`. -/
def feed (bytes : List Byte) (s : State) : Host.Outcome State Fault Refusal :=
  match feedCore bytes (startOp s) with
  | .ok (t, fs) => .next (ret (.frames fs) t)
  | .error f => .fault f

end Sys2Proof.Machine
end

