-- ==== Sys2Proof/Machine/DecodeOps.lean ====
section
/-! DEFINITION. The operations of format OP that receive: `decode_step` (spec/42_decode.md R150) and `read` (spec/43_read.md
R164). -/

namespace Sys2Proof.Machine

/-- `decode_step(b)` (R150). -/
def execDecodeStep (b : Byte) (s : State) : Host.Outcome State Fault Refusal :=
  decodeByte b s

/-- What `read` does once its decode step has run (R161 to R163): no frame is a failure; a frame that does not fit is lost; a
frame that fits is copied. -/
def readFrame (destCapacity : Nat) : FrameResult → State → State
  | none, s => ret .failure s
  | some f, s =>
    if destTooSmall f.length destCapacity then raiseEvent (.destSmall f.length destCapacity) s
    else ret .success (copyToDest f.payload s)

/-- `read(b, dest, dest_capacity)` (R164). -/
def execRead (b : Byte) (destCapacity : Nat) (s : State) : Host.Outcome State Fault Refusal :=
  match decodeStepCore b (startOp s) with
  | .ok (t, r) => .next (readFrame destCapacity r t)
  | .error f => .fault f

end Sys2Proof.Machine
end

