-- ==== Sys2Proof/Machine/EncodeOps.lean ====
section
/-! DEFINITION. The encode path: the operation `encode` (spec/41_encode.md R108) and the encoder's output forms of format ESC
(spec/30_encoding.md R54, R103). -/

namespace Sys2Proof.Machine

/-- The emission of R108: the four raw preamble bytes, then each byte of `H ‖ payload ‖ C`, escaped. -/
def emitFrame (flags length : U16) (payload : List Byte) (s : State) : State :=
  txEscapedAll
    (headerBytes flags length ++ payload ++ bytesLE32 (frameCrc (headerBytes flags length) payload))
    (txBytes [0x55#8, 0xAA#8, 0x55#8, 0xAA#8] s)

/-- `encode(flags, payload, length)` (R108). A payload of another size than `length` is no operation (R100, D15). -/
def execEncode (flags length : U16) (payload : List Byte) (s : State) : Host.Outcome State Fault Refusal :=
  if payload.length ≠ length.toNat then .refused .payloadNotLength
  else if oversize length s.cap then .next (raiseEvent (.oversize length) (startOp s))
  else .next (ret .success (emitFrame flags length payload (startOp s)))

/-- `tx.esc_flag`: ESCAPE, FLAG (R54). -/
def execTxEscFlag (s : State) : Host.Outcome State Fault Refusal :=
  .next (txBytes [Config.escape, Config.flag] (startOp s))

/-- `tx.esc_escape`: ESCAPE, ESCAPE (R54). -/
def execTxEscEscape (s : State) : Host.Outcome State Fault Refusal :=
  .next (txBytes [Config.escape, Config.escape] (startOp s))

/-- `tx.verbatim`: the byte itself (R54); a byte that the row excludes goes out as the row that takes it says (log entry 11). -/
def execTxVerbatim (x : Byte) (s : State) : Host.Outcome State Fault Refusal :=
  .next (txEscaped x (startOp s))

/-- `tx.preamble`: the four preamble bytes, never escaped (R103, R56). -/
def execTxPreamble (s : State) : Host.Outcome State Fault Refusal :=
  .next (txBytes preambleBytes (startOp s))

end Sys2Proof.Machine
end

