-- ==== Sys2Proof/Machine/Unassigned.lean ====
section
/-! DEFINITION. The three select codes that are no operation (spec/30_encoding.md R62: "not assigned; a model refuses them";
spec/93_implementation_defined.md U11). -/

namespace Sys2Proof.Machine

/-- Select 101 (R62). -/
def execOpUnassigned101 (_s : State) : Host.Outcome State Fault Refusal := .refused (.unassignedSelect 0b101#3)

/-- Select 110 (R62). -/
def execOpUnassigned110 (_s : State) : Host.Outcome State Fault Refusal := .refused (.unassignedSelect 0b110#3)

/-- Select 111 (R62). -/
def execOpUnassigned111 (_s : State) : Host.Outcome State Fault Refusal := .refused (.unassignedSelect 0b111#3)

end Sys2Proof.Machine
end

