-- ==== Sys2Proof/Machine/WireOps.lean ====
section
/-! DEFINITION. The rows of formats WIRE and FRAME: what the decoder does with the wire symbols it distinguishes
(spec/30_encoding.md R57). A one-byte row has its effect, from its own rule, where its selecting condition holds; elsewhere the
decoder's registers select another row for the byte, and `decode_step` says which (log entry 9). A row of several bytes is their
arrival, one `decode_step` per wire byte (R64 `feed`; log entry 10). -/

namespace Sys2Proof.Machine

/-! ### The selecting conditions of R57 -/

/-- The decoder is in SeekingPreamble with the flag clear. -/
def inSeek (s : State) : Bool := decide (s.state = .seekingPreamble) && !s.unescaping

/-- The decoder is in ReadingHeader or ReadingBody with the flag as given. -/
def inFrame (flag : Bool) (s : State) : Bool := decide (s.state ≠ .seekingPreamble) && (s.unescaping == flag)

/-- What the append of a raw byte makes of the window. -/
inductive SeekVerdict where
  | matched
  | full
  | keep
  deriving DecidableEq, Repr

/-- The verdict on a raw byte (R126 before R127 before R128); `none` where the append or a read would fault. -/
def seekVerdict (b : Byte) (s : State) : Option SeekVerdict :=
  match append b s with
  | .ok s1 =>
    match preambleSeen s1 with
    | .ok true => some .matched
    | .ok false => if s1.cursor = s1.cap then some .full else some .keep
    | .error _ => none
  | .error _ => none

/-- The byte completes the preamble in the window: the row `rx.preamble`. -/
def rowPreamble (b : Byte) (s : State) : Bool := inSeek s && decide (seekVerdict b s = some .matched)

/-- The row `rx.seek_raw`: no match and `cursor < CAP` after the append. -/
def rowSeekRaw (b : Byte) (s : State) : Bool := inSeek s && decide (seekVerdict b s = some .keep)

/-- The row `rx.seek_raw_full`: no match and `cursor = CAP` after the append. -/
def rowSeekRawFull (b : Byte) (s : State) : Bool := inSeek s && decide (seekVerdict b s = some .full)

/-- The row `rx.escape_prefix`. -/
def rowEscapePrefix (b : Byte) (s : State) : Bool := inFrame false s && (b == Config.escape)

/-- The row `rx.literal`. -/
def rowLiteral (b : Byte) (s : State) : Bool := inFrame false s && (b != Config.escape)

/-- The row `rx.escaped`. -/
def rowEscaped (_b : Byte) (s : State) : Bool := inFrame true s

/-! ### One-byte rows -/

/-- The outcome of a row that yields no frame by itself. -/
def quiet (r : Except Fault State) : Host.Outcome State Fault Refusal :=
  match r with
  | .ok t => .next (ret .noFrame t)
  | .error f => .fault f

/-- A logical byte arrives: appended, then the test of the header or of the body (R124, then R135 or R145). -/
def logicalByte (b : Byte) (s : State) : Except Fault (State × FrameResult) := do
  let s ← append b s
  stateLogic s

/-- The outcome of a row that delivers a logical byte. -/
def delivered (r : Except Fault (State × FrameResult)) : Host.Outcome State Fault Refusal :=
  match r with
  | .ok (t, fr) => .next (ret (frameResult fr) t)
  | .error f => .fault f

/-- `rx.seek_raw` (R128): the byte is appended and nothing else happens. -/
def execRxSeekRaw (b : Byte) (s : State) : Host.Outcome State Fault Refusal :=
  if rowSeekRaw b s then quiet (append b (takeRx (startOp s))) else decodeByte b s

/-- `rx.seek_raw_full` (R127): the byte is appended, then the last four move to the front. -/
def execRxSeekRawFull (b : Byte) (s : State) : Host.Outcome State Fault Refusal :=
  if rowSeekRawFull b s then
    quiet (do
      let t ← append b (takeRx (startOp s))
      shiftWindow t)
  else decodeByte b s

/-- `rx.escape_prefix` (R122): the marker is stored and the call ends; no completion test. -/
def execRxEscapePrefix (s : State) : Host.Outcome State Fault Refusal :=
  if rowEscapePrefix Config.escape s then quiet (storeMarker (takeRx (startOp s))) else decodeByte Config.escape s

/-- `rx.literal` (R124): the logical byte is appended; then R135 or R145. -/
def execRxLiteral (b : Byte) (s : State) : Host.Outcome State Fault Refusal :=
  if rowLiteral b s then delivered (logicalByte b (takeRx (startOp s))) else decodeByte b s

/-- `rx.escaped` (R121): the marker slot is taken back and the logical byte written over it; then R135 or R145. Any byte is
accepted (R58). -/
def execRxEscaped (b : Byte) (s : State) : Host.Outcome State Fault Refusal :=
  if rowEscaped b s then
    delivered (do
      let t ← stepBack (takeRx (startOp s))
      logicalByte b t)
  else decodeByte b s

/-! ### Rows of several bytes -/

/-- `rx.preamble` (R126): the four raw bytes `55 AA 55 AA` arrive. -/
def execRxPreamble (s : State) : Host.Outcome State Fault Refusal :=
  feed preambleBytes s

/-- `rx.pair` (R123): `1B` and then `x` arrive. -/
def execRxPair (x : Byte) (s : State) : Host.Outcome State Fault Refusal :=
  feed [Config.escape, x] s

/-- `rx.header_complete` (R135 to R139): the five logical header bytes arrive, escaped as the wire carries them (R56). -/
def execRxHeaderComplete (flags length : U16) (hcs : Byte) (s : State) : Host.Outcome State Fault Refusal :=
  feed (escBytes (bytesLE16 flags ++ bytesLE16 length ++ [hcs])) s

/-- `rx.body_complete` (R145 to R149): the logical payload and CRC bytes arrive, escaped as the wire carries them (R56). -/
def execRxBodyComplete (payload : List Byte) (crc : U32) (s : State) : Host.Outcome State Fault Refusal :=
  feed (escBytes (payload ++ bytesLE32 crc)) s

/-- `frame` (R51, R56): a whole frame arrives. A payload of another size than `length` is no frame (R51). -/
def execFrame (flags length : U16) (payload : List Byte) (s : State) : Host.Outcome State Fault Refusal :=
  if payload.length ≠ length.toNat then .refused .payloadNotLength
  else feed (wireFrame flags length payload) s

end Sys2Proof.Machine
end

