-- ==== Sys2Proof/Machine/Dispatch.lean ====
section
/-! DEFINITION. One arm per row of spec/opcode_table.json. -/

namespace Sys2Proof.Machine

def exec (i : Instr) (s : State) : Host.Outcome State Fault Refusal :=
  match i with
  -- format OP
  | .crc32 seed data => Sys2Proof.Machine.execCrc32 seed data s
  | .headerChecksum flags length => Sys2Proof.Machine.execHeaderChecksum flags length s
  | .encode flags length payload => Sys2Proof.Machine.execEncode flags length payload s
  | .decodeStep b => Sys2Proof.Machine.execDecodeStep b s
  | .read b destCapacity => Sys2Proof.Machine.execRead b destCapacity s
  | .opUnassigned101 => Sys2Proof.Machine.execOpUnassigned101 s
  | .opUnassigned110 => Sys2Proof.Machine.execOpUnassigned110 s
  | .opUnassigned111 => Sys2Proof.Machine.execOpUnassigned111 s
  -- format WIRE
  | .rxPreamble => Sys2Proof.Machine.execRxPreamble s
  | .rxSeekRaw b => Sys2Proof.Machine.execRxSeekRaw b s
  | .rxSeekRawFull b => Sys2Proof.Machine.execRxSeekRawFull b s
  | .rxEscapePrefix => Sys2Proof.Machine.execRxEscapePrefix s
  | .rxLiteral b => Sys2Proof.Machine.execRxLiteral b s
  | .rxEscaped b => Sys2Proof.Machine.execRxEscaped b s
  | .rxPair x => Sys2Proof.Machine.execRxPair x s
  | .rxHeaderComplete flags length hcs => Sys2Proof.Machine.execRxHeaderComplete flags length hcs s
  | .rxBodyComplete payload crc => Sys2Proof.Machine.execRxBodyComplete payload crc s
  -- format ESC
  | .txEscFlag => Sys2Proof.Machine.execTxEscFlag s
  | .txEscEscape => Sys2Proof.Machine.execTxEscEscape s
  | .txVerbatim x => Sys2Proof.Machine.execTxVerbatim x s
  | .txPreamble => Sys2Proof.Machine.execTxPreamble s
  -- format FRAME
  | .frame flags length payload => Sys2Proof.Machine.execFrame flags length payload s

end Sys2Proof.Machine
end

