-- ==== Sys2Proof/Machine/Step.lean ====
section
/-! DEFINITION. One step of the machine: the host's oldest request is performed (spec/00_scope.md R5); with none the engine rests
(spec/70_reset_and_hazards.md R213). -/

namespace Sys2Proof.Machine

/-- One step (log entry 6). -/
def step (s : State) : Host.Outcome State Fault Refusal :=
  match fetch s with
  | .idle => .next s
  | .instr i t => exec i t
  | .bad e => .refused (.undecodable e)

/-- The state with a word of the opcode table as the host's oldest request (log entries 6 and 8). -/
def State.withFetchWord (s : State) (nbits w : Nat) : State :=
  { s with pending := requestOfTable nbits w :: s.pending }

end Sys2Proof.Machine
end

