-- ==== Sys2Proof/Safety.lean ====
section
/-! DEFINITION. What counts as a safe state, and the terms the claims use (spec/10_state.md R20, R21; spec/20_memory.md R35,
R36, R38). -/

namespace Sys2Proof.Machine

/-! ### Reading the scratch buffer in a claim -/

/-- The byte at a scratch index: what `bufRead` answers in range. -/
def State.byteAt (s : State) (i : Nat) : Byte := s.buf.byte i

/-- `L`, the length field in the scratch buffer (R21, R36). -/
def State.lengthField (s : State) : U16 := le16 (s.byteAt 2) (s.byteAt 3)

/-- The flags field in the scratch buffer (R36). -/
def State.flagsField (s : State) : U16 := le16 (s.byteAt 0) (s.byteAt 1)

/-- The bytes `buf[i .. i+n)`. -/
def State.bytesAt (s : State) (i n : Nat) : List Byte := (List.range n).map (fun k => s.byteAt (i + k))

/-- The header in the scratch buffer passes both tests (R136, R137). -/
def State.HeaderAccepted (s : State) : Prop :=
  headerChecksum s.flagsField s.lengthField = s.byteAt 4 ∧ s.lengthField.toNat + 10 ≤ s.cap

/-! ### The invariant of R20 and R21 -/

/-- What holds of an instance between two operations (R20, R21), with the canonical form of the two memories. -/
structure State.Inv (s : State) : Prop where
  /-- R3: the instance was buildable. -/
  capacity : 10 ≤ s.cap
  /-- The scratch buffer is in canonical form. -/
  bufCanonical : s.buf.wf = true
  /-- R35: the buffer lists no byte outside `0 .. CAP-1`. -/
  bufInRange : ∀ c ∈ s.buf, c.1 < s.cap
  /-- The host's buffer is in canonical form. -/
  destCanonical : s.dest.wf = true
  /-- R38: every byte below the cursor has been written, so none of them is the buffer's initial contents. -/
  written : ∀ i, i < s.cursor → (s.buf.read i).isSome = true
  /-- R21, first row, and R14. -/
  seeking : s.state = .seekingPreamble → s.unescaping = false ∧ s.cursor < s.cap
  /-- R21, second row. -/
  header : s.state = .readingHeader → s.unescaping = false → s.cursor ≤ 4
  /-- R21, third row. -/
  headerMarked : s.state = .readingHeader → s.unescaping = true → 1 ≤ s.cursor ∧ s.cursor ≤ 5
  /-- R21, fourth row. -/
  body : s.state = .readingBody → s.unescaping = false → 5 ≤ s.cursor ∧ s.cursor ≤ 8 + s.lengthField.toNat
  /-- R21, fifth row. -/
  bodyMarked : s.state = .readingBody → s.unescaping = true → 6 ≤ s.cursor ∧ s.cursor ≤ 9 + s.lengthField.toNat
  /-- R21: in ReadingBody the buffer begins with an accepted header. -/
  accepted : s.state = .readingBody → s.HeaderAccepted
  /-- R20 item 2: while the flag is set the marker stands below the cursor. -/
  marker : s.unescaping = true → s.buf.read (s.cursor - 1) = some Config.escape

/-! ### Frames: what an operation leaves alone -/

/-- The host's and the transport's side, with the capacity, is as before. -/
def SameOutside (s t : State) : Prop :=
  t.cap = s.cap ∧ t.tx = s.tx ∧ t.dest = s.dest ∧ t.pending = s.pending

/-- The decoder's registers, its buffer, its capacity and the receive position are as before. -/
def SameDecoder (s t : State) : Prop :=
  t.cap = s.cap ∧ t.state = s.state ∧ t.cursor = s.cursor ∧ t.unescaping = s.unescaping ∧ t.buf = s.buf ∧ t.rxPos = s.rxPos

/-- The scratch index a received byte is written at: the marker slot while the flag is set, else the cursor (R121, R124). -/
def State.writeIndex (s : State) : Nat := if s.unescaping then s.cursor - 1 else s.cursor

/-! ### The symbols of the receive side in a claim -/

/-- `b` arrives as a logical byte of a frame: with the flag clear any byte but ESCAPE, with the flag set any byte (R57). -/
def State.takesLogical (s : State) (b : Byte) : Prop :=
  s.state ≠ .seekingPreamble ∧ (s.unescaping = true ∨ b ≠ Config.escape)

/-- How many logical bytes of the frame the buffer holds: the marker does not count (R21, R55). -/
def State.logicalCount (s : State) : Nat := s.writeIndex

/-- The raw byte `b` completes the preamble in the window (R126). -/
def State.completesPreamble (s : State) (b : Byte) : Prop :=
  3 ≤ s.cursor ∧ s.byteAt (s.cursor - 3) = 0x55#8 ∧ s.byteAt (s.cursor - 2) = 0xAA#8 ∧ s.byteAt (s.cursor - 1) = 0x55#8
    ∧ b = 0xAA#8

/-- `b` is the last logical byte of the frame being received (R145). -/
def State.completesFrame (s : State) (b : Byte) : Prop :=
  s.state = .readingBody ∧ s.takesLogical b ∧ s.logicalCount = 8 + s.lengthField.toNat

/-- The frame the buffer holds (R148). -/
def State.bufferedFrame (s : State) : Frame := ⟨s.flagsField, s.lengthField, s.bytesAt 5 s.lengthField.toNat⟩

/-- The received CRC, its last byte being `b` (R146). -/
def State.receivedCrc (s : State) (b : Byte) : U32 :=
  le32 (s.byteAt (5 + s.lengthField.toNat)) (s.byteAt (6 + s.lengthField.toNat)) (s.byteAt (7 + s.lengthField.toNat)) b

/-- The CRC recomputed over the buffered header and payload (R146). -/
def State.computedCrc (s : State) : U32 := frameCrc (s.bytesAt 0 5) (s.bytesAt 5 s.lengthField.toNat)

/-! ### Runs -/

/-- One `decode_step` operation per byte, in order (R64 `feed`, as separate operations). -/
def decodeAll : List Byte → State → Host.Outcome State Fault Refusal
  | [], s => .next s
  | b :: bs, s =>
    match exec (.decodeStep b) s with
    | .next t => decodeAll bs t
    | .fault f => .fault f
    | .refused r => .refused r

/-- One operation per instruction, in order. -/
def execAll : List Instr → State → Host.Outcome State Fault Refusal
  | [], s => .next s
  | i :: is, s =>
    match exec i s with
    | .next t => execAll is t
    | .fault f => .fault f
    | .refused r => .refused r

/-! ### Classes of instructions -/

/-- The select codes that are no operation (R62). -/
def unassigned : Instr → Bool
  | .opUnassigned101 | .opUnassigned110 | .opUnassigned111 => true
  | _ => false

/-- The instructions that receive: `decode_step`, `read`, and the symbols and frames of the receive side (R11, R31). -/
def receives : Instr → Bool
  | .decodeStep _ | .read _ _ | .rxPreamble | .rxSeekRaw _ | .rxSeekRawFull _ | .rxEscapePrefix | .rxLiteral _ | .rxEscaped _
  | .rxPair _ | .rxHeaderComplete _ _ _ | .rxBodyComplete _ _ | .frame _ _ _ => true
  | _ => false

/-- The instructions that transmit: `encode` and the encoder's output forms (R17, R103). -/
def transmits : Instr → Bool
  | .encode _ _ _ | .txEscFlag | .txEscEscape | .txVerbatim _ | .txPreamble => true
  | _ => false

/-- The instruction that writes the host's buffer (R18). -/
def copies : Instr → Bool
  | .read _ _ => true
  | _ => false

/-- The row of format ESC that takes a logical byte (R54). -/
def escRow (x : Byte) : Instr :=
  if x = Config.flag then .txEscFlag else if x = Config.escape then .txEscEscape else .txVerbatim x

end Sys2Proof.Machine
end

