-- ==== Sys2Proof/Certificates/Slice0/Obligations.lean ====
section
/-! DEFINITION. The statements for the provers. `result` and `events` are the model's own fields (log entries 12 and 13): a clause on
`result` says what the operation returns, a clause on `events` says which `raise E(info)` of the rule is taken. -/

open Sys2Proof Sys2Proof.Machine

/-! ### Construction, steps, encodings -/

/-- R3, R23, R200: what construction leaves, and that it refuses a capacity below 10. `cursor = 0` and `unescaping = false` are the
spec's decision D5 (log entry 3); that the scratch buffer's initial contents are an argument, and any byte where none is given, is its
decision D6 (log entry 4); the capacity of `State.reset` is the model's choice (log entry 2). -/
def Obligations.ConstructionLeavesResetState : Prop :=
  (∀ (cap : Nat) (contents : List Byte), cap < 10 ∨ cap < contents.length → State.construct cap contents = none) ∧
  (∀ (cap : Nat) (contents : List Byte), 10 ≤ cap → contents.length ≤ cap →
    ∃ s, State.construct cap contents = some s ∧ s.Inv ∧ s.cap = cap ∧ s.state = .seekingPreamble ∧
      s.cursor = 0 ∧ s.unescaping = false ∧ s.tx = [] ∧ s.rxPos = 0 ∧
      (∀ i, i < cap → bufRead i s = .ok (contents.getD i (Config.initialByte i)))) ∧
  State.reset.Inv ∧ State.construct State.reset.cap [] = some State.reset

/-- R5: a step performs the host's oldest request: the decoded instruction, on the state with the request taken off; with no
request the engine rests (R213; log entry 6); a request that decodes to nothing is refused by name. A word of the opcode table
stored by `withFetchWord` is that oldest request (log entry 8). -/
def Obligations.StepPerformsOldestRequest : Prop :=
  (∀ s r rest i, s.pending = r :: rest → decode r = .ok i → step s = exec i { s with pending := rest }) ∧
  (∀ s r rest e, s.pending = r :: rest → decode r = .error e → step s = .refused (.undecodable e)) ∧
  (∀ s, s.pending = [] → step s = .next s) ∧
  (∀ s nbits w i, decodeTableWord nbits w = some i → step (s.withFetchWord nbits w) = exec i s)

/-- Words written out from the table's patterns decode to the rows they stand for (R51, R54, R57, R62; the reference vector of
95_test_vectors.md section 1.1 for `frame`). -/
def Obligations.TableWordsDecode : Prop :=
  decode ⟨.op, [0x00#8, 0x4C#8, 0xEB#8, 0xF3#8, 0xE7#8, 0x10#8, 0xAA#8, 0x1B#8]⟩
      = .ok (.crc32 0xE7F3EB4C#32 [0x10#8, 0xAA#8, 0x1B#8]) ∧
  decode ⟨.op, [0x01#8, 0x34#8, 0x12#8, 0x03#8, 0x00#8]⟩ = .ok (.headerChecksum 0x1234#16 0x0003#16) ∧
  decode ⟨.op, [0x02#8, 0x00#8, 0x00#8, 0x01#8, 0x00#8, 0x26#8]⟩ = .ok (.encode 0#16 1#16 [0x26#8]) ∧
  decode ⟨.op, [0x03#8, 0x22#8]⟩ = .ok (.decodeStep 0x22#8) ∧
  decode ⟨.op, [0x04#8, 0x22#8, 0x2C#8, 0x01#8]⟩ = .ok (.read 0x22#8 300) ∧
  decodeTableWord 8 0x5 = some .opUnassigned101 ∧
  decodeTableWord 16 0x1BAA = some .txEscFlag ∧
  decodeTableWord 16 0x1B1B = some .txEscEscape ∧
  decodeTableWord 16 0x1B10 = some (.rxPair 0x10#8) ∧
  decodeTableWord 8 0x1B = some .rxEscapePrefix ∧
  decodeTableWord 40 0x3412030025 = some (.rxHeaderComplete 0x1234#16 0x0003#16 0x25#8) ∧
  decode ⟨.wire .seeking, [0x55#8, 0xAA#8, 0x55#8, 0xAA#8]⟩ = .ok .rxPreamble ∧
  decode ⟨.frame, [0x55#8, 0xAA#8, 0x55#8, 0xAA#8, 0x34#8, 0x12#8, 0x03#8, 0x00#8, 0x25#8, 0x10#8, 0x1B#8, 0xAA#8, 0x1B#8, 0x1B#8,
      0x3D#8, 0xC3#8, 0x15#8, 0x22#8]⟩ = .ok (.frame 0x1234#16 0x0003#16 [0x10#8, 0xAA#8, 0x1B#8])

/-- Every well-formed instruction is read back from its words, with every operand (R51, R54, R57, R62, R63). -/
def Obligations.DecodeOfEncodeIsIdentity : Prop :=
  ∀ i : Instr, i.wellFormed = true → decode (encode i) = .ok i

/-- The other direction: what the decoder reads is well formed and has exactly those words, so no word has two readings in its
format and context, and no reserved form is read. -/
def Obligations.DecodedRequestsReencode : Prop :=
  ∀ (r : Request) (i : Instr), decode r = .ok i → i.wellFormed = true ∧ encode i = r

/-! ### The machine as a whole -/

/-- R176, R35: from every state that meets the invariant, every well-formed instruction that is an operation completes: no access
leaves the buffer, nothing halts the engine. -/
def Obligations.EveryOperationCompletes : Prop :=
  ∀ (s : State) (i : Instr), s.Inv → i.wellFormed = true → unassigned i = false → ∃ t, exec i s = .next t

/-- R20, R21: every step keeps the invariant, from every state that meets it. -/
def Obligations.StepKeepsInvariant : Prop :=
  ∀ s t : State, s.Inv → step s = .next t → t.Inv

/-- R176 ("There is no fault state, no stuck state"): no step from a state that meets the invariant faults, whatever the host has
issued. -/
def Obligations.NoStepFaults : Prop :=
  ∀ (s : State) (f : Fault), s.Inv → step s ≠ .fault f

/-- Which instructions write what. The decoder's registers, its buffer and the receive position change only under an instruction
that receives, `tx` only (by appending) under one that transmits, `dest` only under `read`; the capacity and the host's further
requests never. For the five operations this is R11, R17, R18, R30 and R46. The model's choice is that the rows of format ESC are
instructions that transmit (log entry 11) and the rows of formats WIRE and FRAME instructions that receive (log entries 9 and 10). -/
def Obligations.StateWrittenOnlyByItsWriters : Prop :=
  ∀ (i : Instr) (s t : State), exec i s = .next t →
    t.cap = s.cap ∧ t.pending = s.pending ∧ s.tx <+: t.tx ∧
    (receives i = false → SameDecoder s t) ∧
    (transmits i = false → t.tx = s.tx) ∧
    (copies i = false → t.dest = s.dest)

/-- R62: the select codes are those of the table (the spec's decision D18), and the three that are not assigned are refused. The
layout of the operand bytes behind the select is the model's (log entry 7). -/
def Obligations.SelectCodesAsAssigned : Prop :=
  (∀ seed data, ∃ ops, encode (.crc32 seed data) = ⟨.op, 0x00#8 :: ops⟩) ∧
  (∀ flags length, ∃ ops, encode (.headerChecksum flags length) = ⟨.op, 0x01#8 :: ops⟩) ∧
  (∀ flags length payload, ∃ ops, encode (.encode flags length payload) = ⟨.op, 0x02#8 :: ops⟩) ∧
  (∀ b, ∃ ops, encode (.decodeStep b) = ⟨.op, 0x03#8 :: ops⟩) ∧
  (∀ b n, ∃ ops, encode (.read b n) = ⟨.op, 0x04#8 :: ops⟩) ∧
  (∀ (s : State) (rest : List Request), step { s with pending := ⟨.op, [0x05#8]⟩ :: rest } = .refused (.unassignedSelect 0b101#3)) ∧
  (∀ (s : State) (rest : List Request), step { s with pending := ⟨.op, [0x06#8]⟩ :: rest } = .refused (.unassignedSelect 0b110#3)) ∧
  (∀ (s : State) (rest : List Request), step { s with pending := ⟨.op, [0x07#8]⟩ :: rest } = .refused (.unassignedSelect 0b111#3)) ∧
  (∀ s, exec .opUnassigned101 s = .refused (.unassignedSelect 0b101#3) ∧
    exec .opUnassigned110 s = .refused (.unassignedSelect 0b110#3) ∧
    exec .opUnassigned111 s = .refused (.unassignedSelect 0b111#3))

/-! ### The Checksum Engine -/

/-- R81 with R82: `crc32` completes with the running value after the data's bits, each byte bit 0 first, one bit per shift; it
changes nothing else (R89). -/
def Obligations.CrcIsBitSerial : Prop :=
  ∀ (seed : U32) (data : List Byte) (s : State),
    exec (.crc32 seed data) s = .next { s with
      result := .crc ((data.flatMap fun d => (List.range 8).map d.getLsbD).foldl
        (fun c x => if c.getLsbD 0 != x then (c >>> 1) ^^^ 0xEDB88320#32 else c >>> 1) seed),
      events := [] }

/-- R81 with the byte step of R80 written out: the byte enters at bits 7..0, then eight shifts to the right, feedback from bit 0;
the bytes in ascending order, the raw running value is the result, and nothing else changes (R89). -/
def Obligations.CrcByteSteps : Prop :=
  ∀ (seed : U32) (data : List Byte) (s : State),
    exec (.crc32 seed data) s = .next { s with
      result := .crc (data.foldl (fun c d => (List.range 8).foldl
        (fun c _ => if c.getLsbD 0 = true then (c >>> 1) ^^^ 0xEDB88320#32 else c >>> 1) (c ^^^ d.setWidth 32)) seed),
      events := [] }

/-- R83: two chained evaluations return what one evaluation of the concatenation returns. -/
def Obligations.CrcComposes : Prop :=
  ∀ (seed : U32) (a b : List Byte) (s : State),
    ∃ t u w v, exec (.crc32 seed a) s = .next t ∧ t.result = .crc v ∧ exec (.crc32 v b) t = .next u ∧
      exec (.crc32 seed (a ++ b)) s = .next w ∧ u.result = w.result

/-- R85 items 1, 2 and 4: linearity over XOR, zero-blindness with seed 0, the pure shift. -/
def Obligations.CrcLinearAndZeroBlind : Prop :=
  (∀ (s t : U32) (a b : List Byte), a.length = b.length →
    crc32 (s ^^^ t) (List.zipWith (· ^^^ ·) a b) = crc32 s a ^^^ crc32 t b) ∧
  (∀ (n : Nat) (a : List Byte), crc32 0#32 (List.replicate n 0#8) = 0#32 ∧
    crc32 0#32 (List.replicate n 0#8 ++ a) = crc32 0#32 a) ∧
  (∀ (s : U32) (d : Byte), s.extractLsb' 0 8 = d → crc32 s [d] = s >>> 8)

/-- R85 item 3: the decoder's comparison is equivalent to a zero residue over data and CRC bytes. -/
def Obligations.CrcZeroResidue : Prop :=
  ∀ (seed : U32) (data : List Byte) (c0 c1 c2 c3 : Byte),
    crc32 seed (data ++ [c0, c1, c2, c3]) = 0#32 ↔ le32 c0 c1 c2 c3 = crc32 seed data

/-- R86: `header_checksum` completes with the XOR of the four bytes, said bit by bit, and changes nothing else. -/
def Obligations.HeaderChecksumIsXorOfBytes : Prop :=
  ∀ (flags length : U16) (s : State), ∃ v : Byte,
    exec (.headerChecksum flags length) s = .next { s with result := .checksum v, events := [] } ∧
    ∀ k, k < 8 → v.getLsbD k =
      ((flags.getLsbD k ^^ flags.getLsbD (k + 8)) ^^ (length.getLsbD k ^^ length.getLsbD (k + 8)))

/-! ### The encode path -/

/-- R101 to R104: on success `encode` appends the raw preamble, then every byte of header, payload and CRC, escaped; the header
checksum and the CRC are of the unescaped bytes; nothing else changes (R105). -/
def Obligations.EncodeAppendsWholeFrame : Prop :=
  ∀ (flags length : U16) (payload : List Byte) (s : State), payload.length = length.toNat → length.toNat ≤ s.cap →
    ∃ (h c : List Byte) (hc : Byte) (crc : U32),
      hc = (flags.extractLsb' 0 8 ^^^ flags.extractLsb' 8 8) ^^^ (length.extractLsb' 0 8 ^^^ length.extractLsb' 8 8) ∧
      h = [flags.extractLsb' 0 8, flags.extractLsb' 8 8, length.extractLsb' 0 8, length.extractLsb' 8 8, hc] ∧
      crc = crc32 (crc32 0#32 h) payload ∧
      c = [crc.extractLsb' 0 8, crc.extractLsb' 8 8, crc.extractLsb' 16 8, crc.extractLsb' 24 8] ∧
      exec (.encode flags length payload) s = .next { s with
        tx := s.tx ++ [0x55#8, 0xAA#8, 0x55#8, 0xAA#8] ++
          (h ++ payload ++ c).flatMap (fun x => if x = 0xAA#8 ∨ x = 0x1B#8 then [0x1B#8, x] else [x]),
        result := .success, events := [] }

/-- R171: an oversize `encode` fails with nothing written and no state changed. -/
def Obligations.OversizeEncodeWritesNothing : Prop :=
  ∀ (flags length : U16) (payload : List Byte) (s : State), payload.length = length.toNat → s.cap < length.toNat →
    exec (.encode flags length payload) s = .next { s with result := .failure, events := [.oversize length] }

/-- D15, U8: a payload of another size than `length` is no operation and no frame; the model refuses it by name (log entry 18). -/
def Obligations.PayloadOfOtherLengthRefused : Prop :=
  ∀ (flags length : U16) (payload : List Byte) (s : State), payload.length ≠ length.toNat →
    exec (.encode flags length payload) s = .refused .payloadNotLength ∧
    exec (.frame flags length payload) s = .refused .payloadNotLength

/-- R106: the number of bytes one `encode` appends, and its bound `21 + 2 * length`. -/
def Obligations.EncodedLengthBounded : Prop :=
  ∀ (flags length : U16) (payload : List Byte) (s : State), payload.length = length.toNat → length.toNat ≤ s.cap →
    ∃ t, exec (.encode flags length payload) s = .next t ∧
      t.tx.length = s.tx.length + 4 + (9 + length.toNat)
        + (logicalFrame flags length payload).countP (fun x => x == 0xAA#8 || x == 0x1B#8) ∧
      t.tx.length ≤ s.tx.length + 21 + 2 * length.toNat

/-- R209: a stream made only of encoded frames contains the preamble nowhere but at the start of a frame. -/
def Obligations.EncodedStreamHasOnlyTruePreambles : Prop :=
  ∀ (fs : List (U16 × U16 × List Byte)) (pre post : List Byte),
    fs.flatMap (fun f => wireFrame f.1 f.2.1 f.2.2) = pre ++ [0x55#8, 0xAA#8, 0x55#8, 0xAA#8] ++ post →
    ∃ n, n < fs.length ∧ pre = (fs.take n).flatMap (fun f => wireFrame f.1 f.2.1 f.2.2)

/-- R54, R103: each row of format ESC completes, appending its bytes to `tx` and changing nothing else. -/
def Obligations.EscRowsAppendTheirBytes : Prop :=
  ∀ s : State,
    exec .txEscFlag s = .next { s with tx := s.tx ++ [0x1B#8, 0xAA#8], events := [] } ∧
    exec .txEscEscape s = .next { s with tx := s.tx ++ [0x1B#8, 0x1B#8], events := [] } ∧
    (∀ x : Byte, x ≠ 0xAA#8 → x ≠ 0x1B#8 → exec (.txVerbatim x) s = .next { s with tx := s.tx ++ [x], events := [] }) ∧
    exec .txPreamble s = .next { s with tx := s.tx ++ [0x55#8, 0xAA#8, 0x55#8, 0xAA#8], events := [] }

/-- `encode` (R103, R104) does what the row `tx.preamble` and then, for each logical byte, the row of format ESC that takes it do.
That these rows are instructions that can run one after another is the model's choice (log entry 11). -/
def Obligations.EncodeIsItsEscRows : Prop :=
  ∀ (flags length : U16) (payload : List Byte) (s : State), payload.length = length.toNat → length.toNat ≤ s.cap →
    ∃ t, execAll (.txPreamble :: (logicalFrame flags length payload).map escRow) s = .next t ∧
      exec (.encode flags length payload) s = .next { t with result := .success }

/-! ### The decode path -/

/-- R154, R124, R121, R31: every `decode_step` completes, consumes one received byte, writes it at the write index, and leaves
every other scratch byte alone, but for the first four where the buffer fills while seeking (R127). -/
def Obligations.DecodeStepConsumesOneByte : Prop :=
  ∀ (s : State) (b : Byte), s.Inv → ∃ t, exec (.decodeStep b) s = .next t ∧ SameOutside s t ∧
    t.rxPos = s.rxPos + 1 ∧ t.buf.read s.writeIndex = some b ∧
    (∀ i, i ≠ s.writeIndex → (s.state = .seekingPreamble → s.cursor + 1 = s.cap → 4 ≤ i) → t.buf.read i = s.buf.read i) ∧
    (t.result = .noFrame ∨ ∃ f, t.result = .frame f)

/-- R122: an ESCAPE byte in a frame with the flag clear is stored as a marker and the call ends with no frame. -/
def Obligations.EscapePrefixStoresMarker : Prop :=
  ∀ (s : State) (i : Instr), (i = .decodeStep 0x1B#8 ∨ i = .rxEscapePrefix) →
    s.state ≠ .seekingPreamble → s.unescaping = false → s.cursor < s.cap →
    ∃ t, exec i s = .next t ∧ t.state = s.state ∧ t.unescaping = true ∧ t.cursor = s.cursor + 1 ∧
      t.buf.read s.cursor = some 0x1B#8 ∧ (∀ k, k ≠ s.cursor → t.buf.read k = s.buf.read k) ∧
      t.result = .noFrame ∧ t.events = [] ∧ t.rxPos = s.rxPos + 1 ∧ SameOutside s t

/-- R121, R58: the byte after an escape prefix, whatever it is, replaces the marker and clears the flag; the cursor ends where it
was, or at 0 with the decoder seeking where the byte completed a rejected header or a frame. -/
def Obligations.EscapedByteReplacesMarker : Prop :=
  ∀ (s : State) (b : Byte) (i : Instr), (i = .decodeStep b ∨ i = .rxEscaped b) →
    s.Inv → s.state ≠ .seekingPreamble → s.unescaping = true →
    ∃ t, exec i s = .next t ∧ t.unescaping = false ∧ t.buf.read (s.cursor - 1) = some b ∧
      (∀ k, k ≠ s.cursor - 1 → t.buf.read k = s.buf.read k) ∧ t.rxPos = s.rxPos + 1 ∧ SameOutside s t ∧
      ((t.state ≠ .seekingPreamble ∧ t.cursor = s.cursor) ∨ (t.state = .seekingPreamble ∧ t.cursor = 0))

/-- R123, R58: `1B x` is the one logical byte `x`, for every `x`: in the buffer it leaves `x` alone, and where `x` could have been
sent as a literal the two differ only in the number of bytes received. That the row `rx.pair` is one step that returns a list of
frames is the model's choice (log entry 10). -/
def Obligations.EscapePairIsOneLogicalByte : Prop :=
  ∀ (s : State) (x : Byte), s.Inv → s.state ≠ .seekingPreamble → s.unescaping = false →
    ∃ t fs, exec (.rxPair x) s = .next t ∧ t.result = .frames fs ∧ t.unescaping = false ∧ t.rxPos = s.rxPos + 2 ∧
      t.buf.read s.cursor = some x ∧ (∀ k, k ≠ s.cursor → t.buf.read k = s.buf.read k) ∧ SameOutside s t ∧
      ((t.state ≠ .seekingPreamble ∧ t.cursor = s.cursor + 1) ∨ (t.state = .seekingPreamble ∧ t.cursor = 0)) ∧
      (x ≠ 0x1B#8 → ∃ u, exec (.rxLiteral x) s = .next u ∧ t = { u with rxPos := u.rxPos + 1, result := .frames fs } ∧
        ((u.result = .noFrame ∧ fs = []) ∨ ∃ f, u.result = .frame f ∧ fs = [f]))

/-- R124, R135, R145: a logical byte that completes neither the header nor the frame is appended and nothing else happens. -/
def Obligations.LogicalByteAccumulates : Prop :=
  ∀ (s : State) (b : Byte) (i : Instr),
    (i = .decodeStep b ∨ (i = .rxLiteral b ∧ s.unescaping = false) ∨ (i = .rxEscaped b ∧ s.unescaping = true)) →
    s.Inv → s.takesLogical b →
    (s.state = .readingHeader → s.logicalCount < 4) →
    (s.state = .readingBody → s.logicalCount < 8 + s.lengthField.toNat) →
    ∃ t, exec i s = .next t ∧ t.state = s.state ∧ t.cursor = s.logicalCount + 1 ∧ t.unescaping = false ∧
      t.buf.read s.logicalCount = some b ∧ (∀ k, k ≠ s.logicalCount → t.buf.read k = s.buf.read k) ∧
      t.result = .noFrame ∧ t.events = [] ∧ t.rxPos = s.rxPos + 1 ∧ SameOutside s t

/-- R126: the raw byte that completes the preamble moves the decoder to ReadingHeader with the cursor at 0, also where it fills
the buffer. -/
def Obligations.PreambleMatchStartsHeader : Prop :=
  ∀ (s : State) (b : Byte), s.Inv → s.state = .seekingPreamble → s.completesPreamble b →
    ∃ t, exec (.decodeStep b) s = .next t ∧ t.state = .readingHeader ∧ t.cursor = 0 ∧ t.unescaping = false ∧
      t.buf.read s.cursor = some b ∧ (∀ k, k ≠ s.cursor → t.buf.read k = s.buf.read k) ∧
      t.result = .noFrame ∧ t.events = [] ∧ t.rxPos = s.rxPos + 1 ∧ SameOutside s t

/-- R127: a raw byte that fills the buffer without completing a preamble leaves the last four bytes at the front and the cursor
at 4. -/
def Obligations.FullBufferKeepsLastFour : Prop :=
  ∀ (s : State) (b : Byte) (i : Instr), (i = .decodeStep b ∨ i = .rxSeekRawFull b) →
    s.Inv → s.state = .seekingPreamble → s.cursor + 1 = s.cap → ¬ s.completesPreamble b →
    ∃ t, exec i s = .next t ∧ t.state = .seekingPreamble ∧ t.cursor = 4 ∧ t.unescaping = false ∧
      t.buf.read 0 = s.buf.read (s.cap - 4) ∧ t.buf.read 1 = s.buf.read (s.cap - 3) ∧
      t.buf.read 2 = s.buf.read (s.cap - 2) ∧ t.buf.read 3 = some b ∧ t.buf.read (s.cap - 1) = some b ∧
      (∀ k, 4 ≤ k → k ≠ s.cap - 1 → t.buf.read k = s.buf.read k) ∧
      t.result = .noFrame ∧ t.events = [] ∧ t.rxPos = s.rxPos + 1 ∧ SameOutside s t

/-- R128: any other raw byte is appended and the search goes on; `1B` and `AA` are not special (R57). -/
def Obligations.SeekingAccumulates : Prop :=
  ∀ (s : State) (b : Byte) (i : Instr), (i = .decodeStep b ∨ i = .rxSeekRaw b) →
    s.Inv → s.state = .seekingPreamble → s.cursor + 1 < s.cap → ¬ s.completesPreamble b →
    ∃ t, exec i s = .next t ∧ t.state = .seekingPreamble ∧ t.cursor = s.cursor + 1 ∧ t.unescaping = false ∧
      t.buf.read s.cursor = some b ∧ (∀ k, k ≠ s.cursor → t.buf.read k = s.buf.read k) ∧
      t.result = .noFrame ∧ t.events = [] ∧ t.rxPos = s.rxPos + 1 ∧ SameOutside s t

/-- R126, R65 item 4: the four bytes of `rx.preamble` arriving while seeking start a header, unless the window already ends in
`55 AA`, which would complete a preamble two bytes earlier. They are written at the cursor upward, and where the window fills among
them, below index 8 as well. -/
def Obligations.PreambleRowStartsHeader : Prop :=
  ∀ s : State, s.Inv → s.state = .seekingPreamble →
    ¬ (2 ≤ s.cursor ∧ s.byteAt (s.cursor - 2) = 0x55#8 ∧ s.byteAt (s.cursor - 1) = 0xAA#8) →
    ∃ t, exec .rxPreamble s = .next t ∧ t.state = .readingHeader ∧ t.cursor = 0 ∧ t.unescaping = false ∧
      t.result = .frames [] ∧ t.events = [] ∧ t.rxPos = s.rxPos + 4 ∧ SameOutside s t ∧
      (∀ k, 8 ≤ k ∨ s.cursor + 4 ≤ s.cap → k < s.cursor ∨ s.cursor + 4 ≤ k → t.buf.read k = s.buf.read k)

/-- R129: from an empty window the decoder leaves SeekingPreamble on exactly the byte that completes the first `55 AA 55 AA` of
the stream, wherever the buffer-full shifts fall. -/
def Obligations.FirstPreambleIsFound : Prop :=
  ∀ (s : State) (bs : List Byte), s.Inv → s.state = .seekingPreamble → s.cursor = 0 →
    (¬ ([0x55#8, 0xAA#8, 0x55#8, 0xAA#8] <:+: bs) →
      ∃ t, decodeAll bs s = .next t ∧ t.state = .seekingPreamble) ∧
    (∀ b, ¬ ([0x55#8, 0xAA#8, 0x55#8, 0xAA#8] <:+: bs) → [0x55#8, 0xAA#8, 0x55#8, 0xAA#8] <:+ bs ++ [b] →
      ∃ t, decodeAll (bs ++ [b]) s = .next t ∧ t.state = .readingHeader ∧ t.cursor = 0)

/-- R136, R137, R138: the fifth logical header byte, with a good checksum and a length within the bound, moves the decoder to
ReadingBody with the cursor at 5. -/
def Obligations.GoodHeaderAccepted : Prop :=
  ∀ (s : State) (b : Byte), s.Inv → s.state = .readingHeader → s.takesLogical b → s.logicalCount = 4 →
    s.byteAt 0 ^^^ s.byteAt 1 ^^^ s.byteAt 2 ^^^ s.byteAt 3 = b → s.lengthField.toNat + 10 ≤ s.cap →
    ∃ t, exec (.decodeStep b) s = .next t ∧ t.state = .readingBody ∧ t.cursor = 5 ∧ t.unescaping = false ∧
      t.buf.read 4 = some b ∧ (∀ k, k ≠ 4 → t.buf.read k = s.buf.read k) ∧
      t.result = .noFrame ∧ t.events = [] ∧ t.rxPos = s.rxPos + 1 ∧ SameOutside s t

/-- R139, R172, R173, R178: otherwise the header is discarded: SeekingPreamble, cursor 0, no frame. The label is `E_HDR_CSUM` where
the checksum fails and `E_HDR_LEN` only where it passes: the spec's decision D16 (log entry 23). -/
def Obligations.BadHeaderDiscarded : Prop :=
  ∀ (s : State) (b : Byte), s.Inv → s.state = .readingHeader → s.takesLogical b → s.logicalCount = 4 →
    ¬ (s.byteAt 0 ^^^ s.byteAt 1 ^^^ s.byteAt 2 ^^^ s.byteAt 3 = b ∧ s.lengthField.toNat + 10 ≤ s.cap) →
    ∃ t, exec (.decodeStep b) s = .next t ∧ t.state = .seekingPreamble ∧ t.cursor = 0 ∧ t.unescaping = false ∧
      t.buf.read 4 = some b ∧ (∀ k, k ≠ 4 → t.buf.read k = s.buf.read k) ∧ t.result = .noFrame ∧
      t.events = [if s.byteAt 0 ^^^ s.byteAt 1 ^^^ s.byteAt 2 ^^^ s.byteAt 3 = b then .hdrLen else .hdrCsum] ∧
      t.rxPos = s.rxPos + 1 ∧ SameOutside s t

/-- R135 to R139 for the row `rx.header_complete`: the five logical bytes arriving at an empty header are stored at 0..4 and
judged. -/
def Obligations.HeaderRowJudged : Prop :=
  ∀ (s : State) (flags length : U16) (hcs : Byte), s.Inv → s.state = .readingHeader → s.cursor = 0 →
    ∃ t, exec (.rxHeaderComplete flags length hcs) s = .next t ∧
      t.flagsField = flags ∧ t.lengthField = length ∧ t.byteAt 4 = hcs ∧ t.unescaping = false ∧ t.result = .frames [] ∧
      (∀ k, 5 ≤ k → t.buf.read k = s.buf.read k) ∧ SameOutside s t ∧
      t.rxPos = s.rxPos + (escBytes (bytesLE16 flags ++ bytesLE16 length ++ [hcs])).length ∧
      (headerChecksum flags length = hcs ∧ length.toNat + 10 ≤ s.cap →
        t.state = .readingBody ∧ t.cursor = 5 ∧ t.events = []) ∧
      (¬ (headerChecksum flags length = hcs ∧ length.toNat + 10 ≤ s.cap) →
        t.state = .seekingPreamble ∧ t.cursor = 0 ∧
          t.events = [if headerChecksum flags length = hcs then .hdrLen else .hdrCsum])

/-- R147, R148: the last logical byte of a frame whose CRC agrees: the frame is returned, the decoder is back in SeekingPreamble
with the cursor at 0, and the buffer keeps its bytes. -/
def Obligations.GoodFrameDelivered : Prop :=
  ∀ (s : State) (b : Byte), s.Inv → s.completesFrame b → s.receivedCrc b = s.computedCrc →
    ∃ t, exec (.decodeStep b) s = .next t ∧ t.state = .seekingPreamble ∧ t.cursor = 0 ∧ t.unescaping = false ∧
      t.buf.read (8 + s.lengthField.toNat) = some b ∧
      (∀ k, k ≠ 8 + s.lengthField.toNat → t.buf.read k = s.buf.read k) ∧
      t.result = .frame s.bufferedFrame ∧ t.events = [] ∧ t.rxPos = s.rxPos + 1 ∧ SameOutside s t

/-- R147, R149, R174: a frame whose CRC disagrees is dropped silently, with the same state change. -/
def Obligations.CorruptFrameDropped : Prop :=
  ∀ (s : State) (b : Byte), s.Inv → s.completesFrame b → s.receivedCrc b ≠ s.computedCrc →
    ∃ t, exec (.decodeStep b) s = .next t ∧ t.state = .seekingPreamble ∧ t.cursor = 0 ∧ t.unescaping = false ∧
      t.buf.read (8 + s.lengthField.toNat) = some b ∧
      (∀ k, k ≠ 8 + s.lengthField.toNat → t.buf.read k = s.buf.read k) ∧
      t.result = .noFrame ∧ t.events = [.bodyCrc (s.receivedCrc b) s.computedCrc] ∧ t.rxPos = s.rxPos + 1 ∧ SameOutside s t

/-- R145 to R149 for the row `rx.body_complete`: payload and CRC arriving behind an accepted header are judged as one frame. -/
def Obligations.BodyRowJudged : Prop :=
  ∀ (s : State) (payload : List Byte) (crc : U32), s.Inv → s.state = .readingBody → s.cursor = 5 → s.unescaping = false →
    payload.length = s.lengthField.toNat →
    ∃ t, exec (.rxBodyComplete payload crc) s = .next t ∧ t.state = .seekingPreamble ∧ t.cursor = 0 ∧ t.unescaping = false ∧
      (∀ k, k < 5 ∨ 9 + payload.length ≤ k → t.buf.read k = s.buf.read k) ∧
      t.bytesAt 5 (payload.length + 4) = payload ++ bytesLE32 crc ∧ SameOutside s t ∧
      t.rxPos = s.rxPos + (escBytes (payload ++ bytesLE32 crc)).length ∧
      (crc = frameCrc (s.bytesAt 0 5) payload →
        t.result = .frames [⟨s.flagsField, s.lengthField, payload⟩] ∧ t.events = []) ∧
      (crc ≠ frameCrc (s.bytesAt 0 5) payload →
        t.result = .frames [] ∧ t.events = [.bodyCrc crc (frameCrc (s.bytesAt 0 5) payload)])

/-- The one-byte rows of format WIRE, each written from its own rule, do on every state what `decode_step` does with the byte. Where
a row's condition of R57 holds this compares the row's rule with R150; what the row's instruction does where it does not hold is
the model's choice (log entry 9). -/
def Obligations.WireRowsAgreeWithDecodeStep : Prop :=
  ∀ (s : State) (b : Byte),
    exec (.rxSeekRaw b) s = exec (.decodeStep b) s ∧
    exec (.rxSeekRawFull b) s = exec (.decodeStep b) s ∧
    exec .rxEscapePrefix s = exec (.decodeStep 0x1B#8) s ∧
    exec (.rxLiteral b) s = exec (.decodeStep b) s ∧
    exec (.rxEscaped b) s = exec (.decodeStep b) s

/-- R57: whatever byte arrives, the decoder's registers select exactly one of the six symbols. -/
def Obligations.OneWireRowPerByte : Prop :=
  ∀ (s : State) (b : Byte), s.Inv →
    [rowPreamble b s, rowSeekRaw b s, rowSeekRawFull b s, rowEscapePrefix b s, rowLiteral b s, rowEscaped b s].count true = 1

/-- R151: every transition of `state` under a `decode_step`, with the cursor after it. -/
def Obligations.TransitionsAsTabulated : Prop :=
  ∀ (s t : State) (b : Byte), s.Inv → exec (.decodeStep b) s = .next t →
    (s.state = .seekingPreamble ∧ t.result = .noFrame ∧
      ((s.completesPreamble b ∧ t.state = .readingHeader ∧ t.cursor = 0) ∨
       (¬ s.completesPreamble b ∧ s.cursor + 1 = s.cap ∧ t.state = .seekingPreamble ∧ t.cursor = 4) ∨
       (¬ s.completesPreamble b ∧ s.cursor + 1 < s.cap ∧ t.state = .seekingPreamble ∧ t.cursor = s.cursor + 1))) ∨
    (s.state = .readingHeader ∧ t.result = .noFrame ∧
      ((¬ s.takesLogical b ∧ t.state = .readingHeader ∧ t.cursor = s.cursor + 1 ∧ t.unescaping = true) ∨
       (s.takesLogical b ∧ s.logicalCount < 4 ∧ t.state = .readingHeader ∧ t.cursor = s.logicalCount + 1) ∨
       (s.takesLogical b ∧ s.logicalCount = 4 ∧ t.state = .readingBody ∧ t.cursor = 5 ∧ t.HeaderAccepted) ∨
       (s.takesLogical b ∧ s.logicalCount = 4 ∧ t.state = .seekingPreamble ∧ t.cursor = 0 ∧ ¬ t.HeaderAccepted))) ∨
    (s.state = .readingBody ∧
      ((¬ s.takesLogical b ∧ t.state = .readingBody ∧ t.cursor = s.cursor + 1 ∧ t.unescaping = true ∧ t.result = .noFrame) ∨
       (s.takesLogical b ∧ s.logicalCount < 8 + s.lengthField.toNat ∧ t.state = .readingBody ∧
         t.cursor = s.logicalCount + 1 ∧ t.result = .noFrame) ∨
       (s.completesFrame b ∧ s.receivedCrc b = s.computedCrc ∧ t.state = .seekingPreamble ∧ t.cursor = 0 ∧
         t.result = .frame s.bufferedFrame) ∨
       (s.completesFrame b ∧ s.receivedCrc b ≠ s.computedCrc ∧ t.state = .seekingPreamble ∧ t.cursor = 0 ∧
         t.result = .noFrame)))

/-- R20 item 3, R19, R36: a frame that `decode_step` returns is valid: its length is within the bound, and the buffer holds
exactly its logical bytes, header checksum and CRC included. -/
def Obligations.OnlyValidFramesEscape : Prop :=
  ∀ (s t : State) (b : Byte) (f : Frame), s.Inv → exec (.decodeStep b) s = .next t → t.result = .frame f →
    f.payload.length = f.length.toNat ∧ f.length.toNat + 10 ≤ s.cap ∧
    t.bytesAt 0 (9 + f.length.toNat) = logicalFrame f.flags f.length f.payload ∧
    t.state = .seekingPreamble ∧ t.cursor = 0

/-- R24 item 3, R38: no operation observes a buffer byte at or above the cursor: two states that differ only there answer alike,
result included, and differ only there afterwards. -/
def Obligations.StaleBytesUnobservable : Prop :=
  ∀ (i : Instr) (s : State) (m : Memory), s.Inv → { s with buf := m }.Inv →
    (∀ k, k < s.cursor → m.read k = s.buf.read k) → i.wellFormed = true → unassigned i = false →
    ∃ (t : State) (m' : Memory), exec i s = .next t ∧ exec i { s with buf := m } = .next { t with buf := m' } ∧
      ∀ k, k < t.cursor → m'.read k = t.buf.read k

/-- R152, R208, R211: whatever arrives, at most `CAP - 1` logical bytes, counted by the parse of R123 (a pair `1B x` is one, the
byte after a pending prefix is one), and so at most `2 * (CAP - 1)` wire bytes, bring the decoder back to SeekingPreamble. -/
def Obligations.ResyncWithinCapacity : Prop :=
  (∀ (s : State) (bs logical : List Byte), s.Inv →
    unescape ((if s.unescaping then [0x1B#8] else []) ++ bs) = some logical → s.cap - 1 ≤ logical.length →
    ∃ (k : Nat) (t : State) (l : List Byte), decodeAll (bs.take k) s = .next t ∧ t.state = .seekingPreamble ∧
      unescape ((if s.unescaping then [0x1B#8] else []) ++ bs.take k) = some l ∧ l.length ≤ s.cap - 1) ∧
  (∀ (s : State) (bs : List Byte), s.Inv → 2 * (s.cap - 1) ≤ bs.length →
    ∃ (k : Nat) (t : State), k ≤ 2 * (s.cap - 1) ∧ decodeAll (bs.take k) s = .next t ∧ t.state = .seekingPreamble)

/-- R210: after a preamble, nine zero bytes are a valid empty frame. -/
def Obligations.NineZerosAreAFrame : Prop :=
  ∀ s : State, s.Inv → s.state = .readingHeader → s.cursor = 0 →
    ∃ t, decodeAll (List.replicate 9 0#8) s = .next t ∧ t.result = .frame ⟨0#16, 0#16, []⟩ ∧ t.state = .seekingPreamble

/-! ### Whole frames -/

/-- TL section 8 "Round trip", R51, R154: a whole frame arriving at an empty window with a length within the bound is delivered
with the same flags, length and payload, and nothing else happens. -/
def Obligations.WholeFrameDelivered : Prop :=
  ∀ (s : State) (flags length : U16) (payload : List Byte), s.Inv → s.state = .seekingPreamble → s.cursor = 0 →
    payload.length = length.toNat → length.toNat + 10 ≤ s.cap →
    ∃ t, exec (.frame flags length payload) s = .next t ∧ t.result = .frames [⟨flags, length, payload⟩] ∧
      t.state = .seekingPreamble ∧ t.cursor = 0 ∧ t.unescaping = false ∧ t.events = [] ∧
      t.bytesAt 0 (9 + length.toNat) = logicalFrame flags length payload ∧
      (∀ k, 9 + length.toNat ≤ k → t.buf.read k = s.buf.read k) ∧
      t.rxPos = s.rxPos + (wireFrame flags length payload).length ∧ SameOutside s t

/-- R207: a frame with `CAP - 10 < length` is rejected at its header, silently, and no part of it is taken for another frame. -/
def Obligations.TooLongFrameRejected : Prop :=
  ∀ (s : State) (flags length : U16) (payload : List Byte), s.Inv → s.state = .seekingPreamble → s.cursor = 0 →
    payload.length = length.toNat → s.cap < length.toNat + 10 →
    ∃ t, exec (.frame flags length payload) s = .next t ∧ t.result = .frames [] ∧ t.state = .seekingPreamble ∧
      t.events = [.hdrLen] ∧ t.rxPos = s.rxPos + (wireFrame flags length payload).length ∧ SameOutside s t

/-- TL section 8 "Round trip" and R154 across two instances: what one engine's `encode` appends, fed byte by byte to an idle
decoder, yields the frame on its last byte and no frame before. -/
def Obligations.EncodeThenDecodeRoundTrip : Prop :=
  ∀ (e s : State) (flags length : U16) (payload : List Byte), payload.length = length.toNat → length.toNat ≤ e.cap →
    s.Inv → s.state = .seekingPreamble → s.cursor = 0 → length.toNat + 10 ≤ s.cap →
    ∃ (t u : State) (w : List Byte), exec (.encode flags length payload) e = .next t ∧ t.tx = e.tx ++ w ∧
      decodeAll w s = .next u ∧ u.result = .frame ⟨flags, length, payload⟩ ∧ u.state = .seekingPreamble ∧ u.cursor = 0 ∧
      ∀ k, 0 < k → k < w.length → ∃ v, decodeAll (w.take k) s = .next v ∧ v.result = .noFrame

/-! ### The convenience read -/

/-- R161, R164: a `read` whose byte completes a frame that fits copies its payload to `dest` and does to the decoder what
`decode_step` does. The bytes of `dest` beyond the payload stay: the spec's decision D11 (log entry 15). -/
def Obligations.ReadCopiesPayload : Prop :=
  ∀ (s : State) (b : Byte) (n : Nat), s.Inv → s.completesFrame b → s.receivedCrc b = s.computedCrc →
    s.lengthField.toNat ≤ n →
    ∃ t u, exec (.decodeStep b) s = .next t ∧ exec (.read b n) s = .next u ∧ u.result = .success ∧
      u = { t with dest := u.dest, result := .success } ∧
      (∀ k, k < s.lengthField.toNat → u.dest.read k = some (s.byteAt (5 + k))) ∧
      (∀ k, s.lengthField.toNat ≤ k → u.dest.read k = s.dest.read k)

/-- R162, R175: a frame larger than `dest_capacity` is lost: failure, `dest` unchanged, the decoder already resynchronised. -/
def Obligations.ReadLosesFrameThatDoesNotFit : Prop :=
  ∀ (s : State) (b : Byte) (n : Nat), s.Inv → s.completesFrame b → s.receivedCrc b = s.computedCrc →
    n < s.lengthField.toNat →
    ∃ t, exec (.read b n) s = .next t ∧ t.result = .failure ∧ t.dest = s.dest ∧ t.state = .seekingPreamble ∧ t.cursor = 0 ∧
      t.events = [.destSmall s.lengthField n] ∧ t.rxPos = s.rxPos + 1 ∧ SameOutside s t

/-- R163: a `read` whose decode step yields no frame fails with `dest` unchanged, and otherwise does what `decode_step` does. -/
def Obligations.ReadWithoutFrameFails : Prop :=
  ∀ (s : State) (b : Byte) (n : Nat), s.Inv → ¬ (s.completesFrame b ∧ s.receivedCrc b = s.computedCrc) →
    ∃ t, exec (.decodeStep b) s = .next t ∧ t.result = .noFrame ∧
      exec (.read b n) s = .next { t with result := .failure } ∧ t.dest = s.dest

/-! ### The initial contents of the scratch buffer -/

/-- R38, R200, D6: two instances of one capacity, built with whatever initial contents, answer alike to every sequence of
operations, and differ at most in the scratch buffer afterwards. -/
def Obligations.InitialContentsUnobservable : Prop :=
  ∀ (cap : Nat) (c d : List Byte) (s t : State) (is : List Instr), State.construct cap c = some s → State.construct cap d = some t →
    (∀ i ∈ is, i.wellFormed = true ∧ unassigned i = false) →
    ∃ (u : State) (m : Memory), execAll is s = .next u ∧ execAll is t = .next { u with buf := m }
end

