-- ==== Sys2Proof/Laws/Bits.lean ====
section
/-! SUPPORT. Little-endian assembly and disassembly are inverse (spec/20_memory.md R32, R33); the byte step of the CRC is eight bit
steps (spec/40_checksum.md R82); the escape code and its parse (spec/30_encoding.md R54, spec/42_decode.md R123). -/

namespace Sys2Proof.Machine

/-! ### Little-endian fields -/

theorem getLsbD_le16 (b0 b1 : Byte) (i : Nat) :
    (le16 b0 b1).getLsbD i = if i < 8 then b0.getLsbD i else if i < 16 then b1.getLsbD (i - 8) else false := by
  simp only [le16, BitVec.getLsbD_or, BitVec.getLsbD_setWidth, BitVec.getLsbD_shiftLeft]
  by_cases h : i < 8
  · simp [h]; omega
  · by_cases h2 : i < 16
    · have : b0.getLsbD i = false := BitVec.getLsbD_of_ge _ _ (by omega)
      simp [h, h2, this]; omega
    · have : b0.getLsbD i = false := BitVec.getLsbD_of_ge _ _ (by omega)
      simp [h, h2, this]

theorem getLsbD_le32 (b0 b1 b2 b3 : Byte) (i : Nat) :
    (le32 b0 b1 b2 b3).getLsbD i = if i < 8 then b0.getLsbD i else if i < 16 then b1.getLsbD (i - 8)
      else if i < 24 then b2.getLsbD (i - 16) else if i < 32 then b3.getLsbD (i - 24) else false := by
  have z : ∀ (b : Byte) (k : Nat), ¬ k < 8 → b.getLsbD k = false := fun b k hk => BitVec.getLsbD_of_ge _ _ (by omega)
  simp only [le32, BitVec.getLsbD_or, BitVec.getLsbD_setWidth, BitVec.getLsbD_shiftLeft]
  by_cases h8 : i < 8
  · simp [h8, show i < 32 by omega, show i < 16 by omega, show i < 24 by omega]
  · rw [z b0 i h8]
    by_cases h16 : i < 16
    · simp [h8, h16, show i < 32 by omega, show i < 24 by omega, show i - 8 < 32 by omega]
    · rw [z b1 (i - 8) (by omega)]
      by_cases h24 : i < 24
      · simp [h8, h16, h24, show i < 32 by omega, show i - 16 < 32 by omega]
      · rw [z b2 (i - 16) (by omega)]
        by_cases h32 : i < 32
        · simp [h8, h16, h24, h32, show i - 24 < 32 by omega]
        · simp [h8, h16, h24, h32]

theorem le16_bytes (v : U16) : le16 (v.extractLsb' 0 8) (v.extractLsb' 8 8) = v := by
  apply BitVec.eq_of_getLsbD_eq
  intro i hi
  simp only [getLsbD_le16, BitVec.getLsbD_extractLsb']
  split
  · simp [*]
  · simp [show 8 + (i - 8) = i by omega]; omega

theorem bytes_le16 (b0 b1 : Byte) : bytesLE16 (le16 b0 b1) = [b0, b1] := by
  simp only [bytesLE16, List.cons.injEq, and_true]
  constructor <;> apply BitVec.eq_of_getLsbD_eq <;> intro i hi <;> simp only [getLsbD_le16, BitVec.getLsbD_extractLsb']
  · simp [hi]
  · rw [if_neg (by omega), if_pos (by omega), show 8 + i - 8 = i by omega]; simp [hi]

theorem le32_bytes (v : U32) :
    le32 (v.extractLsb' 0 8) (v.extractLsb' 8 8) (v.extractLsb' 16 8) (v.extractLsb' 24 8) = v := by
  apply BitVec.eq_of_getLsbD_eq
  intro i hi
  simp only [getLsbD_le32, BitVec.getLsbD_extractLsb']
  split
  · simp [*]
  · split
    · rw [show 8 + (i - 8) = i by omega]; simp; omega
    · split
      · rw [show 16 + (i - 16) = i by omega]; simp; omega
      · simp [show 24 + (i - 24) = i by omega]; omega

theorem bytes_le32 (b0 b1 b2 b3 : Byte) : bytesLE32 (le32 b0 b1 b2 b3) = [b0, b1, b2, b3] := by
  simp only [bytesLE32, List.cons.injEq, and_true]
  refine ⟨?_, ?_, ?_, ?_⟩ <;> apply BitVec.eq_of_getLsbD_eq <;> intro i hi <;>
    simp only [getLsbD_le32, BitVec.getLsbD_extractLsb']
  · simp [hi]
  · rw [if_neg (by omega), if_pos (by omega), show 8 + i - 8 = i by omega]; simp [hi]
  · rw [if_neg (by omega), if_neg (by omega), if_pos (by omega), show 16 + i - 16 = i by omega]; simp [hi]
  · rw [if_neg (by omega), if_neg (by omega), if_neg (by omega), if_pos (by omega), show 24 + i - 24 = i by omega]; simp [hi]

/-- R52: the preamble match said byte by byte. -/
theorem le32_eq_preamble (w0 w1 w2 w3 : Byte) :
    le32 w0 w1 w2 w3 = Config.preamble ↔ w0 = 0x55#8 ∧ w1 = 0xAA#8 ∧ w2 = 0x55#8 ∧ w3 = 0xAA#8 := by
  constructor
  · intro h
    have e := congrArg bytesLE32 h
    rw [bytes_le32] at e
    simpa [bytesLE32, Config.preamble] using e
  · rintro ⟨rfl, rfl, rfl, rfl⟩; decide

@[simp] theorem bytesLE16_length (v : U16) : (bytesLE16 v).length = 2 := rfl
@[simp] theorem bytesLE32_length (v : U32) : (bytesLE32 v).length = 4 := rfl
@[simp] theorem headerBytes_length (f l : U16) : (headerBytes f l).length = 5 := rfl

/-! ### The escape code -/

theorem escBytes_append (xs ys : List Byte) : escBytes (xs ++ ys) = escBytes xs ++ escBytes ys := by
  induction xs with
  | nil => rfl
  | cons x xs ih => simp [escBytes, ih]

/-- R54: a byte of the escape code is the byte itself or the pair of ESCAPE and the byte. -/
theorem escByte_cases (x : Byte) :
    (x ≠ Config.escape ∧ escByte x = [x]) ∨ escByte x = [Config.escape, x] := by
  unfold escByte
  split
  · exact .inr rfl
  · rename_i h
    refine .inl ⟨fun e => h ?_, rfl⟩
    subst e; decide

/-- R123: what stands before the parse of the rest, for a byte that is no prefix and for a pair. -/
theorem unescape_literal {b : Byte} (h : b ≠ Config.escape) (rest : List Byte) :
    unescape (b :: rest) = (unescape rest).map (b :: ·) := by
  cases rest with
  | nil => simp [unescape, h]
  | cons x rest => rw [unescape, if_neg h]

theorem unescape_pair (x : Byte) (rest : List Byte) :
    unescape (Config.escape :: x :: rest) = (unescape rest).map (x :: ·) := by
  rw [unescape, if_pos rfl]

/-- R123 after R54: the parse undoes the escape code. -/
theorem unescape_escBytes (xs : List Byte) : unescape (escBytes xs) = some xs := by
  induction xs with
  | nil => rfl
  | cons x xs ih =>
    rcases escByte_cases x with ⟨h, e⟩ | e
    · rw [escBytes, e, List.singleton_append, unescape_literal h, ih]; rfl
    · rw [escBytes, e, List.cons_append, List.singleton_append, unescape_pair, ih]; rfl

/-! ### The CRC -/

/-- One bit step is an iteration of R80 after the bit has been added to bit 0. -/
theorem crcBit_eq (c : U32) (x : Bool) : crcBit c x = if c.getLsbD 0 != x then (c >>> 1) ^^^ Config.poly else c >>> 1 := rfl

/-- R83: the fold over a concatenation passes through the value of its first part. -/
theorem crc32_append (seed : U32) (a b : List Byte) : crc32 seed (a ++ b) = crc32 (crc32 seed a) b := by
  simp [crc32]

/-- The loop iteration of R80 is linear over XOR. -/
theorem crcShift_xor (c d : U32) : crcShift (c ^^^ d) = crcShift c ^^^ crcShift d := by
  unfold crcShift
  simp only [BitVec.getLsbD_xor]
  have e : (c ^^^ d) >>> 1 = (c >>> 1) ^^^ (d >>> 1) := by
    apply BitVec.eq_of_getLsbD_eq; intro i _; simp
  cases c.getLsbD 0 <;> cases d.getLsbD 0 <;> simp [e] <;> apply BitVec.eq_of_getLsbD_eq <;> intro i _ <;>
    simp only [BitVec.getLsbD_xor] <;> cases (c >>> 1).getLsbD i <;> cases (d >>> 1).getLsbD i <;>
    cases Config.poly.getLsbD i <;> rfl

end Sys2Proof.Machine
end

