-- ==== Sys2Proof/Laws/Memory.lean ====
section
/-! SUPPORT. The laws of byte memories: a read after a write (spec/20_memory.md R39), and that every operation keeps the
canonical form. -/

namespace Sys2Proof.Machine.Memory

@[simp] theorem read_write_same (m : Memory) (i : Nat) (v : Byte) : (m.write i v).read i = some v := by
  induction m with
  | nil => simp [write, read]
  | cons c m ih =>
    obtain ⟨j, w⟩ := c
    unfold write
    split
    · simp [read]
    · split
      · simp [read]
      · rename_i h; simp [read, h, ih]

theorem read_write_other (m : Memory) {i k : Nat} (v : Byte) (h : k ≠ i) : (m.write i v).read k = m.read k := by
  induction m with
  | nil => simp [write, read, h]
  | cons c m ih =>
    obtain ⟨j, w⟩ := c
    unfold write
    split
    · simp [read, h]
    · split
      · rename_i h2; subst h2; simp [read, h]
      · simp [read, ih]

theorem read_write (m : Memory) (i k : Nat) (v : Byte) :
    (m.write i v).read k = if k = i then some v else m.read k := by
  split
  · rename_i h; subst h; simp
  · rename_i h; exact read_write_other m v h

/-- What a scratch byte holds after a write. -/
theorem byte_write (m : Memory) (i k : Nat) (v : Byte) : (m.write i v).byte k = if k = i then v else m.byte k := by
  simp only [byte, read_write]
  split <;> rfl

theorem byte_write_other (m : Memory) {i k : Nat} (v : Byte) (h : k ≠ i) : (m.write i v).byte k = m.byte k := by
  rw [byte_write, if_neg h]

/-- A listed byte is the byte held. -/
theorem byte_of_read {m : Memory} {i : Nat} {v : Byte} (h : m.read i = some v) : m.byte i = v := by simp [byte, h]

/-- A second write of the same byte of memory replaces the first. -/
theorem write_write (m : Memory) (i : Nat) (v w : Byte) : (m.write i v).write i w = m.write i w := by
  induction m with
  | nil => simp [write]
  | cons c m ih =>
    obtain ⟨j, u⟩ := c
    by_cases h1 : i < j
    · simp [write, h1]
    · by_cases h2 : i = j
      · subst h2; simp [write]
      · simp [write, h1, h2, ih]

/-- Every cell after a write is the written one or an old one. -/
theorem mem_write {m : Memory} {i : Nat} {v : Byte} {c : Host.Cell} (h : c ∈ m.write i v) : c = (i, v) ∨ c ∈ m := by
  induction m with
  | nil => left; simpa [write] using h
  | cons d m ih =>
    obtain ⟨j, w⟩ := d
    unfold write at h
    split at h
    · simpa using h
    · split at h
      · rcases List.mem_cons.mp h with h | h
        · exact .inl h
        · exact .inr (List.mem_cons_of_mem _ h)
      · rcases List.mem_cons.mp h with h | h
        · exact .inr (by simp [h])
        · rcases ih h with h | h
          · exact .inl h
          · exact .inr (List.mem_cons_of_mem _ h)

theorem risesFrom_mono {lo lo' : Nat} {m : Memory} (h : lo' ≤ lo) (hm : risesFrom lo m = true) : risesFrom lo' m = true := by
  cases m with
  | nil => rfl
  | cons c m =>
    simp only [risesFrom, Bool.and_eq_true, decide_eq_true_eq] at hm ⊢
    exact ⟨h.trans hm.1, hm.2⟩

theorem risesFrom_write {lo i : Nat} {m : Memory} (v : Byte) (hi : lo ≤ i) (hm : risesFrom lo m = true) :
    risesFrom lo (m.write i v) = true := by
  induction m generalizing lo with
  | nil => simpa [write, risesFrom] using hi
  | cons c m ih =>
    obtain ⟨j, w⟩ := c
    simp only [risesFrom, Bool.and_eq_true, decide_eq_true_eq] at hm
    unfold write
    split
    · simp [risesFrom, hi, hm.2]; omega
    · split
      · rename_i h; subst h; simp [risesFrom, hi, hm.2]
      · simp only [risesFrom, Bool.and_eq_true, decide_eq_true_eq]
        exact ⟨hm.1, ih (by omega) hm.2⟩

/-- A write keeps the canonical form. -/
theorem wf_write {m : Memory} (i : Nat) (v : Byte) (h : m.wf = true) : (m.write i v).wf = true :=
  risesFrom_write v (Nat.zero_le i) h

/-- Writing a list keeps the canonical form. -/
theorem wf_writeList {m : Memory} (i : Nat) (vs : List Byte) (h : m.wf = true) : (m.writeList i vs).wf = true := by
  induction vs generalizing m i with
  | nil => exact h
  | cons v vs ih => exact ih _ (wf_write i v h)

/-- What a byte reads as after a list was written. -/
theorem read_writeList (m : Memory) (i k : Nat) (vs : List Byte) :
    (m.writeList i vs).read k = if i ≤ k ∧ k < i + vs.length then vs[k - i]? else m.read k := by
  induction vs generalizing m i with
  | nil => simp [writeList]
  | cons v vs ih =>
    rw [writeList, ih, read_write]
    by_cases h1 : k = i
    · subst h1; simp
    · by_cases h2 : i + 1 ≤ k ∧ k < i + 1 + vs.length
      · have e : k - i = (k - (i + 1)) + 1 := by omega
        rw [if_pos h2, if_pos (by simp; omega), e, List.getElem?_cons_succ]
      · rw [if_neg h2, if_neg h1, if_neg (by simp; omega)]

/-- In canonical form an index is read exactly when it is listed. -/
theorem isSome_read_of_mem {m : Memory} {c : Host.Cell} (h : c ∈ m) : (m.read c.1).isSome = true := by
  induction m with
  | nil => cases h
  | cons d m ih =>
    obtain ⟨j, w⟩ := d
    unfold read
    split
    · rfl
    · rcases List.mem_cons.mp h with h | h
      · subst h; contradiction
      · exact ih h

end Sys2Proof.Machine.Memory
end

