-- ==== Sys2Proof/Laws/State.lean ====
section
/-! SUPPORT. One lemma per field per named update of the state, each true by rfl, so that no later proof unfolds an update. -/

namespace Sys2Proof.Machine

/-! ### resync -/

@[simp] theorem resync_cap (s : State) : (resync s).cap = s.cap := rfl
@[simp] theorem resync_state (s : State) : (resync s).state = .seekingPreamble := rfl
@[simp] theorem resync_cursor (s : State) : (resync s).cursor = 0 := rfl
@[simp] theorem resync_unescaping (s : State) : (resync s).unescaping = s.unescaping := rfl
@[simp] theorem resync_buf (s : State) : (resync s).buf = s.buf := rfl
@[simp] theorem resync_tx (s : State) : (resync s).tx = s.tx := rfl
@[simp] theorem resync_rxPos (s : State) : (resync s).rxPos = s.rxPos := rfl
@[simp] theorem resync_dest (s : State) : (resync s).dest = s.dest := rfl
@[simp] theorem resync_result (s : State) : (resync s).result = s.result := rfl
@[simp] theorem resync_events (s : State) : (resync s).events = s.events := rfl
@[simp] theorem resync_pending (s : State) : (resync s).pending = s.pending := rfl

/-! ### takeRx -/

@[simp] theorem takeRx_cap (s : State) : (takeRx s).cap = s.cap := rfl
@[simp] theorem takeRx_state (s : State) : (takeRx s).state = s.state := rfl
@[simp] theorem takeRx_cursor (s : State) : (takeRx s).cursor = s.cursor := rfl
@[simp] theorem takeRx_unescaping (s : State) : (takeRx s).unescaping = s.unescaping := rfl
@[simp] theorem takeRx_buf (s : State) : (takeRx s).buf = s.buf := rfl
@[simp] theorem takeRx_tx (s : State) : (takeRx s).tx = s.tx := rfl
@[simp] theorem takeRx_rxPos (s : State) : (takeRx s).rxPos = s.rxPos + 1 := rfl
@[simp] theorem takeRx_dest (s : State) : (takeRx s).dest = s.dest := rfl
@[simp] theorem takeRx_result (s : State) : (takeRx s).result = s.result := rfl
@[simp] theorem takeRx_events (s : State) : (takeRx s).events = s.events := rfl
@[simp] theorem takeRx_pending (s : State) : (takeRx s).pending = s.pending := rfl

/-! ### startOp -/

@[simp] theorem startOp_cap (s : State) : (startOp s).cap = s.cap := rfl
@[simp] theorem startOp_state (s : State) : (startOp s).state = s.state := rfl
@[simp] theorem startOp_cursor (s : State) : (startOp s).cursor = s.cursor := rfl
@[simp] theorem startOp_unescaping (s : State) : (startOp s).unescaping = s.unescaping := rfl
@[simp] theorem startOp_buf (s : State) : (startOp s).buf = s.buf := rfl
@[simp] theorem startOp_tx (s : State) : (startOp s).tx = s.tx := rfl
@[simp] theorem startOp_rxPos (s : State) : (startOp s).rxPos = s.rxPos := rfl
@[simp] theorem startOp_dest (s : State) : (startOp s).dest = s.dest := rfl
@[simp] theorem startOp_result (s : State) : (startOp s).result = s.result := rfl
@[simp] theorem startOp_events (s : State) : (startOp s).events = [] := rfl
@[simp] theorem startOp_pending (s : State) : (startOp s).pending = s.pending := rfl

/-! ### ret -/

@[simp] theorem ret_cap (r : Result) (s : State) : (ret r s).cap = s.cap := rfl
@[simp] theorem ret_state (r : Result) (s : State) : (ret r s).state = s.state := rfl
@[simp] theorem ret_cursor (r : Result) (s : State) : (ret r s).cursor = s.cursor := rfl
@[simp] theorem ret_unescaping (r : Result) (s : State) : (ret r s).unescaping = s.unescaping := rfl
@[simp] theorem ret_buf (r : Result) (s : State) : (ret r s).buf = s.buf := rfl
@[simp] theorem ret_tx (r : Result) (s : State) : (ret r s).tx = s.tx := rfl
@[simp] theorem ret_rxPos (r : Result) (s : State) : (ret r s).rxPos = s.rxPos := rfl
@[simp] theorem ret_dest (r : Result) (s : State) : (ret r s).dest = s.dest := rfl
@[simp] theorem ret_result (r : Result) (s : State) : (ret r s).result = r := rfl
@[simp] theorem ret_events (r : Result) (s : State) : (ret r s).events = s.events := rfl
@[simp] theorem ret_pending (r : Result) (s : State) : (ret r s).pending = s.pending := rfl

/-! ### txByte -/

@[simp] theorem txByte_cap (b : Byte) (s : State) : (txByte b s).cap = s.cap := rfl
@[simp] theorem txByte_state (b : Byte) (s : State) : (txByte b s).state = s.state := rfl
@[simp] theorem txByte_cursor (b : Byte) (s : State) : (txByte b s).cursor = s.cursor := rfl
@[simp] theorem txByte_unescaping (b : Byte) (s : State) : (txByte b s).unescaping = s.unescaping := rfl
@[simp] theorem txByte_buf (b : Byte) (s : State) : (txByte b s).buf = s.buf := rfl
@[simp] theorem txByte_tx (b : Byte) (s : State) : (txByte b s).tx = s.tx ++ [b] := rfl
@[simp] theorem txByte_rxPos (b : Byte) (s : State) : (txByte b s).rxPos = s.rxPos := rfl
@[simp] theorem txByte_dest (b : Byte) (s : State) : (txByte b s).dest = s.dest := rfl
@[simp] theorem txByte_result (b : Byte) (s : State) : (txByte b s).result = s.result := rfl
@[simp] theorem txByte_events (b : Byte) (s : State) : (txByte b s).events = s.events := rfl
@[simp] theorem txByte_pending (b : Byte) (s : State) : (txByte b s).pending = s.pending := rfl

/-! ### copyToDest -/

@[simp] theorem copyToDest_cap (p : List Byte) (s : State) : (copyToDest p s).cap = s.cap := rfl
@[simp] theorem copyToDest_state (p : List Byte) (s : State) : (copyToDest p s).state = s.state := rfl
@[simp] theorem copyToDest_cursor (p : List Byte) (s : State) : (copyToDest p s).cursor = s.cursor := rfl
@[simp] theorem copyToDest_unescaping (p : List Byte) (s : State) : (copyToDest p s).unescaping = s.unescaping := rfl
@[simp] theorem copyToDest_buf (p : List Byte) (s : State) : (copyToDest p s).buf = s.buf := rfl
@[simp] theorem copyToDest_tx (p : List Byte) (s : State) : (copyToDest p s).tx = s.tx := rfl
@[simp] theorem copyToDest_rxPos (p : List Byte) (s : State) : (copyToDest p s).rxPos = s.rxPos := rfl
@[simp] theorem copyToDest_dest (p : List Byte) (s : State) : (copyToDest p s).dest = s.dest.writeList 0 p := rfl
@[simp] theorem copyToDest_result (p : List Byte) (s : State) : (copyToDest p s).result = s.result := rfl
@[simp] theorem copyToDest_events (p : List Byte) (s : State) : (copyToDest p s).events = s.events := rfl
@[simp] theorem copyToDest_pending (p : List Byte) (s : State) : (copyToDest p s).pending = s.pending := rfl

/-! ### raiseEvent -/

@[simp] theorem raiseEvent_cap (e : Event) (s : State) : (raiseEvent e s).cap = s.cap := by cases e <;> rfl
@[simp] theorem raiseEvent_unescaping (e : Event) (s : State) : (raiseEvent e s).unescaping = s.unescaping := by cases e <;> rfl
@[simp] theorem raiseEvent_buf (e : Event) (s : State) : (raiseEvent e s).buf = s.buf := by cases e <;> rfl
@[simp] theorem raiseEvent_tx (e : Event) (s : State) : (raiseEvent e s).tx = s.tx := by cases e <;> rfl
@[simp] theorem raiseEvent_rxPos (e : Event) (s : State) : (raiseEvent e s).rxPos = s.rxPos := by cases e <;> rfl
@[simp] theorem raiseEvent_dest (e : Event) (s : State) : (raiseEvent e s).dest = s.dest := by cases e <;> rfl
@[simp] theorem raiseEvent_result (e : Event) (s : State) : (raiseEvent e s).result = eventResult e := by cases e <;> rfl
@[simp] theorem raiseEvent_events (e : Event) (s : State) : (raiseEvent e s).events = s.events ++ [e] := by cases e <;> rfl
@[simp] theorem raiseEvent_pending (e : Event) (s : State) : (raiseEvent e s).pending = s.pending := by cases e <;> rfl

/-- R172 to R174: a rejected header leaves the decoder resynchronised. -/
@[simp] theorem raiseEvent_header (c : Bool) (s : State) :
    (raiseEvent (if c then .hdrLen else .hdrCsum) s).state = .seekingPreamble ∧
      (raiseEvent (if c then .hdrLen else .hdrCsum) s).cursor = 0 := by cases c <;> exact ⟨rfl, rfl⟩

/-! ### The emission loops say only what they append -/

theorem txBytes_eq (bs : List Byte) (s : State) : txBytes bs s = { s with tx := s.tx ++ bs } := by
  induction bs generalizing s with
  | nil => simp [txBytes]
  | cons b bs ih => simp [txBytes, ih, txByte]

theorem txEscaped_eq (x : Byte) (s : State) : txEscaped x s = { s with tx := s.tx ++ escByte x } := by
  unfold txEscaped escByte
  split <;> simp [txByte]

theorem txEscapedAll_eq (xs : List Byte) (s : State) :
    txEscapedAll xs s = { s with tx := s.tx ++ escBytes xs } := by
  induction xs generalizing s with
  | nil => simp [txEscapedAll, escBytes]
  | cons x xs ih => simp [txEscapedAll, escBytes, ih, txEscaped_eq]

end Sys2Proof.Machine
end

