-- ==== Sys2Proof/Laws/Ops.lean ====
section
/-! SUPPORT. For each shared operation, what it can do: when it answers a next state and which (spec/20_memory.md R31,
spec/42_decode.md R121, R122, R124, R126, R127). -/

namespace Sys2Proof.Machine

/-! ### The scratch buffer -/

theorem bufRead_eq_ok {i : Nat} {s : State} {v : Byte} :
    bufRead i s = .ok v ↔ i < s.cap ∧ s.byteAt i = v := by
  unfold bufRead State.byteAt
  split <;> simp [*]

/-- R31, R35: every scratch byte in range can be read. -/
theorem bufRead_byteAt {i : Nat} {s : State} (hi : i < s.cap) : bufRead i s = .ok (s.byteAt i) :=
  bufRead_eq_ok.2 ⟨hi, rfl⟩

theorem bufWrite_eq_ok {i : Nat} {v : Byte} {s t : State} :
    bufWrite i v s = .ok t ↔ i < s.cap ∧ t = { s with buf := s.buf.write i v } := by
  unfold bufWrite
  split <;> simp [*, eq_comm]

/-- A listed byte is its `byteAt`. -/
theorem read_eq_byteAt {s : State} {i : Nat} (h : (s.buf.read i).isSome = true) : s.buf.read i = some (s.byteAt i) := by
  obtain ⟨v, e⟩ := Option.isSome_iff_exists.1 h
  rw [e, State.byteAt, Memory.byte_of_read e]

/-- R31: a slice in range reads as its bytes. -/
theorem bufSlice_bytesAt {s : State} (i n : Nat) (h : i + n ≤ s.cap) : bufSlice i n s = .ok (s.bytesAt i n) := by
  induction n generalizing i with
  | zero => simp [bufSlice, State.bytesAt]
  | succ n ih =>
    have e : s.bytesAt i (n + 1) = s.byteAt i :: s.bytesAt (i + 1) n := by
      simp [State.bytesAt, List.range_succ_eq_map, Nat.add_comm, Nat.add_left_comm]
    simp [bufSlice, bufRead_byteAt (show i < s.cap by omega), ih (i + 1) (by omega), e, bind, Except.bind, pure, Except.pure]

/-! ### The registers -/

/-- R124. -/
theorem append_eq_ok {b : Byte} {s t : State} :
    append b s = .ok t ↔
      s.cursor < s.cap ∧ t = { s with buf := s.buf.write s.cursor b, cursor := s.cursor + 1 } := by
  unfold append bufWrite
  split <;> simp [*, eq_comm, bind, Except.bind, pure, Except.pure]

/-- R121. -/
theorem stepBack_eq_ok {s t : State} :
    stepBack s = .ok t ↔
      (s.unescaping = false ∧ t = s) ∨
      (s.unescaping = true ∧ s.cursor ≠ 0 ∧ t = { s with cursor := s.cursor - 1, unescaping := false }) := by
  unfold stepBack
  cases hu : s.unescaping <;> by_cases hc : s.cursor = 0 <;> simp [hc, eq_comm]

/-- R122. -/
theorem storeMarker_eq_ok {s t : State} :
    storeMarker s = .ok t ↔
      s.cursor < s.cap ∧
        t = { s with buf := s.buf.write s.cursor Config.escape, cursor := s.cursor + 1, unescaping := true } := by
  unfold storeMarker
  rw [append_eq_ok]

theorem bufMove_eq_ok {dst src : Nat} {s t : State} :
    bufMove dst src s = .ok t ↔
      src < s.cap ∧ dst < s.cap ∧ t = { s with buf := s.buf.write dst (s.byteAt src) } := by
  unfold bufMove
  by_cases h : src < s.cap
  · simp only [bufRead_byteAt h, bind, Except.bind, bufWrite_eq_ok, h, true_and]
  · simp [bufRead, h, bind, Except.bind]

/-- The buffer after the shift of R127. -/
def shiftedBuf (s : State) : Memory :=
  (((s.buf.write 0 (s.byteAt (s.cap - 4))).write 1 (s.byteAt (s.cap - 3))).write 2 (s.byteAt (s.cap - 2))).write 3
    (s.byteAt (s.cap - 1))

/-- R127, with source and destination apart (D13). -/
theorem shiftWindow_eq {s : State} (hc : 10 ≤ s.cap) :
    shiftWindow s = .ok { s with buf := shiftedBuf s, cursor := 4 } := by
  obtain ⟨m0, e0⟩ : ∃ m, m = s.buf.write 0 (s.byteAt (s.cap - 4)) := ⟨_, rfl⟩
  obtain ⟨m1, e1⟩ : ∃ m, m = m0.write 1 (s.byteAt (s.cap - 3)) := ⟨_, rfl⟩
  obtain ⟨m2, e2⟩ : ∃ m, m = m1.write 2 (s.byteAt (s.cap - 2)) := ⟨_, rfl⟩
  have e3 : shiftedBuf s = m2.write 3 (s.byteAt (s.cap - 1)) := by rw [e2, e1, e0]; rfl
  have o0 : ∀ k, k ≠ 0 → m0.byte k = s.byteAt k := fun k h => by rw [e0, Memory.byte_write_other _ _ h]; rfl
  have o1 : ∀ k, k ≠ 0 → k ≠ 1 → m1.byte k = s.byteAt k := fun k h h' => by
    rw [e1, Memory.byte_write_other _ _ h', o0 k h]
  have o2 : ∀ k, k ≠ 0 → k ≠ 1 → k ≠ 2 → m2.byte k = s.byteAt k := fun k h h' h'' => by
    rw [e2, Memory.byte_write_other _ _ h'', o1 k h h']
  have s0 : bufMove 0 (s.cap - 4) s = .ok { s with buf := m0 } :=
    bufMove_eq_ok.2 ⟨by omega, by omega, by rw [e0]⟩
  have s1 : bufMove 1 (s.cap - 3) { s with buf := m0 } = .ok { s with buf := m1 } :=
    bufMove_eq_ok.2 ⟨show s.cap - 3 < s.cap by omega, show 1 < s.cap by omega, by
      rw [e1, ← o0 (s.cap - 3) (by omega)]; rfl⟩
  have s2 : bufMove 2 (s.cap - 2) { s with buf := m1 } = .ok { s with buf := m2 } :=
    bufMove_eq_ok.2 ⟨show s.cap - 2 < s.cap by omega, show 2 < s.cap by omega, by
      rw [e2, ← o1 (s.cap - 2) (by omega) (by omega)]; rfl⟩
  have s3 : bufMove 3 (s.cap - 1) { s with buf := m2 } = .ok { s with buf := shiftedBuf s } :=
    bufMove_eq_ok.2 ⟨show s.cap - 1 < s.cap by omega, show 3 < s.cap by omega, by
      rw [e3, ← o2 (s.cap - 1) (by omega) (by omega) (by omega)]; rfl⟩
  simp only [shiftWindow, s0, s1, s2, s3, bind, Except.bind, pure, Except.pure]

theorem read_shiftedBuf (s : State) (k : Nat) :
    (shiftedBuf s).read k = if k = 3 then some (s.byteAt (s.cap - 1)) else if k = 2 then some (s.byteAt (s.cap - 2))
      else if k = 1 then some (s.byteAt (s.cap - 3)) else if k = 0 then some (s.byteAt (s.cap - 4)) else s.buf.read k := by
  simp only [shiftedBuf, Memory.read_write]

/-! ### The preamble match -/

/-- R126. -/
theorem preambleSeen_eq {s : State} (hc : s.cursor ≤ s.cap) :
    preambleSeen s = .ok (decide (4 ≤ s.cursor ∧ s.byteAt (s.cursor - 4) = 0x55#8 ∧ s.byteAt (s.cursor - 3) = 0xAA#8 ∧
      s.byteAt (s.cursor - 2) = 0x55#8 ∧ s.byteAt (s.cursor - 1) = 0xAA#8)) := by
  unfold preambleSeen
  split
  · rename_i h
    have r : ∀ k, 0 < k → k ≤ s.cursor → bufRead (s.cursor - k) s = .ok (s.byteAt (s.cursor - k)) :=
      fun k h1 h2 => bufRead_byteAt (by omega)
    simp only [r 4 (by omega) h, r 3 (by omega) (by omega), r 2 (by omega) (by omega), r 1 (by omega) (by omega), bind,
      Except.bind, pure, Except.pure, Except.ok.injEq]
    rw [Bool.eq_iff_iff, beq_iff_eq, le32_eq_preamble]
    simp [h]
  · simp [*, pure, Except.pure]

end Sys2Proof.Machine
end

