-- ==== Sys2Proof/Laws/DecodePath.lean ====
section
/-! SUPPORT. What a `decode_step` can do, said once: phase 1 and 2 leave `afterByte` or the marker, and each state's logic has one
equation (spec/42_decode.md R120 to R150). -/

namespace Sys2Proof.Machine

/-- The state after phases 1 and 2 where they do not end the call: `b` at the write index, the flag clear (R121, R124). -/
def afterByte (b : Byte) (s : State) : State :=
  { s with rxPos := s.rxPos + 1, buf := s.buf.write s.writeIndex b, cursor := s.writeIndex + 1, unescaping := false }

/-- The state after the marker store (R122). -/
def afterMarker (s : State) : State :=
  { s with rxPos := s.rxPos + 1, buf := s.buf.write s.cursor Config.escape, cursor := s.cursor + 1, unescaping := true }

/-! ### Small lemmas of `afterByte` -/

@[simp] theorem afterByte_cap (b : Byte) (s : State) : (afterByte b s).cap = s.cap := rfl
@[simp] theorem afterByte_state (b : Byte) (s : State) : (afterByte b s).state = s.state := rfl
@[simp] theorem afterByte_cursor (b : Byte) (s : State) : (afterByte b s).cursor = s.writeIndex + 1 := rfl
@[simp] theorem afterByte_unescaping (b : Byte) (s : State) : (afterByte b s).unescaping = false := rfl
@[simp] theorem afterByte_buf (b : Byte) (s : State) : (afterByte b s).buf = s.buf.write s.writeIndex b := rfl

theorem writeIndex_clear {s : State} (h : s.unescaping = false) : s.writeIndex = s.cursor := by simp [State.writeIndex, h]

theorem writeIndex_set {s : State} (h : s.unescaping = true) : s.writeIndex = s.cursor - 1 := by simp [State.writeIndex, h]

theorem byteAt_afterByte (b : Byte) (s : State) (k : Nat) :
    (afterByte b s).byteAt k = if k = s.writeIndex then b else s.byteAt k := by
  simp only [State.byteAt, afterByte_buf, Memory.byte_write]

theorem byteAt_afterByte_other {b : Byte} {s : State} {k : Nat} (h : k ≠ s.writeIndex) :
    (afterByte b s).byteAt k = s.byteAt k := by rw [byteAt_afterByte, if_neg h]

@[simp] theorem byteAt_afterByte_same (b : Byte) (s : State) : (afterByte b s).byteAt s.writeIndex = b := by
  rw [byteAt_afterByte, if_pos rfl]

theorem bytesAt_afterByte {b : Byte} {s : State} {i n : Nat} (h : i + n ≤ s.writeIndex) :
    (afterByte b s).bytesAt i n = s.bytesAt i n := by
  unfold State.bytesAt
  apply List.map_congr_left
  intro k hk
  exact byteAt_afterByte_other (by have := List.mem_range.1 hk; omega)

theorem lengthField_afterByte {b : Byte} {s : State} (h : 4 ≤ s.writeIndex) :
    (afterByte b s).lengthField = s.lengthField := by
  simp only [State.lengthField]
  rw [byteAt_afterByte_other (by omega), byteAt_afterByte_other (by omega)]

theorem flagsField_afterByte {b : Byte} {s : State} (h : 4 ≤ s.writeIndex) :
    (afterByte b s).flagsField = s.flagsField := by
  simp only [State.flagsField]
  rw [byteAt_afterByte_other (by omega), byteAt_afterByte_other (by omega)]

theorem isSome_afterByte {b : Byte} {s : State} (h : ∀ i, i < s.cursor → (s.buf.read i).isSome = true) (i : Nat)
    (hi : i < (afterByte b s).cursor) : ((afterByte b s).buf.read i).isSome = true := by
  rw [afterByte_buf, Memory.read_write]
  split
  · rfl
  · apply h
    simp only [afterByte_cursor] at hi
    have : s.writeIndex ≤ s.cursor := by unfold State.writeIndex; split <;> omega
    omega

/-! ### Phases 1 and 2 -/

/-- R122. -/
theorem decodeStepCore_marker {s : State} (hs : s.state ≠ .seekingPreamble) (hu : s.unescaping = false)
    (hc : s.cursor < s.cap) : decodeStepCore Config.escape s = .ok (afterMarker s, none) := by
  have h1 : stepBack (takeRx s) = .ok (takeRx s) := stepBack_eq_ok.2 (.inl ⟨hu, rfl⟩)
  have h2 : storeMarker (takeRx s) = .ok (afterMarker s) := storeMarker_eq_ok.2 ⟨hc, rfl⟩
  simp [decodeStepCore, unescapePhase, hs, hu, h1, h2, bind, Except.bind, pure, Except.pure]

/-- R120, R124 in SeekingPreamble: phase 1 does not run. -/
theorem decodeStepCore_seeking {s : State} (b : Byte) (hs : s.state = .seekingPreamble) (hu : s.unescaping = false)
    (hc : s.cursor < s.cap) : decodeStepCore b s = stateLogic (afterByte b s) := by
  have e : afterByte b s = { takeRx s with buf := s.buf.write s.cursor b, cursor := s.cursor + 1 } := by
    simp only [afterByte, writeIndex_clear hu, takeRx, hu]
  have h : append b (takeRx s) = .ok (afterByte b s) := append_eq_ok.2 ⟨hc, e⟩
  simp [decodeStepCore, unescapePhase, hs, h, bind, Except.bind, pure, Except.pure]

/-- R121, R124 in a frame: a logical byte reaches the state logic at the write index. -/
theorem decodeStepCore_logical {s : State} {b : Byte} (ht : s.takesLogical b) (hw : s.writeIndex < s.cap)
    (h0 : s.unescaping = true → s.cursor ≠ 0) : decodeStepCore b s = stateLogic (afterByte b s) := by
  obtain ⟨hs, hb⟩ := ht
  cases hu : s.unescaping with
  | false =>
    have hb : b ≠ Config.escape := by simpa [hu] using hb
    have e : afterByte b s = { takeRx s with buf := s.buf.write s.cursor b, cursor := s.cursor + 1 } := by
      simp only [afterByte, writeIndex_clear hu, takeRx, hu]
    rw [writeIndex_clear hu] at hw
    have h1 : stepBack (takeRx s) = .ok (takeRx s) := stepBack_eq_ok.2 (.inl ⟨hu, rfl⟩)
    have h : append b (takeRx s) = .ok (afterByte b s) := append_eq_ok.2 ⟨hw, e⟩
    simp [decodeStepCore, unescapePhase, hs, hu, hb, h1, h, bind, Except.bind, pure, Except.pure]
  | true =>
    rw [writeIndex_set hu] at hw
    have h1 : stepBack (takeRx s) = .ok { takeRx s with cursor := s.cursor - 1, unescaping := false } :=
      stepBack_eq_ok.2 (.inr ⟨hu, h0 hu, rfl⟩)
    have h : append b { takeRx s with cursor := s.cursor - 1, unescaping := false } = .ok (afterByte b s) :=
      append_eq_ok.2 ⟨hw, by simp only [afterByte, writeIndex_set hu, takeRx]⟩
    simp only [decodeStepCore, unescapePhase, takeRx_state, hs, if_false, takeRx_unescaping, hu, h1, bind, Except.bind, pure,
      Except.pure]
    dsimp only [takeRx] at h
    simp [takeRx, h]

/-! ### Phase 3 -/

/-- R126 to R128. -/
theorem seekLogic_eq {s : State} (h10 : 10 ≤ s.cap) (hc : s.cursor ≤ s.cap) :
    seekLogic s = .ok (
      if 4 ≤ s.cursor ∧ s.byteAt (s.cursor - 4) = 0x55#8 ∧ s.byteAt (s.cursor - 3) = 0xAA#8 ∧
          s.byteAt (s.cursor - 2) = 0x55#8 ∧ s.byteAt (s.cursor - 1) = 0xAA#8 then
        { s with state := .readingHeader, cursor := 0 }
      else if s.cursor = s.cap then { s with buf := shiftedBuf s, cursor := 4 } else s) := by
  simp only [seekLogic, preambleSeen_eq hc, bind, Except.bind]
  by_cases hp : 4 ≤ s.cursor ∧ s.byteAt (s.cursor - 4) = 0x55#8 ∧ s.byteAt (s.cursor - 3) = 0xAA#8 ∧
      s.byteAt (s.cursor - 2) = 0x55#8 ∧ s.byteAt (s.cursor - 1) = 0xAA#8
  · rw [if_pos hp, if_pos (by simpa using hp)]; rfl
  · rw [if_neg hp, if_neg (by simpa using hp)]
    by_cases hf : s.cursor = s.cap
    · rw [if_pos hf, if_pos hf, shiftWindow_eq h10]
    · rw [if_neg hf, if_neg hf]; rfl

/-- R135 to R139. -/
theorem headerLogic_eq {s : State} (h10 : 10 ≤ s.cap) :
    headerLogic s = .ok (if s.cursor = 5 then judgeHeader s.flagsField s.lengthField (s.byteAt 4) s else s) := by
  unfold headerLogic
  by_cases h5 : s.cursor = 5
  · have r : ∀ k, k < 5 → bufRead k s = .ok (s.byteAt k) := fun k hk => bufRead_byteAt (by omega)
    simp [h5, Config.hdrLen, r, State.flagsField, State.lengthField, bind, Except.bind, pure, Except.pure]
  · simp [h5, Config.hdrLen, pure, Except.pure]

/-- R145 to R149. -/
theorem bodyLogic_eq {s : State} (h4 : 4 ≤ s.cursor) (hc : s.cursor ≤ s.cap) :
    bodyLogic s = .ok (
      if s.cursor = 9 + s.lengthField.toNat then
        judgeBody (le32 (s.byteAt (5 + s.lengthField.toNat)) (s.byteAt (6 + s.lengthField.toNat))
          (s.byteAt (7 + s.lengthField.toNat)) (s.byteAt (8 + s.lengthField.toNat))) s.computedCrc s.bufferedFrame s
      else (s, none)) := by
  have r : ∀ k, k < s.cursor → bufRead k s = .ok (s.byteAt k) := fun k hk => bufRead_byteAt (by omega)
  have e : le16 (s.byteAt 2) (s.byteAt 3) = s.lengthField := rfl
  unfold bodyLogic
  simp only [r 2 (by omega), r 3 (by omega), bind, Except.bind, e, Config.hdrLen, Config.crcLen]
  by_cases h : s.cursor = 9 + s.lengthField.toNat
  · rw [if_pos h, if_pos (by omega)]
    have sl : ∀ i n, i + n ≤ s.cursor → bufSlice i n s = .ok (s.bytesAt i n) := fun i n hin =>
      bufSlice_bytesAt i n (by omega)
    simp only [sl 0 5 (by omega), sl 5 s.lengthField.toNat (by omega), r (5 + s.lengthField.toNat) (by omega),
      r (6 + s.lengthField.toNat) (by omega), r (7 + s.lengthField.toNat) (by omega),
      r (8 + s.lengthField.toNat) (by omega), r 0 (by omega), r 1 (by omega)]
    rfl
  · rw [if_neg h, if_neg (by omega)]; rfl

end Sys2Proof.Machine
end

