-- ==== Sys2Proof/Laws/Invariant.lean ====
section
/-! SUPPORT. Under the invariant of Safety.lean a decode step has one of four closed forms, and its state meets the invariant again
(spec/10_state.md R20, R21; spec/42_decode.md R151). -/

namespace Sys2Proof.Machine

namespace State.Inv

theorem marked {s : State} (h : s.Inv) (hu : s.unescaping = true) : s.state ≠ .seekingPreamble ∧ 1 ≤ s.cursor := by
  cases hs : s.state with
  | seekingPreamble => have := (h.seeking hs).1; simp [hu] at this
  | readingHeader => exact ⟨by decide, (h.headerMarked hs hu).1⟩
  | readingBody => exact ⟨by decide, by have := (h.bodyMarked hs hu).1; omega⟩

theorem headerIndex {s : State} (h : s.Inv) (hs : s.state = .readingHeader) : s.writeIndex ≤ 4 := by
  cases hu : s.unescaping with
  | false => rw [writeIndex_clear hu]; exact h.header hs hu
  | true => rw [writeIndex_set hu]; have := h.headerMarked hs hu; omega

theorem bodyIndex {s : State} (h : s.Inv) (hs : s.state = .readingBody) :
    5 ≤ s.writeIndex ∧ s.writeIndex ≤ 8 + s.lengthField.toNat := by
  cases hu : s.unescaping with
  | false => rw [writeIndex_clear hu]; exact h.body hs hu
  | true => rw [writeIndex_set hu]; have := h.bodyMarked hs hu; omega

/-- R35: the index a received byte is written at is in range. -/
theorem writeIndex_lt {s : State} (h : s.Inv) : s.writeIndex < s.cap := by
  have h10 := h.capacity
  cases hs : s.state with
  | seekingPreamble => have := h.seeking hs; rw [writeIndex_clear this.1]; exact this.2
  | readingHeader => have := h.headerIndex hs; omega
  | readingBody => have := h.bodyIndex hs; have := (h.accepted hs).2; omega

theorem cursor_lt {s : State} (h : s.Inv) : s.cursor < s.cap := by
  have h10 := h.capacity
  cases hs : s.state with
  | seekingPreamble => exact (h.seeking hs).2
  | readingHeader =>
    cases hu : s.unescaping with
    | false => have := h.header hs hu; omega
    | true => have := h.headerMarked hs hu; omega
  | readingBody =>
    have := (h.accepted hs).2
    cases hu : s.unescaping with
    | false => have := h.body hs hu; omega
    | true => have := h.bodyMarked hs hu; omega

/-- R20 item 2: the bytes below the write index are written. -/
theorem written_afterByte {s : State} (h : s.Inv) (b : Byte) :
    ∀ i, i < (afterByte b s).cursor → ((afterByte b s).buf.read i).isSome = true :=
  fun i hi => isSome_afterByte h.written i hi

end State.Inv

/-- R137 with the constants of R2 put in. -/
theorem lenOk_iff {l : U16} {cap : Nat} : lenOk l cap = true ↔ l.toNat + 10 ≤ cap :=
  decide_eq_true_iff

/-! ### The closed forms -/

/-- A byte that is no logical byte of a frame stores the marker. -/
theorem decodeStepCore_of_marker {s : State} {b : Byte} (h : s.Inv) (hs : s.state ≠ .seekingPreamble)
    (hb : ¬ s.takesLogical b) : decodeStepCore b s = .ok (afterMarker s, none) := by
  have hu : s.unescaping = false := by
    cases hu : s.unescaping with
    | false => rfl
    | true => exact absurd ⟨hs, .inl hu⟩ hb
  have he : b = Config.escape := Classical.byContradiction fun e => hb ⟨hs, .inr e⟩
  subst he
  exact decodeStepCore_marker hs hu h.cursor_lt

/-- R126 to R128. -/
theorem decodeStepCore_of_seeking {s : State} (b : Byte) (h : s.Inv) (hs : s.state = .seekingPreamble) :
    (s.completesPreamble b →
      decodeStepCore b s = .ok ({ afterByte b s with state := .readingHeader, cursor := 0 }, none)) ∧
    (¬ s.completesPreamble b → s.cursor + 1 = s.cap →
      decodeStepCore b s = .ok ({ afterByte b s with buf := shiftedBuf (afterByte b s), cursor := 4 }, none)) ∧
    (¬ s.completesPreamble b → s.cursor + 1 ≠ s.cap → decodeStepCore b s = .ok (afterByte b s, none)) := by
  obtain ⟨hu, hc⟩ := h.seeking hs
  have hw := writeIndex_clear hu
  rw [decodeStepCore_seeking b hs hu hc]
  have e : stateLogic (afterByte b s) = (seekLogic (afterByte b s)).bind (fun t => .ok (t, none)) := by
    simp [stateLogic, hs, bind, pure, Except.pure]
  rw [e, seekLogic_eq (s := afterByte b s) h.capacity (by simp [hw]; omega)]
  have hp : (4 ≤ (afterByte b s).cursor ∧ (afterByte b s).byteAt ((afterByte b s).cursor - 4) = 0x55#8 ∧
      (afterByte b s).byteAt ((afterByte b s).cursor - 3) = 0xAA#8 ∧
      (afterByte b s).byteAt ((afterByte b s).cursor - 2) = 0x55#8 ∧
      (afterByte b s).byteAt ((afterByte b s).cursor - 1) = 0xAA#8) ↔ s.completesPreamble b := by
    unfold State.completesPreamble
    simp only [afterByte_cursor, hw]
    have i1 : s.cursor + 1 - 1 = s.cursor := by omega
    have e1 : (afterByte b s).byteAt (s.cursor + 1 - 1) = b := by rw [i1, ← hw]; simp
    rw [e1]
    constructor
    · rintro ⟨h4, h⟩
      have o : ∀ k, 2 ≤ k → k ≤ 4 → (afterByte b s).byteAt (s.cursor + 1 - k) = s.byteAt (s.cursor - (k - 1)) := by
        intro k h1 h2
        rw [byteAt_afterByte_other (by omega)]; congr 1; omega
      rw [o 4 (by omega) (by omega), o 3 (by omega) (by omega), o 2 (by omega) (by omega)] at h
      exact ⟨by omega, h⟩
    · rintro ⟨h3, h⟩
      have o : ∀ k, 2 ≤ k → k ≤ 4 → (afterByte b s).byteAt (s.cursor + 1 - k) = s.byteAt (s.cursor - (k - 1)) := by
        intro k h1 h2
        rw [byteAt_afterByte_other (by omega)]; congr 1; omega
      rw [o 4 (by omega) (by omega), o 3 (by omega) (by omega), o 2 (by omega) (by omega)]
      exact ⟨by omega, h⟩
  refine ⟨fun h1 => ?_, fun h1 h2 => ?_, fun h1 h2 => ?_⟩
  · rw [if_pos (hp.2 h1)]; rfl
  · rw [if_neg (mt hp.1 h1), if_pos (by simp [hw, h2])]; rfl
  · rw [if_neg (mt hp.1 h1), if_neg (by simpa [hw] using h2)]; rfl

/-- R135 to R139. -/
theorem decodeStepCore_of_header {s : State} {b : Byte} (h : s.Inv) (hs : s.state = .readingHeader) (hb : s.takesLogical b) :
    decodeStepCore b s = .ok (if s.writeIndex = 4 then
      judgeHeader s.flagsField s.lengthField b (afterByte b s) else afterByte b s, none) := by
  rw [decodeStepCore_logical hb h.writeIndex_lt (fun hu => by have := h.marked hu; omega)]
  have e : stateLogic (afterByte b s) = (headerLogic (afterByte b s)).bind (fun t => .ok (t, none)) := by
    simp [stateLogic, hs, bind, pure, Except.pure]
  rw [e, headerLogic_eq (s := afterByte b s) h.capacity]
  by_cases h4 : s.writeIndex = 4
  · rw [if_pos h4, if_pos (by simp [h4]), flagsField_afterByte (by omega), lengthField_afterByte (by omega)]
    have : (afterByte b s).byteAt 4 = b := by rw [← h4]; simp
    rw [this]; rfl
  · rw [if_neg h4, if_neg (by simpa using h4)]; rfl

/-- R145 to R149. -/
theorem decodeStepCore_of_body {s : State} {b : Byte} (h : s.Inv) (hs : s.state = .readingBody) (hb : s.takesLogical b) :
    decodeStepCore b s = .ok (if s.writeIndex = 8 + s.lengthField.toNat then
      judgeBody (s.receivedCrc b) s.computedCrc s.bufferedFrame (afterByte b s) else (afterByte b s, none)) := by
  have hi := h.bodyIndex hs
  have hl := h.writeIndex_lt
  rw [decodeStepCore_logical hb hl (fun hu => by have := h.marked hu; omega)]
  have e : stateLogic (afterByte b s) = bodyLogic (afterByte b s) := by simp [stateLogic, hs]
  have hlf : (afterByte b s).lengthField = s.lengthField := lengthField_afterByte (by omega)
  rw [e, bodyLogic_eq (by simp; omega) (by simp; omega), hlf]
  by_cases h8 : s.writeIndex = 8 + s.lengthField.toNat
  · rw [if_pos h8, if_pos (by simp; omega)]
    have e8 : (afterByte b s).byteAt (8 + s.lengthField.toNat) = b := by rw [← h8]; simp
    have ec : (afterByte b s).computedCrc = s.computedCrc := by
      simp only [State.computedCrc, hlf]
      rw [bytesAt_afterByte (by omega), bytesAt_afterByte (by omega)]
    have ef : (afterByte b s).bufferedFrame = s.bufferedFrame := by
      simp only [State.bufferedFrame, hlf, flagsField_afterByte (show 4 ≤ s.writeIndex by omega)]
      rw [bytesAt_afterByte (by omega)]
    rw [e8, ec, ef, byteAt_afterByte_other (by omega), byteAt_afterByte_other (by omega), byteAt_afterByte_other (by omega)]
    rfl
  · rw [if_neg h8, if_neg (by simp; omega)]

/-! ### The invariant again -/

theorem bufInRange_write {m : Memory} {cap i : Nat} {v : Byte} (h : ∀ c ∈ m, c.1 < cap) (hi : i < cap) :
    ∀ c ∈ m.write i v, c.1 < cap := by
  intro c hc
  rcases Memory.mem_write hc with e | e
  · rw [e]; exact hi
  · exact h c e

theorem inv_afterMarker {s : State} (h : s.Inv) (hs : s.state ≠ .seekingPreamble) (hu : s.unescaping = false) :
    (afterMarker s).Inv := by
  have hw := writeIndex_clear hu
  have hlt := h.cursor_lt
  have bo : ∀ k, k ≠ s.cursor → (afterMarker s).byteAt k = s.byteAt k := fun k hk => by
    simp only [State.byteAt, afterMarker, Memory.byte_write_other _ _ hk]
  have lf : 4 ≤ s.cursor → (afterMarker s).lengthField = s.lengthField := fun h4 => by
    simp only [State.lengthField, bo 2 (by omega), bo 3 (by omega)]
  have ff : 4 ≤ s.cursor → (afterMarker s).flagsField = s.flagsField := fun h4 => by
    simp only [State.flagsField, bo 0 (by omega), bo 1 (by omega)]
  exact {
    capacity := h.capacity
    bufCanonical := Memory.wf_write _ _ h.bufCanonical
    bufInRange := bufInRange_write h.bufInRange hlt
    destCanonical := h.destCanonical
    written := fun i hi => by
      simp only [afterMarker] at hi ⊢
      rw [Memory.read_write]
      split
      · rfl
      · exact h.written i (by omega)
    seeking := fun e => absurd e hs
    header := fun _ e => by simp [afterMarker] at e
    headerMarked := fun e _ => by have := h.header e hu; simp only [afterMarker]; omega
    body := fun _ e => by simp [afterMarker] at e
    bodyMarked := fun e _ => by
      have := h.body e hu
      rw [lf (by omega)]; simp only [afterMarker]; omega
    accepted := fun e => by
      have h5 := (h.body e hu).1
      have := h.accepted e
      unfold State.HeaderAccepted at this ⊢
      rw [lf (by omega), ff (by omega), bo 4 (by omega)]
      exact this
    marker := fun _ => by simp [afterMarker] }

/-- What a decode step leaves, short of the clauses about the state register. -/
theorem inv_resynced {s t : State} (h : s.Inv) (hcap : t.cap = s.cap) (hd : t.dest = s.dest)
    (hbuf : t.buf.wf = true) (hr : ∀ c ∈ t.buf, c.1 < s.cap) (hu : t.unescaping = false) (hc : t.cursor = 0)
    (hs : t.state ≠ .readingBody) : t.Inv :=
  { capacity := by rw [hcap]; exact h.capacity
    bufCanonical := hbuf
    bufInRange := by rw [hcap]; exact hr
    destCanonical := by rw [hd]; exact h.destCanonical
    written := fun i hi => by omega
    seeking := fun _ => ⟨hu, by have := h.capacity; omega⟩
    header := fun _ _ => by omega
    headerMarked := fun _ e => by simp [hu] at e
    body := fun e => absurd e hs
    bodyMarked := fun e => absurd e hs
    accepted := fun e => absurd e hs
    marker := fun e => by simp [hu] at e }

/-- R20, R21: a decode step completes, keeps the invariant and leaves the host's and the transport's side alone. -/
theorem decodeStepCore_keeps {s : State} (b : Byte) (h : s.Inv) :
    ∃ t r, decodeStepCore b s = .ok (t, r) ∧ t.Inv ∧ SameOutside s t ∧ t.rxPos = s.rxPos + 1 := by
  have hlt := h.writeIndex_lt
  have hbw : ∀ v, (s.buf.write s.writeIndex v).wf = true := fun v => Memory.wf_write _ _ h.bufCanonical
  have hbr : ∀ v, ∀ c ∈ s.buf.write s.writeIndex v, c.1 < s.cap := fun v => bufInRange_write h.bufInRange hlt
  cases hs : s.state with
  | seekingPreamble =>
    obtain ⟨hu, hc⟩ := h.seeking hs
    obtain ⟨h1, h2, h3⟩ := decodeStepCore_of_seeking b h hs
    by_cases hp : s.completesPreamble b
    · exact ⟨_, _, h1 hp, inv_resynced h rfl rfl (hbw b) (hbr b) rfl rfl (by simp), ⟨rfl, rfl, rfl, rfl⟩, rfl⟩
    · by_cases hf : s.cursor + 1 = s.cap
      · refine ⟨_, _, h2 hp hf, ?_, ⟨rfl, rfl, rfl, rfl⟩, rfl⟩
        have h10 := h.capacity
        exact {
          capacity := h.capacity
          bufCanonical := Memory.wf_write _ _ (Memory.wf_write _ _ (Memory.wf_write _ _ (Memory.wf_write _ _ (hbw b))))
          bufInRange := bufInRange_write (bufInRange_write (bufInRange_write (bufInRange_write (hbr b)
            (by show _ < s.cap; omega)) (by show _ < s.cap; omega)) (by show _ < s.cap; omega)) (by show _ < s.cap; omega)
          destCanonical := h.destCanonical
          written := fun i hi => by
            simp only at hi ⊢
            rw [read_shiftedBuf]
            split_ifs <;> first | rfl | omega
          seeking := fun _ => ⟨rfl, by show 4 < s.cap; omega⟩
          header := fun e => by simp [hs] at e
          headerMarked := fun e => by simp [hs] at e
          body := fun e => by simp [hs] at e
          bodyMarked := fun e => by simp [hs] at e
          accepted := fun e => by simp [hs] at e
          marker := fun e => by simp at e }
      · refine ⟨_, _, h3 hp hf, ?_, ⟨rfl, rfl, rfl, rfl⟩, rfl⟩
        exact {
          capacity := h.capacity
          bufCanonical := hbw b
          bufInRange := hbr b
          destCanonical := h.destCanonical
          written := h.written_afterByte b
          seeking := fun _ => ⟨rfl, by simp [writeIndex_clear hu]; omega⟩
          header := fun e => by simp [hs] at e
          headerMarked := fun e => by simp [hs] at e
          body := fun e => by simp [hs] at e
          bodyMarked := fun e => by simp [hs] at e
          accepted := fun e => by simp [hs] at e
          marker := fun e => by simp at e }
  | readingHeader =>
    have hne : s.state ≠ .seekingPreamble := by simp [hs]
    by_cases hb : s.takesLogical b
    · have hi := h.headerIndex hs
      refine ⟨_, _, decodeStepCore_of_header h hs hb, ?_⟩
      by_cases h4 : s.writeIndex = 4
      · rw [if_pos h4]
        unfold judgeHeader
        split
        · rename_i hok
          rw [Bool.and_eq_true] at hok
          have lf := lengthField_afterByte (b := b) (s := s) (by omega)
          refine ⟨?_, ⟨rfl, rfl, rfl, rfl⟩, rfl⟩
          exact {
            capacity := h.capacity
            bufCanonical := hbw b
            bufInRange := hbr b
            destCanonical := h.destCanonical
            written := h.written_afterByte b
            seeking := fun e => by simp at e
            header := fun e => by simp at e
            headerMarked := fun e => by simp at e
            body := fun _ _ => by show 5 ≤ s.writeIndex + 1 ∧ s.writeIndex + 1 ≤ _; omega
            bodyMarked := fun _ e => by simp at e
            accepted := fun _ => by
              show headerChecksum (afterByte b s).flagsField (afterByte b s).lengthField = (afterByte b s).byteAt 4 ∧
                (afterByte b s).lengthField.toNat + 10 ≤ s.cap
              rw [lf, flagsField_afterByte (by omega)]
              have e4 : (afterByte b s).byteAt 4 = b := by rw [← h4]; simp
              rw [e4]
              exact ⟨by simpa [csumOk] using hok.1, lenOk_iff.1 hok.2⟩
            marker := fun e => by simp at e }
        · unfold headerEvent
          refine ⟨inv_resynced h (by simp) (by simp [afterByte]) (by simpa using hbw b) (by simpa using hbr b) (by simp)
            (raiseEvent_header _ _).2 (by rw [(raiseEvent_header _ _).1]; simp), ?_, by simp [afterByte]⟩
          simp [SameOutside, afterByte]
      · rw [if_neg h4]
        refine ⟨?_, ⟨rfl, rfl, rfl, rfl⟩, rfl⟩
        exact {
          capacity := h.capacity
          bufCanonical := hbw b
          bufInRange := hbr b
          destCanonical := h.destCanonical
          written := h.written_afterByte b
          seeking := fun e => by simp [hs] at e
          header := fun _ _ => by simp; omega
          headerMarked := fun _ e => by simp at e
          body := fun e => by simp [hs] at e
          bodyMarked := fun e => by simp [hs] at e
          accepted := fun e => by simp [hs] at e
          marker := fun e => by simp at e }
    · have hu : s.unescaping = false := by
        cases hu : s.unescaping with
        | false => rfl
        | true => exact absurd ⟨hne, .inl hu⟩ hb
      exact ⟨_, _, decodeStepCore_of_marker h hne hb, inv_afterMarker h hne hu, ⟨rfl, rfl, rfl, rfl⟩, rfl⟩
  | readingBody =>
    have hne : s.state ≠ .seekingPreamble := by simp [hs]
    by_cases hb : s.takesLogical b
    · have hi := h.bodyIndex hs
      by_cases h8 : s.writeIndex = 8 + s.lengthField.toNat
      · have e := decodeStepCore_of_body h hs hb
        rw [if_pos h8] at e
        unfold judgeBody at e
        split at e
        · exact ⟨_, _, e, inv_resynced h rfl rfl (hbw b) (hbr b) rfl rfl (by simp [resync]), ⟨rfl, rfl, rfl, rfl⟩, rfl⟩
        · exact ⟨_, _, e, inv_resynced h rfl rfl (hbw b) (hbr b) rfl rfl (by simp [raiseEvent, eventEffect, resync]),
            ⟨rfl, rfl, rfl, rfl⟩, rfl⟩
      · have e := decodeStepCore_of_body h hs hb
        rw [if_neg h8] at e
        refine ⟨_, _, e, ?_, ⟨rfl, rfl, rfl, rfl⟩, rfl⟩
        have lf := lengthField_afterByte (b := b) (s := s) (by omega)
        exact {
          capacity := h.capacity
          bufCanonical := hbw b
          bufInRange := hbr b
          destCanonical := h.destCanonical
          written := h.written_afterByte b
          seeking := fun e => by simp [hs] at e
          header := fun e => by simp [hs] at e
          headerMarked := fun e => by simp [hs] at e
          body := fun _ _ => by rw [lf]; simp; omega
          bodyMarked := fun _ e => by simp at e
          accepted := fun _ => by
            have := h.accepted hs
            unfold State.HeaderAccepted at this ⊢
            rw [lf, flagsField_afterByte (by omega), byteAt_afterByte_other (by omega)]
            exact this
          marker := fun e => by simp at e }
    · have hu : s.unescaping = false := by
        cases hu : s.unescaping with
        | false => rfl
        | true => exact absurd ⟨hne, .inl hu⟩ hb
      exact ⟨_, _, decodeStepCore_of_marker h hne hb, inv_afterMarker h hne hu, ⟨rfl, rfl, rfl, rfl⟩, rfl⟩

/-- R64: a `feed` completes and keeps the invariant. -/
theorem feedCore_keeps {s : State} (bs : List Byte) (h : s.Inv) :
    ∃ t fs, feedCore bs s = .ok (t, fs) ∧ t.Inv ∧ SameOutside s t ∧ t.rxPos = s.rxPos + bs.length := by
  induction bs generalizing s with
  | nil => exact ⟨s, [], rfl, h, ⟨rfl, rfl, rfl, rfl⟩, rfl⟩
  | cons b bs ih =>
    obtain ⟨t, r, e, hi, ho, hr⟩ := decodeStepCore_keeps b h
    obtain ⟨u, fs, e2, hi2, ho2, hr2⟩ := ih hi
    refine ⟨u, r.toList ++ fs, by simp [feedCore, e, e2, bind, Except.bind, pure, Except.pure], hi2, ?_, by
      simp [hr2, hr]; omega⟩
    exact ⟨ho2.1.trans ho.1, ho2.2.1.trans ho.2.1, ho2.2.2.1.trans ho.2.2.1, ho2.2.2.2.trans ho.2.2.2⟩

end Sys2Proof.Machine
end

