-- ==== Sys2Proof/Tests/Slice0.lean ====
section
/-! SUPPORT. The model's own tests. Expected values are those of spec/95_test_vectors.md (its section is named at each group) or are
read off the rule named; then, for every statement with hypotheses, a concrete state and operands that meet them. -/

namespace Sys2Proof.Tests

open Sys2Proof Sys2Proof.Machine

/-! ### Helpers -/

/-- A scratch buffer holding `bytes` from index 0. -/
def mem (bytes : List Byte) : Memory := Memory.writeList [] 0 bytes

/-- An instance of capacity `cap` in the middle of a run. -/
def at_ (cap : Nat) (st : DecoderState) (cursor : Nat) (u : Bool) (bytes : List Byte) : State :=
  { State.afterConstruction cap [] with state := st, cursor := cursor, unescaping := u, buf := mem bytes }

def nextOf (o : Host.Outcome State Fault Refusal) : Option State :=
  match o with | .next t => some t | _ => none

def resultOf (i : Instr) (s : State) : Option Result := (nextOf (exec i s)).map (·.result)

def txOf (i : Instr) (s : State) : Option (List Byte) := (nextOf (exec i s)).map (·.tx)

def destOf (i : Instr) (s : State) : Option Memory := (nextOf (exec i s)).map (·.dest)

def eventsOf (i : Instr) (s : State) : Option (List Event) := (nextOf (exec i s)).map (·.events)

/-- The decoder's registers after an instruction. -/
def regsOf (i : Instr) (s : State) : Option (DecoderState × Nat × Bool) :=
  (nextOf (exec i s)).map (fun t => (t.state, t.cursor, t.unescaping))

def refusalOf (o : Host.Outcome State Fault Refusal) : Option Refusal :=
  match o with | .refused r => some r | _ => none

def decoded (r : Request) : Option Instr := (decode r).toOption

def rejected (r : Request) : Option DecodeError :=
  match decode r with | .error e => some e | .ok _ => none

/-! ### WellFormed: an ill-formed term for each check -/

theorem smoke_encode_payload : (Instr.encode 0#16 2#16 [0x26#8]).wellFormed = false := by decide
theorem smoke_frame_payload : (Instr.frame 0#16 0#16 [0x26#8]).wellFormed = false := by decide
theorem smoke_literal_escape : (Instr.rxLiteral 0x1B#8).wellFormed = false := by decide
theorem smoke_verbatim_flag : (Instr.txVerbatim 0xAA#8).wellFormed = false := by decide
theorem smoke_verbatim_escape : (Instr.txVerbatim 0x1B#8).wellFormed = false := by decide
theorem smoke_body_too_long (payload : List Byte) (crc : U32) (h : payload.length = 65536) :
    (Instr.rxBodyComplete payload crc).wellFormed = false := by
  simp [Instr.wellFormed, h]

/-! ### Decode: every constructor's word, written out from the table's pattern (30_encoding.md R50 to R63) -/

theorem test_decode_crc32 : decoded ⟨.op, [0b00000000#8, 0x78#8, 0x56#8, 0x34#8, 0x12#8, 0xAB#8]⟩
    = some (.crc32 0x12345678#32 [0xAB#8]) := by decide
theorem test_decode_header_checksum : decoded ⟨.op, [0b00000001#8, 0x34#8, 0x12#8, 0x03#8, 0x00#8]⟩
    = some (.headerChecksum 0x1234#16 0x0003#16) := by decide
theorem test_decode_encode : decoded ⟨.op, [0b00000010#8, 0xEF#8, 0xBE#8, 0x02#8, 0x00#8, 0xDE#8, 0xAD#8]⟩
    = some (.encode 0xBEEF#16 2#16 [0xDE#8, 0xAD#8]) := by decide
theorem test_decode_decode_step : decoded ⟨.op, [0b00000011#8, 0x55#8]⟩ = some (.decodeStep 0x55#8) := by decide
theorem test_decode_read : decoded ⟨.op, [0b00000100#8, 0x22#8, 0x00#8, 0x01#8]⟩ = some (.read 0x22#8 256) := by decide
theorem test_decode_unassigned : decoded ⟨.op, [0b00000101#8]⟩ = some .opUnassigned101 ∧
    decoded ⟨.op, [0b00000110#8]⟩ = some .opUnassigned110 ∧ decoded ⟨.op, [0b00000111#8]⟩ = some .opUnassigned111 := by decide
theorem test_decode_rx_preamble :
    decoded ⟨.wire .seeking, [0b01010101#8, 0b10101010#8, 0b01010101#8, 0b10101010#8]⟩ = some .rxPreamble := by decide
theorem test_decode_rx_seek : decoded ⟨.wire .seeking, [0x1B#8]⟩ = some (.rxSeekRaw 0x1B#8) ∧
    decoded ⟨.wire .seekingFull, [0xAA#8]⟩ = some (.rxSeekRawFull 0xAA#8) := by decide
theorem test_decode_rx_frame_bytes : decoded ⟨.wire .framing, [0b00011011#8]⟩ = some .rxEscapePrefix ∧
    decoded ⟨.wire .framing, [0xAA#8]⟩ = some (.rxLiteral 0xAA#8) ∧
    decoded ⟨.wire .framingEscaped, [0x1B#8]⟩ = some (.rxEscaped 0x1B#8) ∧
    decoded ⟨.wire .framing, [0b00011011#8, 0x10#8]⟩ = some (.rxPair 0x10#8) := by decide
theorem test_decode_rx_header : decoded ⟨.wire .headerLogical, [0x34#8, 0x12#8, 0x03#8, 0x00#8, 0x25#8]⟩
    = some (.rxHeaderComplete 0x1234#16 0x0003#16 0x25#8) := by decide
theorem test_decode_rx_body : decoded ⟨.wire .bodyLogical, [0x10#8, 0xAA#8, 0x1B#8, 0x3D#8, 0xC3#8, 0x15#8, 0x22#8]⟩
    = some (.rxBodyComplete [0x10#8, 0xAA#8, 0x1B#8] 0x2215C33D#32) := by decide
theorem test_decode_tx : decoded ⟨.esc, [0b00011011#8, 0b10101010#8]⟩ = some .txEscFlag ∧
    decoded ⟨.esc, [0b00011011#8, 0b00011011#8]⟩ = some .txEscEscape ∧
    decoded ⟨.esc, [0x10#8]⟩ = some (.txVerbatim 0x10#8) ∧
    decoded ⟨.esc, [0b01010101#8, 0b10101010#8, 0b01010101#8, 0b10101010#8]⟩ = some .txPreamble := by decide
/-- The reference vector (95 section 1.1). -/
theorem test_decode_frame : decoded ⟨.frame, [0x55#8, 0xAA#8, 0x55#8, 0xAA#8, 0x34#8, 0x12#8, 0x03#8, 0x00#8, 0x25#8, 0x10#8,
    0x1B#8, 0xAA#8, 0x1B#8, 0x1B#8, 0x3D#8, 0xC3#8, 0x15#8, 0x22#8]⟩
    = some (.frame 0x1234#16 0x0003#16 [0x10#8, 0xAA#8, 0x1B#8]) := by decide +kernel

/-! ### Decode: rejections by name -/

theorem test_reject_op : rejected ⟨.op, []⟩ = some .emptyWord ∧ rejected ⟨.op, [0x0B#8, 0x00#8]⟩ = some .reservedOpBits ∧
    rejected ⟨.op, [0x03#8]⟩ = some .missingOperand ∧ rejected ⟨.op, [0x05#8, 0x00#8]⟩ = some .trailingBytes ∧
    rejected ⟨.op, [0x02#8, 0x00#8, 0x00#8, 0x02#8, 0x00#8, 0x26#8]⟩ = some .payloadLength ∧
    rejected ⟨.op, [0x04#8, 0x22#8, 0x01#8, 0x00#8]⟩ = some .nonCanonicalNatural := by decide
theorem test_reject_symbols : rejected ⟨.esc, [0xAA#8]⟩ = some .notThisSymbol ∧
    rejected ⟨.esc, [0x1B#8, 0x10#8]⟩ = some .notThisSymbol ∧
    rejected ⟨.wire .framing, [0x10#8, 0x1B#8]⟩ = some .notThisSymbol := by decide
/-- The reference frame with its header checksum, its CRC, its escaping and its preamble altered. -/
theorem test_reject_frame :
    rejected ⟨.frame, [0x55#8, 0xAA#8, 0x55#8, 0xAA#8, 0, 0, 0, 0, 1, 0, 0, 0, 0]⟩ = some .frameHeaderChecksum ∧
    rejected ⟨.frame, [0x55#8, 0xAA#8, 0x55#8, 0xAA#8, 0, 0, 0, 0, 0, 0, 0, 0, 1]⟩ = some .frameCrcField ∧
    rejected ⟨.frame, [0x55#8, 0xAA#8, 0x55#8, 0xAA#8, 0x1B#8, 0, 0, 0, 0, 0, 0, 0, 0, 0]⟩ = some .nonCanonicalEscape ∧
    rejected ⟨.frame, [0x55#8, 0xAA#8, 0x55#8, 0xAA#8, 0, 0, 0, 0, 0, 0, 0, 0]⟩ = some .frameLength ∧
    rejected ⟨.frame, [0x55#8, 0xAA#8, 0x55#8, 0xAA#8, 0, 0x1B#8]⟩ = some .danglingEscape ∧
    rejected ⟨.frame, [0x55#8, 0xAA#8, 0x55#8]⟩ = some .badPreamble := by decide +kernel

/-! ### Words of the opcode table -/

theorem test_table_words : decodeTableWord 8 0x0 = some (.crc32 0#32 []) ∧ decodeTableWord 8 0x3 = some (.decodeStep 0#8) ∧
    decodeTableWord 8 0x7 = some .opUnassigned111 ∧ decodeTableWord 16 0x1BAA = some .txEscFlag ∧
    decodeTableWord 16 0x1B00 = some (.rxPair 0#8) ∧ decodeTableWord 32 0x55AA55AA = some .txPreamble := by decide
theorem test_fetch_word_runs : (nextOf (step (State.reset.withFetchWord 16 0x1BAA))).map (·.tx) = some [0x1B#8, 0xAA#8] := by
  decide

/-! ### The Checksum Engine (95 sections 2.1, 2.4) -/

theorem test_crc32_check : resultOf (.crc32 0#32 [0x34#8, 0x12#8, 0x03#8, 0x00#8, 0x25#8, 0x10#8, 0xAA#8, 0x1B#8]) State.reset
    = some (.crc 0x2215C33D#32) := by decide +kernel
theorem test_crc32_seeded : resultOf (.crc32 0xFFFFFFFF#32 [0x00#8]) State.reset = some (.crc 0x2DFD1072#32) := by decide
theorem test_header_checksum : resultOf (.headerChecksum 0xBEEF#16 0x0006#16) State.reset = some (.checksum 0x57#8) := by decide

/-! ### The encode path (95 section 3, rows 3 and 10) -/

theorem test_encode_escapes_header : txOf (.encode 0x1BAA#16 0#16 []) State.reset
    = some [0x55#8, 0xAA#8, 0x55#8, 0xAA#8, 0x1B#8, 0xAA#8, 0x1B#8, 0x1B#8, 0x00#8, 0x00#8, 0xB1#8, 0xB3#8, 0xD4#8, 0xE9#8,
        0x01#8] := by decide +kernel
theorem test_encode_oversize : resultOf (.encode 0#16 17#16 (List.replicate 17 0#8)) (State.afterConstruction 16 []) = some .failure ∧
    txOf (.encode 0#16 17#16 (List.replicate 17 0#8)) (State.afterConstruction 16 []) = some [] := by decide
theorem test_tx_esc_flag : txOf .txEscFlag State.reset = some [0x1B#8, 0xAA#8] := by decide
theorem test_tx_esc_escape : txOf .txEscEscape State.reset = some [0x1B#8, 0x1B#8] := by decide
theorem test_tx_verbatim : txOf (.txVerbatim 0x10#8) State.reset = some [0x10#8] := by decide
theorem test_tx_preamble : txOf .txPreamble State.reset = some [0x55#8, 0xAA#8, 0x55#8, 0xAA#8] := by decide

/-! ### The decode path (95 sections 4.1, 4.3, 4.4, 4.5, 5) -/

/-- The reference frame's decoder after 17 bytes (95 section 5). -/
def after17 : State := at_ 64 .readingBody 11 false
  [0x34#8, 0x12#8, 0x03#8, 0x00#8, 0x25#8, 0x10#8, 0xAA#8, 0x1B#8, 0x3D#8, 0xC3#8, 0x15#8]

/-- CAP = 10 before the byte that fills the buffer (95 section 4.4, call 10). -/
def beforeFull : State := at_ 10 .seekingPreamble 9 false
  [0x01#8, 0x02#8, 0x03#8, 0x04#8, 0x05#8, 0x06#8, 0x07#8, 0x08#8, 0x55#8]

/-- A header with four of its bytes received (95 section 4.1, before call 9). -/
def header4 (cap : Nat) : State := at_ cap .readingHeader 4 false [0x34#8, 0x12#8, 0x03#8, 0x00#8]

/-- A header whose fifth byte follows an escape prefix (95 section 4.3, before call 11). -/
def headerMarked : State := at_ 64 .readingHeader 5 true [0xAA#8, 0x00#8, 0x00#8, 0x00#8, 0x1B#8]

/-- An accepted header and nothing of its body (95 section 4.1, after call 9). -/
def body5 : State := at_ 64 .readingBody 5 false [0x34#8, 0x12#8, 0x03#8, 0x00#8, 0x25#8]

/-- `55 AA 55` in the window. -/
def seek3 : State := at_ 64 .seekingPreamble 3 false [0x55#8, 0xAA#8, 0x55#8]

/-- The window one short of full, its last three bytes `55 AA 55` (95 section 6.3, call 10). -/
def seekFullMatch : State := at_ 10 .seekingPreamble 9 false
  [0x00#8, 0xFF#8, 0x55#8, 0xAA#8, 0x1B#8, 0x55#8, 0x55#8, 0xAA#8, 0x55#8]

/-- An empty header. -/
def header0 : State := at_ 64 .readingHeader 0 false []

/-- The reference frame's body with its second payload byte's prefix received (95 section 4.1, after call 11). -/
def bodyMarked : State := at_ 64 .readingBody 7 true [0x34#8, 0x12#8, 0x03#8, 0x00#8, 0x25#8, 0x10#8, 0x1B#8]

/-- An empty frame with flags 0: its CRC's last byte follows an escape prefix. -/
def bodyLastMarked : State := at_ 64 .readingBody 9 true [0x00#8, 0x00#8, 0x00#8, 0x00#8, 0x00#8, 0x00#8, 0x00#8, 0x00#8, 0x1B#8]

theorem test_decode_step_frame : resultOf (.decodeStep 0x22#8) after17 = some (.frame ⟨0x1234#16, 3#16, [0x10#8, 0xAA#8, 0x1B#8]⟩)
    ∧ regsOf (.decodeStep 0x22#8) after17 = some (.seekingPreamble, 0, false) := by decide +kernel
theorem test_decode_step_bad_crc : resultOf (.decodeStep 0x23#8) after17 = some .noFrame ∧
    eventsOf (.decodeStep 0x23#8) after17 = some [.bodyCrc 0x2315C33D#32 0x2215C33D#32] := by decide +kernel
theorem test_read_success : resultOf (.read 0x22#8 3) { after17 with dest := mem [0xEE#8, 0xEE#8, 0xEE#8, 0xEE#8] } = some .success ∧
    destOf (.read 0x22#8 3) { after17 with dest := mem [0xEE#8, 0xEE#8, 0xEE#8, 0xEE#8] }
      = some (mem [0x10#8, 0xAA#8, 0x1B#8, 0xEE#8]) := by decide +kernel
theorem test_read_too_small : resultOf (.read 0x22#8 2) after17 = some .failure ∧
    regsOf (.read 0x22#8 2) after17 = some (.seekingPreamble, 0, false) := by decide +kernel
theorem test_seek_raw_full : regsOf (.rxSeekRawFull 0xAA#8) beforeFull = some (.seekingPreamble, 4, false) ∧
    (nextOf (exec (.rxSeekRawFull 0xAA#8) beforeFull)).map (·.buf)
      = some (mem [0x07#8, 0x08#8, 0x55#8, 0xAA#8, 0x05#8, 0x06#8, 0x07#8, 0x08#8, 0x55#8, 0xAA#8]) := by decide
theorem test_seek_raw : regsOf (.rxSeekRaw 0x1B#8) seek3 = some (.seekingPreamble, 4, false) := by decide
theorem test_rx_preamble : regsOf .rxPreamble State.reset = some (.readingHeader, 0, false) := by decide
theorem test_preamble_wins_over_shift : regsOf (.decodeStep 0xAA#8) seekFullMatch = some (.readingHeader, 0, false) := by decide
theorem test_escape_prefix : regsOf .rxEscapePrefix (header4 64) = some (.readingHeader, 5, true) := by decide
theorem test_literal_accept : regsOf (.rxLiteral 0x25#8) (header4 13) = some (.readingBody, 5, false) ∧
    regsOf (.rxLiteral 0x25#8) (header4 12) = some (.seekingPreamble, 0, false) := by decide
theorem test_literal_reject : regsOf (.rxLiteral 0x24#8) (header4 64) = some (.seekingPreamble, 0, false) ∧
    eventsOf (.rxLiteral 0x24#8) (header4 64) = some [.hdrCsum] := by decide
theorem test_escaped : regsOf (.rxEscaped 0xAA#8) headerMarked = some (.readingBody, 5, false) := by decide
theorem test_pair : regsOf (.rxPair 0x1B#8) body5 = some (.readingBody, 6, false) := by decide
theorem test_header_complete : regsOf (.rxHeaderComplete 0x00AA#16 0#16 0xAA#8) header0 = some (.readingBody, 5, false) := by decide
theorem test_body_complete : resultOf (.rxBodyComplete [0x10#8, 0xAA#8, 0x1B#8] 0x2215C33D#32) body5
    = some (.frames [⟨0x1234#16, 3#16, [0x10#8, 0xAA#8, 0x1B#8]⟩]) := by decide +kernel
theorem test_frame : resultOf (.frame 0x1234#16 3#16 [0x10#8, 0xAA#8, 0x1B#8]) (State.afterConstruction 13 [])
    = some (.frames [⟨0x1234#16, 3#16, [0x10#8, 0xAA#8, 0x1B#8]⟩]) := by decide +kernel
theorem test_unassigned : refusalOf (exec .opUnassigned101 State.reset) = some (.unassignedSelect 5#3) ∧
    refusalOf (exec .opUnassigned110 State.reset) = some (.unassignedSelect 6#3) ∧
    refusalOf (exec .opUnassigned111 State.reset) = some (.unassignedSelect 7#3) := by decide
theorem test_idle_step : nextOf (step State.reset) = some State.reset := by decide
theorem test_construct_refuses : State.construct 9 [] = none ∧
    State.construct 10 (List.replicate 11 0#8) = none ∧ (State.construct 10 (List.replicate 10 0xEE#8)).isSome = true := by decide
/-- A byte given at construction, the last of the buffer, and one not given (D6). -/
theorem test_construct_contents : bufRead 1 (State.afterConstruction 10 [0x11#8, 0x22#8]) = .ok 0x22#8 ∧
    bufRead 2 (State.afterConstruction 10 [0x11#8, 0x22#8]) = .ok (Config.initialByte 2) ∧
    bufRead 10 (State.afterConstruction 10 [0x11#8, 0x22#8]) = .error (.bufOutOfRange 10) := ⟨rfl, rfl, rfl⟩

/-! ### Witnesses: for every statement with hypotheses, concrete values that meet them together -/

theorem next_of {o : Host.Outcome State Fault Refusal} (h : (nextOf o).isSome = true) : ∃ t, o = .next t := by
  cases o with
  | next t => exact ⟨t, rfl⟩
  | fault f => exact absurd h Bool.false_ne_true
  | refused r => exact absurd h Bool.false_ne_true

/-- The invariant, from its clauses in a form that evaluates. -/
theorem inv_of {s : State}
    (h : 10 ≤ s.cap ∧ s.buf.wf = true ∧ (∀ c ∈ s.buf, c.1 < s.cap) ∧ s.dest.wf = true ∧
      (∀ i, i < s.cursor → (s.buf.read i).isSome = true) ∧
      (s.state = .seekingPreamble → s.unescaping = false ∧ s.cursor < s.cap) ∧
      (s.state = .readingHeader → s.unescaping = false → s.cursor ≤ 4) ∧
      (s.state = .readingHeader → s.unescaping = true → 1 ≤ s.cursor ∧ s.cursor ≤ 5) ∧
      (s.state = .readingBody → s.unescaping = false → 5 ≤ s.cursor ∧ s.cursor ≤ 8 + s.lengthField.toNat) ∧
      (s.state = .readingBody → s.unescaping = true → 6 ≤ s.cursor ∧ s.cursor ≤ 9 + s.lengthField.toNat) ∧
      (s.state = .readingBody → headerChecksum s.flagsField s.lengthField = s.byteAt 4 ∧ s.lengthField.toNat + 10 ≤ s.cap) ∧
      (s.unescaping = true → s.buf.read (s.cursor - 1) = some Config.escape)) : s.Inv :=
  let ⟨h1, h2, h3, h4, h5, h6, h7, h8, h9, h10, h11, h12⟩ := h
  ⟨h1, h2, h3, h4, h5, h6, h7, h8, h9, h10, h11, h12⟩

/-- The window of an instance of capacity `cap` just built. -/
def idle (cap : Nat) : State := State.afterConstruction cap []

/-- `after17` at the least capacity that accepts its header (R137 at the boundary). -/
def after17Least : State := { after17 with cap := 13 }

theorem inv_idle : (idle 10).Inv := inv_of (by decide)
theorem inv_idle64 : (idle 64).Inv := inv_of (by decide)
theorem inv_seek3 : seek3.Inv := inv_of (by decide +kernel)
theorem inv_beforeFull : beforeFull.Inv := inv_of (by decide +kernel)
theorem inv_seekFullMatch : seekFullMatch.Inv := inv_of (by decide +kernel)
theorem inv_header0 : header0.Inv := inv_of (by decide +kernel)
theorem inv_header4 : (header4 64).Inv := inv_of (by decide +kernel)
theorem inv_header4_13 : (header4 13).Inv := inv_of (by decide +kernel)
theorem inv_header4_12 : (header4 12).Inv := inv_of (by decide +kernel)
theorem inv_headerMarked : headerMarked.Inv := inv_of (by decide +kernel)
theorem inv_body5 : body5.Inv := inv_of (by decide +kernel)
theorem inv_bodyMarked : bodyMarked.Inv := inv_of (by decide +kernel)
theorem inv_bodyLastMarked : bodyLastMarked.Inv := inv_of (by decide +kernel)
theorem inv_after17 : after17.Inv := inv_of (by decide +kernel)
theorem inv_after17Least : after17Least.Inv := inv_of (by decide +kernel)

/-- A capacity too small, contents too long, and contents that fill the least buffer. -/
theorem witness_ConstructionLeavesResetState : ((9 : Nat) < 10 ∨ 9 < ([] : List Byte).length) ∧
    ((10 : Nat) < 10 ∨ 10 < (List.replicate 11 0xEE#8).length) ∧
    10 ≤ (10 : Nat) ∧ (List.replicate 10 0xEE#8).length ≤ 10 := by decide

/-- A request that decodes, one that does not, none, and a table word. -/
theorem witness_StepPerformsOldestRequest :
    ({ State.reset with pending := [⟨.op, [0x03#8, 0x55#8]⟩] }.pending = ⟨.op, [0x03#8, 0x55#8]⟩ :: [] ∧
      decode ⟨.op, [0x03#8, 0x55#8]⟩ = .ok (.decodeStep 0x55#8)) ∧
    ({ State.reset with pending := [⟨.esc, [0xAA#8]⟩] }.pending = ⟨.esc, [0xAA#8]⟩ :: [] ∧
      decode ⟨.esc, [0xAA#8]⟩ = .error .notThisSymbol) ∧
    State.reset.pending = [] ∧ decodeTableWord 16 0x1BAA = some .txEscFlag :=
  ⟨⟨rfl, rfl⟩, ⟨rfl, rfl⟩, rfl, by decide⟩

theorem witness_DecodeOfEncodeIsIdentity : (Instr.encode 0xBEEF#16 2#16 [0xAA#8, 0x1B#8]).wellFormed = true ∧
    (Instr.frame 0x1BAA#16 0#16 []).wellFormed = true ∧ (Instr.rxBodyComplete [] 0#32).wellFormed = true := by decide

theorem witness_DecodedRequestsReencode :
    decode ⟨.op, [0x04#8, 0x22#8, 0x00#8, 0x01#8]⟩ = .ok (.read 0x22#8 256) := rfl

theorem witness_EveryOperationCompletes : after17.Inv ∧ (Instr.read 0x22#8 3).wellFormed = true ∧
    unassigned (.read 0x22#8 3) = false := ⟨inv_after17, by decide, by decide⟩

/-- The host has issued the last byte of a frame. -/
def issued : State := { after17 with pending := [⟨.op, [0x03#8, 0x22#8]⟩] }

theorem inv_issued : issued.Inv := inv_of (by decide +kernel)

theorem witness_StepKeepsInvariant : issued.Inv ∧ ∃ t, step issued = .next t := ⟨inv_issued, next_of (by decide +kernel)⟩

theorem witness_NoStepFaults : issued.Inv := inv_issued

/-- One that receives and copies, one that transmits, one that does neither. -/
theorem witness_StateWrittenOnlyByItsWriters :
    (∃ t, exec (.read 0x22#8 3) after17 = .next t) ∧ transmits (.read 0x22#8 3) = false ∧
    (∃ t, exec .txEscFlag after17 = .next t) ∧ receives .txEscFlag = false ∧ copies .txEscFlag = false ∧
    (∃ t, exec (.crc32 0#32 []) after17 = .next t) :=
  ⟨next_of (by decide +kernel), rfl, next_of (by decide +kernel), rfl, rfl, next_of (by decide +kernel)⟩

theorem witness_CrcLinearAndZeroBlind : [0x34#8, 0x12#8].length = [0xAA#8, 0x1B#8].length ∧
    (0x12345678#32).extractLsb' 0 8 = 0x78#8 := by decide

/-- The empty payload and one that fills the engine (R100 at the boundary). -/
theorem witness_EncodeAppendsWholeFrame :
    ([] : List Byte).length = (0#16).toNat ∧ (0#16).toNat ≤ (idle 10).cap ∧
    (List.replicate 10 0xAA#8).length = (10#16).toNat ∧ (10#16).toNat ≤ (idle 10).cap := by decide

theorem witness_OversizeEncodeWritesNothing :
    (List.replicate 11 0xAA#8).length = (11#16).toNat ∧ (idle 10).cap < (11#16).toNat := by decide

theorem witness_PayloadOfOtherLengthRefused : ([0x26#8] : List Byte).length ≠ (0#16).toNat := by decide

theorem witness_EncodedLengthBounded :
    (List.replicate 10 0xAA#8).length = (10#16).toNat ∧ (10#16).toNat ≤ (idle 10).cap := by decide

theorem witness_EncodeIsItsEscRows :
    [0xAA#8, 0x1B#8, 0x10#8].length = (3#16).toNat ∧ (3#16).toNat ≤ (idle 10).cap := by decide

/-- Two empty frames: the preamble stands at the start of the second. -/
theorem witness_EncodedStreamHasOnlyTruePreambles :
    [((0#16, 0#16, []) : U16 × U16 × List Byte), (0#16, 0#16, [])].flatMap (fun f => wireFrame f.1 f.2.1 f.2.2)
      = wireFrame 0#16 0#16 [] ++ [0x55#8, 0xAA#8, 0x55#8, 0xAA#8] ++ List.replicate 9 0#8 := by decide +kernel

theorem witness_EscRowsAppendTheirBytes : (0x10#8 : Byte) ≠ 0xAA#8 ∧ (0x10#8 : Byte) ≠ 0x1B#8 := by decide

/-- Flag clear and flag set; the byte that fills the window, where the first four bytes are shifted over. -/
theorem witness_DecodeStepConsumesOneByte : (body5.Inv ∧ body5.writeIndex = 5) ∧ (bodyMarked.Inv ∧ bodyMarked.writeIndex = 6) ∧
    (beforeFull.Inv ∧ beforeFull.state = .seekingPreamble ∧ beforeFull.cursor + 1 = beforeFull.cap) :=
  ⟨⟨inv_body5, by decide⟩, ⟨inv_bodyMarked, by decide⟩, inv_beforeFull, by decide, by decide⟩

/-- In the header (its marker at the last slot) and in the body. -/
theorem witness_EscapePrefixStoresMarker :
    ((header4 64).state ≠ .seekingPreamble ∧ (header4 64).unescaping = false ∧ (header4 64).cursor < (header4 64).cap) ∧
    (after17Least.state ≠ .seekingPreamble ∧ after17Least.unescaping = false ∧ after17Least.cursor < after17Least.cap) := by
  decide

/-- The completing byte of a header, a byte inside a body, the completing byte of a frame. -/
theorem witness_EscapedByteReplacesMarker :
    (headerMarked.Inv ∧ headerMarked.state ≠ .seekingPreamble ∧ headerMarked.unescaping = true) ∧
    (bodyMarked.Inv ∧ bodyMarked.state ≠ .seekingPreamble ∧ bodyMarked.unescaping = true) ∧
    (bodyLastMarked.Inv ∧ bodyLastMarked.state ≠ .seekingPreamble ∧ bodyLastMarked.unescaping = true) :=
  ⟨⟨inv_headerMarked, by decide, by decide⟩, ⟨inv_bodyMarked, by decide, by decide⟩, inv_bodyLastMarked, by decide, by decide⟩

/-- For `x = 10` and for `x = 1B`. -/
theorem witness_EscapePairIsOneLogicalByte : (body5.Inv ∧ body5.state ≠ .seekingPreamble ∧ body5.unescaping = false) ∧
    (0x10#8 : Byte) ≠ 0x1B#8 ∧ (after17.Inv ∧ after17.state ≠ .seekingPreamble ∧ after17.unescaping = false) :=
  ⟨⟨inv_body5, by decide, by decide⟩, by decide, inv_after17, by decide, by decide⟩

/-- A literal in the header, an escaped byte in the body, a literal in the body. -/
theorem witness_LogicalByteAccumulates :
    (header0.Inv ∧ header0.takesLogical 0xAA#8 ∧ header0.unescaping = false ∧ header0.logicalCount < 4) ∧
    (bodyMarked.Inv ∧ bodyMarked.takesLogical 0x1B#8 ∧ bodyMarked.unescaping = true ∧
      bodyMarked.logicalCount < 8 + bodyMarked.lengthField.toNat) ∧
    (body5.Inv ∧ body5.takesLogical 0x10#8 ∧ body5.logicalCount < 8 + body5.lengthField.toNat) :=
  ⟨⟨inv_header0, ⟨by decide, .inr (by decide)⟩, by decide, by decide⟩,
    ⟨inv_bodyMarked, ⟨by decide, .inl (by decide)⟩, by decide, by decide⟩,
    inv_body5, ⟨by decide, .inr (by decide)⟩, by decide⟩

/-- In the middle of the window and where the byte fills it. -/
theorem witness_PreambleMatchStartsHeader :
    (seek3.Inv ∧ seek3.state = .seekingPreamble ∧ seek3.completesPreamble 0xAA#8) ∧
    (seekFullMatch.Inv ∧ seekFullMatch.state = .seekingPreamble ∧ seekFullMatch.completesPreamble 0xAA#8 ∧
      seekFullMatch.cursor + 1 = seekFullMatch.cap) :=
  ⟨⟨inv_seek3, by decide, by decide, by decide, by decide, by decide, rfl⟩,
    inv_seekFullMatch, by decide, ⟨by decide, by decide, by decide, by decide, rfl⟩, by decide⟩

theorem witness_FullBufferKeepsLastFour : beforeFull.Inv ∧ beforeFull.state = .seekingPreamble ∧
    beforeFull.cursor + 1 = beforeFull.cap ∧ ¬ beforeFull.completesPreamble 0xAA#8 :=
  ⟨inv_beforeFull, by decide, by decide, by unfold State.completesPreamble; decide⟩

/-- An empty window, and a window that a wrong fourth byte leaves without a preamble. -/
theorem witness_SeekingAccumulates :
    ((idle 10).Inv ∧ (idle 10).state = .seekingPreamble ∧ (idle 10).cursor + 1 < (idle 10).cap ∧
      ¬ (idle 10).completesPreamble 0xAA#8) ∧
    (seek3.Inv ∧ seek3.state = .seekingPreamble ∧ seek3.cursor + 1 < seek3.cap ∧ ¬ seek3.completesPreamble 0x1B#8) :=
  ⟨⟨inv_idle, by decide, by decide, by unfold State.completesPreamble; decide⟩,
    inv_seek3, by decide, by decide, by unfold State.completesPreamble; decide⟩

/-- An empty window, and one that the preamble's third byte fills. -/
theorem witness_PreambleRowStartsHeader :
    ((idle 10).Inv ∧ (idle 10).state = .seekingPreamble ∧ ¬ (2 ≤ (idle 10).cursor ∧
      (idle 10).byteAt ((idle 10).cursor - 2) = 0x55#8 ∧ (idle 10).byteAt ((idle 10).cursor - 1) = 0xAA#8)) ∧
    (beforeFull.Inv ∧ beforeFull.state = .seekingPreamble ∧ ¬ (2 ≤ beforeFull.cursor ∧
      beforeFull.byteAt (beforeFull.cursor - 2) = 0x55#8 ∧ beforeFull.byteAt (beforeFull.cursor - 1) = 0xAA#8)) :=
  ⟨⟨inv_idle, by decide, by decide⟩, inv_beforeFull, by decide, by decide⟩

/-- A stream without the preamble, and one more byte that completes its first. -/
theorem witness_FirstPreambleIsFound : (idle 10).Inv ∧ (idle 10).state = .seekingPreamble ∧ (idle 10).cursor = 0 ∧
    ¬ ([0x55#8, 0xAA#8, 0x55#8, 0xAA#8] <:+: List.replicate 9 0x00#8 ++ [0x55#8, 0xAA#8, 0x55#8]) ∧
    [0x55#8, 0xAA#8, 0x55#8, 0xAA#8] <:+ List.replicate 9 0x00#8 ++ [0x55#8, 0xAA#8, 0x55#8] ++ [0xAA#8] :=
  ⟨inv_idle, by decide, by decide, by decide, by decide⟩

/-- The length at the bound: `3 + 10 = 13`. -/
theorem witness_GoodHeaderAccepted : (header4 13).Inv ∧ (header4 13).state = .readingHeader ∧
    (header4 13).takesLogical 0x25#8 ∧ (header4 13).logicalCount = 4 ∧
    (header4 13).byteAt 0 ^^^ (header4 13).byteAt 1 ^^^ (header4 13).byteAt 2 ^^^ (header4 13).byteAt 3 = 0x25#8 ∧
    (header4 13).lengthField.toNat + 10 ≤ (header4 13).cap :=
  ⟨inv_header4_13, by decide, ⟨by decide, .inr (by decide)⟩, by decide, by decide, by decide⟩

/-- A wrong checksum; a good checksum with the length one above the bound; the byte behind an escape prefix. -/
theorem witness_BadHeaderDiscarded :
    ((header4 64).Inv ∧ (header4 64).state = .readingHeader ∧ (header4 64).takesLogical 0x24#8 ∧ (header4 64).logicalCount = 4 ∧
      ¬ ((header4 64).byteAt 0 ^^^ (header4 64).byteAt 1 ^^^ (header4 64).byteAt 2 ^^^ (header4 64).byteAt 3 = 0x24#8 ∧
        (header4 64).lengthField.toNat + 10 ≤ (header4 64).cap)) ∧
    ((header4 12).Inv ∧ (header4 12).state = .readingHeader ∧ (header4 12).takesLogical 0x25#8 ∧ (header4 12).logicalCount = 4 ∧
      (header4 12).byteAt 0 ^^^ (header4 12).byteAt 1 ^^^ (header4 12).byteAt 2 ^^^ (header4 12).byteAt 3 = 0x25#8 ∧
      ¬ (header4 12).lengthField.toNat + 10 ≤ (header4 12).cap) ∧
    (headerMarked.Inv ∧ headerMarked.state = .readingHeader ∧ headerMarked.takesLogical 0x1B#8 ∧ headerMarked.logicalCount = 4 ∧
      headerMarked.byteAt 0 ^^^ headerMarked.byteAt 1 ^^^ headerMarked.byteAt 2 ^^^ headerMarked.byteAt 3 ≠ 0x1B#8) :=
  ⟨⟨inv_header4, by decide, ⟨by decide, .inr (by decide)⟩, by decide, by decide⟩,
    ⟨inv_header4_12, by decide, ⟨by decide, .inr (by decide)⟩, by decide, by decide, by decide⟩,
    inv_headerMarked, by decide, ⟨by decide, .inl (by decide)⟩, by decide, by decide⟩

/-- The reference header; the same with a wrong checksum; a length one above the bound of CAP = 64. -/
theorem witness_HeaderRowJudged : header0.Inv ∧ header0.state = .readingHeader ∧ header0.cursor = 0 ∧
    (headerChecksum 0x1234#16 54#16 = 0x10#8 ∧ (54#16).toNat + 10 ≤ header0.cap) ∧
    headerChecksum 0x1234#16 54#16 ≠ 0x11#8 ∧
    (headerChecksum 0x1234#16 55#16 = 0x11#8 ∧ ¬ (55#16).toNat + 10 ≤ header0.cap) :=
  ⟨inv_header0, by decide, by decide, by decide, by decide, by decide⟩

/-- A last byte that is a literal, at the least capacity, and one behind an escape prefix. -/
theorem witness_GoodFrameDelivered :
    (after17Least.Inv ∧ after17Least.completesFrame 0x22#8 ∧ after17Least.receivedCrc 0x22#8 = after17Least.computedCrc) ∧
    (bodyLastMarked.Inv ∧ bodyLastMarked.completesFrame 0x00#8 ∧
      bodyLastMarked.receivedCrc 0x00#8 = bodyLastMarked.computedCrc) :=
  ⟨⟨inv_after17Least, ⟨by decide, ⟨by decide, .inr (by decide)⟩, by decide⟩, by decide +kernel⟩,
    inv_bodyLastMarked, ⟨by decide, ⟨by decide, .inl (by decide)⟩, by decide⟩, by decide +kernel⟩

theorem witness_CorruptFrameDropped :
    (after17.Inv ∧ after17.completesFrame 0x23#8 ∧ after17.receivedCrc 0x23#8 ≠ after17.computedCrc) ∧
    (bodyLastMarked.Inv ∧ bodyLastMarked.completesFrame 0x1B#8 ∧
      bodyLastMarked.receivedCrc 0x1B#8 ≠ bodyLastMarked.computedCrc) :=
  ⟨⟨inv_after17, ⟨by decide, ⟨by decide, .inr (by decide)⟩, by decide⟩, by decide +kernel⟩,
    inv_bodyLastMarked, ⟨by decide, ⟨by decide, .inl (by decide)⟩, by decide⟩, by decide +kernel⟩

/-- A CRC that agrees and one that does not. -/
theorem witness_BodyRowJudged : body5.Inv ∧ body5.state = .readingBody ∧ body5.cursor = 5 ∧ body5.unescaping = false ∧
    [0x10#8, 0xAA#8, 0x1B#8].length = body5.lengthField.toNat ∧
    0x2215C33D#32 = frameCrc (body5.bytesAt 0 5) [0x10#8, 0xAA#8, 0x1B#8] ∧
    0x2315C33D#32 ≠ frameCrc (body5.bytesAt 0 5) [0x10#8, 0xAA#8, 0x1B#8] :=
  ⟨inv_body5, by decide, by decide, by decide, by decide, by decide +kernel, by decide +kernel⟩

/-- Each of the six rows is the one selected somewhere. -/
theorem witness_OneWireRowPerByte :
    (seek3.Inv ∧ rowPreamble 0xAA#8 seek3 = true) ∧ (seek3.Inv ∧ rowSeekRaw 0x1B#8 seek3 = true) ∧
    (beforeFull.Inv ∧ rowSeekRawFull 0xAA#8 beforeFull = true) ∧ (body5.Inv ∧ rowEscapePrefix 0x1B#8 body5 = true) ∧
    (body5.Inv ∧ rowLiteral 0xAA#8 body5 = true) ∧ (bodyMarked.Inv ∧ rowEscaped 0x1B#8 bodyMarked = true) :=
  ⟨⟨inv_seek3, by decide +kernel⟩, ⟨inv_seek3, by decide +kernel⟩, ⟨inv_beforeFull, by decide +kernel⟩,
    ⟨inv_body5, by decide⟩, ⟨inv_body5, by decide⟩, inv_bodyMarked, by decide⟩

/-- A call from each of the three states. -/
theorem witness_TransitionsAsTabulated :
    (seek3.Inv ∧ ∃ t, exec (.decodeStep 0xAA#8) seek3 = .next t) ∧
    (beforeFull.Inv ∧ ∃ t, exec (.decodeStep 0xAA#8) beforeFull = .next t) ∧
    ((header4 12).Inv ∧ ∃ t, exec (.decodeStep 0x25#8) (header4 12) = .next t) ∧
    (after17.Inv ∧ ∃ t, exec (.decodeStep 0x22#8) after17 = .next t) :=
  ⟨⟨inv_seek3, next_of (by decide +kernel)⟩, ⟨inv_beforeFull, next_of (by decide +kernel)⟩,
    ⟨inv_header4_12, next_of (by decide +kernel)⟩, inv_after17, next_of (by decide +kernel)⟩

theorem witness_OnlyValidFramesEscape : ∃ t, after17.Inv ∧ exec (.decodeStep 0x22#8) after17 = .next t ∧
    t.result = .frame ⟨0x1234#16, 3#16, [0x10#8, 0xAA#8, 0x1B#8]⟩ := by
  obtain ⟨t, ht⟩ := next_of (o := exec (.decodeStep 0x22#8) after17) (by decide +kernel)
  have h := test_decode_step_frame.1
  rw [resultOf, ht] at h
  exact ⟨t, inv_after17, ht, Option.some.inj h⟩

/-- A buffer that differs from `body5`'s at index 5 and above. -/
theorem witness_StaleBytesUnobservable : body5.Inv ∧
    { body5 with buf := mem [0x34#8, 0x12#8, 0x03#8, 0x00#8, 0x25#8, 0xEE#8, 0xEE#8] }.Inv ∧
    (∀ k, k < body5.cursor →
      Memory.read (mem [0x34#8, 0x12#8, 0x03#8, 0x00#8, 0x25#8, 0xEE#8, 0xEE#8]) k = body5.buf.read k) ∧
    (Instr.rxPair 0x10#8).wellFormed = true ∧ unassigned (.rxPair 0x10#8) = false :=
  ⟨inv_body5, inv_of (by decide +kernel), by decide, by decide, by decide⟩

/-- Every logical byte sent as a pair, with a prefix pending and without; and a stream of prefixes alone. -/
theorem witness_ResyncWithinCapacity :
    (header0.Inv ∧ header0.cap - 1 ≤ (List.replicate 63 0x1B#8).length ∧
      unescape ((if header0.unescaping then [0x1B#8] else []) ++ List.replicate 126 0x1B#8)
        = some (List.replicate 63 0x1B#8)) ∧
    (headerMarked.Inv ∧ headerMarked.cap - 1 ≤ (List.replicate 63 0x1B#8).length ∧
      unescape ((if headerMarked.unescaping then [0x1B#8] else []) ++ List.replicate 125 0x1B#8)
        = some (List.replicate 63 0x1B#8)) ∧
    2 * (header0.cap - 1) ≤ (List.replicate 126 0x1B#8).length :=
  ⟨⟨inv_header0, by decide, by decide +kernel⟩, ⟨inv_headerMarked, by decide, by decide +kernel⟩, by decide +kernel⟩

theorem witness_NineZerosAreAFrame : header0.Inv ∧ header0.state = .readingHeader ∧ header0.cursor = 0 :=
  ⟨inv_header0, by decide, by decide⟩

/-- The empty frame at CAP = 10, and a payload of 54 bytes at CAP = 64: both at the bound. -/
theorem witness_WholeFrameDelivered :
    ((idle 10).Inv ∧ (idle 10).state = .seekingPreamble ∧ (idle 10).cursor = 0 ∧ ([] : List Byte).length = (0#16).toNat ∧
      (0#16).toNat + 10 ≤ (idle 10).cap) ∧
    ((idle 64).Inv ∧ (List.replicate 54 0xAA#8).length = (54#16).toNat ∧ (54#16).toNat + 10 ≤ (idle 64).cap) :=
  ⟨⟨inv_idle, by decide, by decide, by decide, by decide⟩, inv_idle64, by decide, by decide⟩

theorem witness_TooLongFrameRejected : (idle 10).Inv ∧ (idle 10).state = .seekingPreamble ∧ (idle 10).cursor = 0 ∧
    [0x55#8].length = (1#16).toNat ∧ (idle 10).cap < (1#16).toNat + 10 :=
  ⟨inv_idle, by decide, by decide, by decide, by decide⟩

theorem witness_EncodeThenDecodeRoundTrip : [0x10#8, 0xAA#8, 0x1B#8].length = (3#16).toNat ∧ (3#16).toNat ≤ (idle 10).cap ∧
    (idle 64).Inv ∧ (idle 64).state = .seekingPreamble ∧ (idle 64).cursor = 0 ∧ (3#16).toNat + 10 ≤ (idle 64).cap :=
  ⟨by decide, by decide, inv_idle64, by decide, by decide, by decide⟩

/-- `dest_capacity` exactly the length. -/
theorem witness_ReadCopiesPayload : after17.Inv ∧ after17.completesFrame 0x22#8 ∧
    after17.receivedCrc 0x22#8 = after17.computedCrc ∧ after17.lengthField.toNat ≤ 3 :=
  ⟨inv_after17, ⟨by decide, ⟨by decide, .inr (by decide)⟩, by decide⟩, by decide +kernel, by decide⟩

/-- `dest_capacity` one below the length. -/
theorem witness_ReadLosesFrameThatDoesNotFit : after17.Inv ∧ after17.completesFrame 0x22#8 ∧
    after17.receivedCrc 0x22#8 = after17.computedCrc ∧ 2 < after17.lengthField.toNat :=
  ⟨inv_after17, ⟨by decide, ⟨by decide, .inr (by decide)⟩, by decide⟩, by decide +kernel, by decide⟩

/-- No frame ends, and a frame ends whose CRC disagrees. -/
theorem witness_ReadWithoutFrameFails :
    ((idle 10).Inv ∧ ¬ ((idle 10).completesFrame 0x55#8 ∧ (idle 10).receivedCrc 0x55#8 = (idle 10).computedCrc)) ∧
    (after17.Inv ∧ ¬ (after17.completesFrame 0x23#8 ∧ after17.receivedCrc 0x23#8 = after17.computedCrc)) :=
  ⟨⟨inv_idle, fun h => absurd h.1.1 (by decide)⟩, inv_after17, fun h => absurd h.2 (by decide +kernel)⟩

/-- Contents that end in three bytes of a preamble, and none given. -/
theorem witness_InitialContentsUnobservable :
    (∃ s, State.construct 10 (List.replicate 7 0xEE#8 ++ [0x55#8, 0xAA#8, 0x55#8]) = some s) ∧
    (∃ t, State.construct 10 [] = some t) ∧
    ∀ i ∈ [Instr.decodeStep 0xAA#8, .rxPreamble, .encode 0#16 0#16 []], i.wellFormed = true ∧ unassigned i = false :=
  ⟨⟨_, rfl⟩, ⟨_, rfl⟩, by decide⟩

end Sys2Proof.Tests
end

namespace Sys2Proof.Machine

/-! ### A returned frame is valid (10_state.md R20 item 3) -/

theorem inv_startOp {s : State} (h : s.Inv) : (startOp s).Inv :=
  ⟨h.capacity, h.bufCanonical, h.bufInRange, h.destCanonical, h.written, h.seeking, h.header, h.headerMarked, h.body,
    h.bodyMarked, h.accepted, h.marker⟩

theorem bytesAt_add (s : State) (i m n : Nat) : s.bytesAt i (m + n) = s.bytesAt i m ++ s.bytesAt (i + m) n := by
  simp [State.bytesAt, List.range_add, Nat.add_assoc]

@[simp] theorem bytesAt_length (s : State) (i n : Nat) : (s.bytesAt i n).length = n := by simp [State.bytesAt]

@[simp] theorem bytesAt_resync (s : State) (i n : Nat) : (resync s).bytesAt i n = s.bytesAt i n := rfl

/-- R136: an accepted header is the logical header of the fields it holds. -/
theorem bytesAt_of_headerAccepted {s : State} (h : s.HeaderAccepted) :
    s.bytesAt 0 5 = headerBytes s.flagsField s.lengthField := by
  have e : headerBytes s.flagsField s.lengthField =
      bytesLE16 s.flagsField ++ bytesLE16 s.lengthField ++ [s.byteAt 4] := by rw [← h.1]; rfl
  rw [e, State.flagsField, State.lengthField, bytes_le16, bytes_le16]
  rfl

/-- R146: the last four logical bytes of a frame are its received CRC, least significant byte first. -/
theorem bytesAt_afterByte_crc {s : State} {b : Byte} (hw : s.writeIndex = 8 + s.lengthField.toNat) :
    (afterByte b s).bytesAt (5 + s.lengthField.toNat) 4 = bytesLE32 (s.receivedCrc b) := by
  have hslice : (afterByte b s).bytesAt (5 + s.lengthField.toNat) 4 =
      [5, 6, 7, 8].map fun k => (afterByte b s).byteAt (k + s.lengthField.toNat) := by
    simp [State.bytesAt, List.range_succ, Nat.add_right_comm 5]
  simp only [hslice, State.receivedCrc, bytes_le32, List.map_cons, List.map_nil]
  rw [byteAt_afterByte_other (by omega), byteAt_afterByte_other (by omega), byteAt_afterByte_other (by omega), ← hw,
    byteAt_afterByte_same]

/-- R148: the only decode step that returns a frame is the one that completes it with an agreeing CRC. -/
theorem decodeStepCore_eq_frame {s t : State} {b : Byte} {f : Frame} (h : s.Inv)
    (e : decodeStepCore b s = .ok (t, some f)) :
    s.completesFrame b ∧ s.receivedCrc b = s.computedCrc ∧ f = s.bufferedFrame ∧ t = resync (afterByte b s) := by
  cases hs : s.state with
  | seekingPreamble =>
    obtain ⟨hmatch, hfull, hkeep⟩ := decodeStepCore_of_seeking b h hs
    by_cases hp : s.completesPreamble b
    · simp [hmatch hp] at e
    · by_cases hc : s.cursor + 1 = s.cap
      · simp [hfull hp hc] at e
      · simp [hkeep hp hc] at e
  | readingHeader =>
    by_cases hb : s.takesLogical b
    · simp [decodeStepCore_of_header h hs hb] at e
    · simp [decodeStepCore_of_marker h (by simp [hs]) hb] at e
  | readingBody =>
    by_cases hb : s.takesLogical b
    · rw [decodeStepCore_of_body h hs hb] at e
      by_cases hw : s.writeIndex = 8 + s.lengthField.toNat
      · by_cases hcrc : s.receivedCrc b = s.computedCrc
        · simp only [hw, if_true, judgeBody, crcOk, hcrc, beq_self_eq_true, Except.ok.injEq, Prod.mk.injEq,
            Option.some.injEq] at e
          exact ⟨⟨hs, hb, hw⟩, hcrc, e.2.symm, e.1.symm⟩
        · simp [hw, judgeBody, crcOk, hcrc] at e
      · simp [hw] at e
    · simp [decodeStepCore_of_marker h (by simp [hs]) hb] at e

/-- R51: at its completion with an agreeing CRC the buffer holds the frame's logical bytes. -/
theorem bytesAt_afterByte_frame {s : State} {b : Byte} (h : s.Inv) (hf : s.completesFrame b)
    (hcrc : s.receivedCrc b = s.computedCrc) :
    (afterByte b s).bytesAt 0 (9 + s.lengthField.toNat) =
      logicalFrame s.flagsField s.lengthField (s.bytesAt 5 s.lengthField.toNat) := by
  obtain ⟨hs, -, hw⟩ := hf
  change s.writeIndex = 8 + s.lengthField.toNat at hw
  have hsplit : 9 + s.lengthField.toNat = 5 + s.lengthField.toNat + 4 := by omega
  have hheader := bytesAt_of_headerAccepted (h.accepted hs)
  rw [hsplit, bytesAt_add, bytesAt_add, Nat.zero_add, Nat.zero_add, bytesAt_afterByte_crc hw, hcrc,
    bytesAt_afterByte (by omega), bytesAt_afterByte (by omega), State.computedCrc, hheader]
  rfl

/-- The result of a `decode_step` is a frame only where its core answers one. -/
theorem decodeByte_eq_frame {s t : State} {b : Byte} {f : Frame} (e : decodeByte b s = .next t)
    (hr : t.result = .frame f) : ∃ u, decodeStepCore b (startOp s) = .ok (u, some f) ∧ t = ret (.frame f) u := by
  unfold decodeByte at e
  split at e
  · rename_i u r hcore
    cases r with
    | none => cases e; cases hr
    | some g => cases e; cases hr; exact ⟨u, hcore, rfl⟩
  · cases e

/-- Settles O43: a frame is returned only by the completing step, whose header passed R136 and R137 and whose CRC agrees. -/
theorem onlyValidFramesEscape : Obligations.OnlyValidFramesEscape := by
  intro s t b f h e hr
  obtain ⟨u, hcore, rfl⟩ := decodeByte_eq_frame e hr
  obtain ⟨hf, hcrc, rfl, rfl⟩ := decodeStepCore_eq_frame (inv_startOp h) hcore
  have hbytes := bytesAt_afterByte_frame (inv_startOp h) hf hcrc
  exact ⟨bytesAt_length _ _ _, (h.accepted hf.1).2, hbytes, rfl, rfl⟩

end Sys2Proof.Machine

namespace Sys2Proof.Machine

/-! ### The one-byte rows of format WIRE are `decode_step` (30_encoding.md R57) -/

theorem inSeek_iff {s : State} : inSeek s = true ↔ s.state = .seekingPreamble ∧ s.unescaping = false := by
  simp [inSeek]

theorem inFrame_iff {u : Bool} {s : State} :
    inFrame u s = true ↔ s.state ≠ .seekingPreamble ∧ s.unescaping = u := by
  simp [inFrame]

/-- A verdict other than a match: the byte was appended, no preamble stands in the window, and `full` says that it filled. -/
theorem seekVerdict_eq_some {b : Byte} {s : State} {v : SeekVerdict} (hm : v ≠ .matched) (h : seekVerdict b s = some v) :
    ∃ t, append b s = .ok t ∧ preambleSeen t = .ok false ∧ (v = .full ↔ t.cursor = t.cap) := by
  unfold seekVerdict at h
  split at h
  · rename_i t happend
    split at h
    · exact absurd (Option.some.inj h).symm hm
    · refine ⟨t, happend, ‹_›, ?_⟩
      split at h <;> cases h <;> simp [*]
    · cases h
  · cases h

/-- A decode step while seeking is the append and the search (R120): phase 1 does not run. -/
theorem decodeByte_of_seeking {b : Byte} {s : State} (hs : s.state = .seekingPreamble) :
    decodeByte b s = quiet (do let t ← append b (takeRx (startOp s)); seekLogic t) := by
  cases ha : append b (takeRx (startOp s)) with
  | error f => simp [decodeByte, decodeStepCore, unescapePhase, hs, ha, quiet, bind, Except.bind, pure, Except.pure]
  | ok t =>
    have ht : t.state = .seekingPreamble := by rw [(append_eq_ok.1 ha).2]; exact hs
    cases hl : seekLogic t <;>
      simp [decodeByte, decodeStepCore, unescapePhase, stateLogic, hs, ht, ha, hl, quiet, frameResult, bind, Except.bind,
        pure, Except.pure]

/-- The append does not depend on the receive position or the labels. -/
theorem append_takeRx_startOp {b : Byte} {s t : State} (h : append b s = .ok t) :
    append b (takeRx (startOp s)) = .ok (takeRx (startOp t)) := by
  obtain ⟨hc, rfl⟩ := append_eq_ok.1 h
  exact append_eq_ok.2 ⟨hc, rfl⟩

/-- R127, R128 where no preamble stands in the window. -/
theorem seekLogic_of_unseen {s : State} (h : preambleSeen s = .ok false) :
    seekLogic s = if s.cursor = s.cap then shiftWindow s else .ok s := by
  simp [seekLogic, h, bind, Except.bind, pure, Except.pure]

/-- R127, R128: what the arrival of a raw byte does that completes no preamble. -/
theorem decodeByte_of_verdict {b : Byte} {s : State} {v : SeekVerdict} (hs : s.state = .seekingPreamble)
    (hm : v ≠ .matched) (h : seekVerdict b s = some v) :
    ∃ t, append b (takeRx (startOp s)) = .ok t ∧
      decodeByte b s = quiet (if v = .full then shiftWindow t else .ok t) := by
  obtain ⟨t, happend, hunseen, hfull⟩ := seekVerdict_eq_some hm h
  have hunseen' : preambleSeen (takeRx (startOp t)) = .ok false := hunseen
  refine ⟨_, append_takeRx_startOp happend, ?_⟩
  rw [decodeByte_of_seeking hs, append_takeRx_startOp happend]
  simp only [bind, Except.bind, seekLogic_of_unseen hunseen', hfull]
  rfl

/-- R128: the row's own rule is the step's. -/
theorem execRxSeekRaw_eq (b : Byte) (s : State) : execRxSeekRaw b s = decodeByte b s := by
  unfold execRxSeekRaw
  split
  · rename_i hrow
    simp only [rowSeekRaw, Bool.and_eq_true, inSeek_iff, decide_eq_true_eq] at hrow
    obtain ⟨⟨hs, -⟩, hverdict⟩ := hrow
    obtain ⟨t, happend, hstep⟩ := decodeByte_of_verdict hs (by decide) hverdict
    rw [hstep, happend]
    rfl
  · rfl

/-- R127. -/
theorem execRxSeekRawFull_eq (b : Byte) (s : State) : execRxSeekRawFull b s = decodeByte b s := by
  unfold execRxSeekRawFull
  split
  · rename_i hrow
    simp only [rowSeekRawFull, Bool.and_eq_true, inSeek_iff, decide_eq_true_eq] at hrow
    obtain ⟨⟨hs, -⟩, hverdict⟩ := hrow
    obtain ⟨t, happend, hstep⟩ := decodeByte_of_verdict hs (by decide) hverdict
    rw [hstep, happend]
    rfl
  · rfl

/-- R122. -/
theorem execRxEscapePrefix_eq (s : State) : execRxEscapePrefix s = decodeByte Config.escape s := by
  unfold execRxEscapePrefix
  split
  · rename_i hrow
    simp only [rowEscapePrefix, Bool.and_eq_true, inFrame_iff] at hrow
    obtain ⟨⟨hs, hu⟩, -⟩ := hrow
    have hback : stepBack (takeRx (startOp s)) = .ok (takeRx (startOp s)) := stepBack_eq_ok.2 (.inl ⟨hu, rfl⟩)
    cases hm : storeMarker (takeRx (startOp s)) <;>
      simp [decodeByte, decodeStepCore, unescapePhase, hs, hu, hback, hm, quiet, frameResult, bind, Except.bind, pure,
        Except.pure]
  · rfl

theorem decodeByte_eq_delivered (b : Byte) (s : State) :
    decodeByte b s = delivered (decodeStepCore b (startOp s)) := by
  cases hstep : decodeStepCore b (startOp s) <;> simp only [decodeByte, delivered, hstep]

/-- R121, R124: in a frame a byte that is no escape prefix is a logical byte, after the step back. -/
theorem decodeStepCore_of_logical {b : Byte} {s : State} (hs : s.state ≠ .seekingPreamble)
    (hb : ¬ (b = Config.escape ∧ s.unescaping = false)) :
    decodeStepCore b s = (do let t ← stepBack (takeRx s); logicalByte b t) := by
  cases hback : stepBack (takeRx s) <;>
    simp only [decodeStepCore, unescapePhase, logicalByte, takeRx_state, takeRx_unescaping, hs, hb, hback, if_false,
      Bool.false_eq_true, bind, Except.bind, pure, Except.pure]

/-- R124. -/
theorem execRxLiteral_eq (b : Byte) (s : State) : execRxLiteral b s = decodeByte b s := by
  unfold execRxLiteral
  split
  · rename_i hrow
    simp only [rowLiteral, Bool.and_eq_true, inFrame_iff, bne_iff_ne] at hrow
    obtain ⟨⟨hs, hu⟩, hb⟩ := hrow
    have hback : stepBack (takeRx (startOp s)) = .ok (takeRx (startOp s)) := stepBack_eq_ok.2 (.inl ⟨hu, rfl⟩)
    rw [decodeByte_eq_delivered, decodeStepCore_of_logical (s := startOp s) hs (fun h => hb h.1), hback]
    rfl
  · rfl

/-- R121. -/
theorem execRxEscaped_eq (b : Byte) (s : State) : execRxEscaped b s = decodeByte b s := by
  unfold execRxEscaped
  split
  · rename_i hrow
    obtain ⟨hs, hu⟩ := inFrame_iff.1 hrow
    rw [decodeByte_eq_delivered, decodeStepCore_of_logical (s := startOp s) hs
      (fun h => absurd (hu.symm.trans h.2) (by decide))]
  · rfl

end Sys2Proof.Machine

namespace Sys2Proof.Machine

/-! ### Scratch bytes at or above the cursor are never observed (10_state.md R24 item 3, 20_memory.md R38)

Two runs are compared: `StaleApart` relates their states, every update of the model keeps it, and every operation answers both
alike. -/

/-- `s'` differs from `s` only in scratch bytes at or above the cursor. -/
def StaleApart (s s' : State) : Prop :=
  ∃ m : Memory, s' = { s with buf := m } ∧ ∀ k, k < s.cursor → m.read k = s.buf.read k

/-- Both outcomes are next states, and they differ only in stale scratch bytes. -/
def AnswerAlike (o o' : Host.Outcome State Fault Refusal) : Prop :=
  ∃ t t', o = .next t ∧ o' = .next t' ∧ StaleApart t t'

/-- An update that neither reads nor writes the scratch buffer and does not raise the cursor. -/
structure IgnoresBuf (f : State → State) : Prop where
  comm : ∀ (s : State) (m : Memory), f { s with buf := m } = { f s with buf := m }
  cursor_le : ∀ s : State, (f s).cursor ≤ s.cursor

namespace IgnoresBuf

theorem buf {f : State → State} (hf : IgnoresBuf f) (s : State) : (f s).buf = s.buf := by
  rw [show f s = { f s with buf := s.buf } from hf.comm s s.buf]

theorem startOp : IgnoresBuf startOp := ⟨fun _ _ => rfl, fun _ => le_rfl⟩

theorem ret (r : Result) : IgnoresBuf (ret r) := ⟨fun _ _ => rfl, fun _ => le_rfl⟩

theorem resync : IgnoresBuf resync := ⟨fun _ _ => rfl, fun _ => Nat.zero_le _⟩

theorem copyToDest (p : List Byte) : IgnoresBuf (copyToDest p) := ⟨fun _ _ => rfl, fun _ => le_rfl⟩

theorem raiseEvent (e : Event) : IgnoresBuf (raiseEvent e) := by
  constructor
  · intro s m; cases e <;> rfl
  · intro s; cases e <;> simp [Machine.raiseEvent, eventEffect]

theorem txBytes (bs : List Byte) : IgnoresBuf (txBytes bs) :=
  ⟨fun s m => by simp only [txBytes_eq], fun s => by rw [txBytes_eq]⟩

theorem txEscaped (x : Byte) : IgnoresBuf (txEscaped x) :=
  ⟨fun s m => by simp only [txEscaped_eq], fun s => by rw [txEscaped_eq]⟩

theorem txEscapedAll (xs : List Byte) : IgnoresBuf (txEscapedAll xs) :=
  ⟨fun s m => by simp only [txEscapedAll_eq], fun s => by rw [txEscapedAll_eq]⟩

end IgnoresBuf

theorem writeIndex_le_cursor (s : State) : s.writeIndex ≤ s.cursor := by
  unfold State.writeIndex
  split <;> omega

namespace StaleApart

variable {s s' : State}

theorem map {f : State → State} (hf : IgnoresBuf f) (e : StaleApart s s') : StaleApart (f s) (f s') := by
  obtain ⟨m, rfl, hm⟩ := e
  exact ⟨m, hf.comm s m, fun k hk => by rw [hf.buf]; exact hm k (hk.trans_le (hf.cursor_le s))⟩

theorem answerAlike {f : State → State} (hf : IgnoresBuf f) (e : StaleApart s s') :
    AnswerAlike (.next (f s)) (.next (f s')) :=
  ⟨_, _, rfl, rfl, e.map hf⟩

/-! #### What two such states have in common -/

theorem cap (e : StaleApart s s') : s'.cap = s.cap := by obtain ⟨m, rfl, -⟩ := e; rfl
theorem state (e : StaleApart s s') : s'.state = s.state := by obtain ⟨m, rfl, -⟩ := e; rfl
theorem cursor (e : StaleApart s s') : s'.cursor = s.cursor := by obtain ⟨m, rfl, -⟩ := e; rfl
theorem unescaping (e : StaleApart s s') : s'.unescaping = s.unescaping := by obtain ⟨m, rfl, -⟩ := e; rfl
theorem writeIndex (e : StaleApart s s') : s'.writeIndex = s.writeIndex := by obtain ⟨m, rfl, -⟩ := e; rfl
theorem takesLogical (e : StaleApart s s') (b : Byte) : s'.takesLogical b ↔ s.takesLogical b := by
  obtain ⟨m, rfl, -⟩ := e; rfl

theorem read (e : StaleApart s s') {k : Nat} (hk : k < s.cursor) : s'.buf.read k = s.buf.read k := by
  obtain ⟨m, rfl, hm⟩ := e
  exact hm k hk

theorem byteAt (e : StaleApart s s') {k : Nat} (hk : k < s.cursor) : s'.byteAt k = s.byteAt k := by
  simp only [State.byteAt, Memory.byte, e.read hk]

theorem bytesAt (e : StaleApart s s') {i n : Nat} (h : i + n ≤ s.cursor) : s'.bytesAt i n = s.bytesAt i n := by
  apply List.map_congr_left
  intro k hk
  have := List.mem_range.1 hk
  exact e.byteAt (by omega)

theorem flagsField (e : StaleApart s s') (h : 4 ≤ s.cursor) : s'.flagsField = s.flagsField := by
  simp only [State.flagsField, e.byteAt (show 0 < s.cursor by omega), e.byteAt (show 1 < s.cursor by omega)]

theorem lengthField (e : StaleApart s s') (h : 4 ≤ s.cursor) : s'.lengthField = s.lengthField := by
  simp only [State.lengthField, e.byteAt (show 2 < s.cursor by omega), e.byteAt (show 3 < s.cursor by omega)]

theorem bufferedFrame (e : StaleApart s s') (h : 5 + s.lengthField.toNat ≤ s.cursor) :
    s'.bufferedFrame = s.bufferedFrame := by
  simp only [State.bufferedFrame, e.flagsField (by omega), e.lengthField (by omega), e.bytesAt h]

theorem computedCrc (e : StaleApart s s') (h : 5 + s.lengthField.toNat ≤ s.cursor) : s'.computedCrc = s.computedCrc := by
  simp only [State.computedCrc, e.lengthField (by omega), e.bytesAt h, e.bytesAt (show 0 + 5 ≤ s.cursor by omega)]

theorem receivedCrc (e : StaleApart s s') (b : Byte) (h : 8 + s.lengthField.toNat ≤ s.cursor) :
    s'.receivedCrc b = s.receivedCrc b := by
  unfold State.receivedCrc
  rw [e.lengthField (by omega), e.byteAt (by omega), e.byteAt (by omega), e.byteAt (by omega)]

theorem completesPreamble (e : StaleApart s s') (b : Byte) : s'.completesPreamble b ↔ s.completesPreamble b := by
  unfold State.completesPreamble
  rw [e.cursor]
  refine and_congr_right fun h3 => ?_
  rw [e.byteAt (by omega), e.byteAt (by omega), e.byteAt (by omega)]

/-! #### What the decode path writes -/

/-- A byte written at or below the cursor, the cursor then behind it. -/
theorem read_write {i k : Nat} (e : StaleApart s s') (v : Byte) (hi : i ≤ s.cursor) (hk : k < i + 1) :
    (s'.buf.write i v).read k = (s.buf.write i v).read k := by
  rw [Memory.read_write, Memory.read_write]
  split
  · rfl
  · exact e.read (by omega)

theorem afterByte (e : StaleApart s s') (b : Byte) : StaleApart (afterByte b s) (afterByte b s') := by
  have hread := fun k => e.read_write (k := k) b (writeIndex_le_cursor s)
  obtain ⟨m, rfl, -⟩ := e
  exact ⟨_, rfl, hread⟩

theorem afterMarker (e : StaleApart s s') : StaleApart (afterMarker s) (afterMarker s') := by
  have hread := fun k => e.read_write (k := k) Config.escape le_rfl
  obtain ⟨m, rfl, -⟩ := e
  exact ⟨_, rfl, hread⟩

/-- R127: the shift moves the four bytes below a cursor that stands at the capacity. -/
theorem shifted (e : StaleApart s s') (h10 : 10 ≤ s.cap) (hc : s.cursor = s.cap) :
    StaleApart { s with buf := shiftedBuf s, cursor := 4 } { s' with buf := shiftedBuf s', cursor := 4 } := by
  have hread : ∀ k, k < 4 → (shiftedBuf s').read k = (shiftedBuf s).read k := fun k hk => by
    rw [read_shiftedBuf, read_shiftedBuf, e.cap, e.byteAt (by omega), e.byteAt (by omega), e.byteAt (by omega),
      e.byteAt (by omega), e.read (by omega)]
  obtain ⟨m, rfl, -⟩ := e
  exact ⟨_, rfl, hread⟩

/-! #### What the verdicts and `read` do with it -/

/-- R136 to R139: the verdict on a header reads the capacity alone. -/
theorem judgeHeader (e : StaleApart s s') (flags length : U16) (hcs : Byte) :
    StaleApart (judgeHeader flags length hcs s) (judgeHeader flags length hcs s') := by
  unfold Machine.judgeHeader
  rw [e.cap]
  split
  · obtain ⟨m, rfl, hm⟩ := e
    exact ⟨m, rfl, hm⟩
  · exact e.map (.raiseEvent _)

/-- R147 to R149: the verdict on a frame is the same for both, and both resynchronise. -/
theorem judgeBody (e : StaleApart s s') (rxCrc calcCrc : U32) (f : Frame) :
    (judgeBody rxCrc calcCrc f s').2 = (judgeBody rxCrc calcCrc f s).2 ∧
      StaleApart (judgeBody rxCrc calcCrc f s).1 (judgeBody rxCrc calcCrc f s').1 := by
  unfold Machine.judgeBody
  split
  · exact ⟨rfl, e.map .resync⟩
  · exact ⟨rfl, (e.map .resync).map (.raiseEvent _)⟩

theorem readFrame (e : StaleApart s s') (n : Nat) (r : FrameResult) :
    StaleApart (readFrame n r s) (readFrame n r s') := by
  cases r with
  | none => exact e.map (.ret _)
  | some f =>
    by_cases hsmall : destTooSmall f.length n = true
    · simpa only [Machine.readFrame, if_pos hsmall] using e.map (.raiseEvent _)
    · simpa only [Machine.readFrame, if_neg hsmall] using (e.map (.copyToDest f.payload)).map (.ret .success)

end StaleApart

/-! #### The decode step -/

theorem decodeStepCore_inv {s t : State} {b : Byte} {r : FrameResult} (h : s.Inv)
    (hstep : decodeStepCore b s = .ok (t, r)) : t.Inv := by
  obtain ⟨u, q, e, hi, -⟩ := decodeStepCore_keeps b h
  obtain ⟨rfl, -⟩ := Prod.mk.inj (Except.ok.inj (hstep.symm.trans e))
  exact hi

section
variable {s s' : State} (b : Byte) (h : s.Inv) (h' : s'.Inv) (e : StaleApart s s')
include h h' e

theorem decodeStepCore_seeking_alike (hs : s.state = .seekingPreamble) :
    ∃ t t', decodeStepCore b s = .ok (t, none) ∧ decodeStepCore b s' = .ok (t', none) ∧ StaleApart t t' := by
  obtain ⟨hmatch, hfull, hkeep⟩ := decodeStepCore_of_seeking b h hs
  obtain ⟨hmatch', hfull', hkeep'⟩ := decodeStepCore_of_seeking b h' (e.state.trans hs)
  simp only [e.completesPreamble, e.cap, e.cursor] at hmatch' hfull' hkeep'
  by_cases hp : s.completesPreamble b
  · refine ⟨_, _, hmatch hp, hmatch' hp, ?_⟩
    exact (e.afterByte b).map (f := fun s => { s with state := .readingHeader, cursor := 0 })
      ⟨fun _ _ => rfl, fun _ => Nat.zero_le _⟩
  · by_cases hc : s.cursor + 1 = s.cap
    · have hw := writeIndex_clear (h.seeking hs).1
      exact ⟨_, _, hfull hp hc, hfull' hp hc, (e.afterByte b).shifted h.capacity (by simp [hw, hc])⟩
    · exact ⟨_, _, hkeep hp hc, hkeep' hp hc, e.afterByte b⟩

theorem decodeStepCore_header_alike (hs : s.state = .readingHeader) (hb : s.takesLogical b) :
    ∃ t t', decodeStepCore b s = .ok (t, none) ∧ decodeStepCore b s' = .ok (t', none) ∧ StaleApart t t' := by
  have hle := writeIndex_le_cursor s
  refine ⟨_, _, decodeStepCore_of_header h hs hb,
    decodeStepCore_of_header h' (e.state.trans hs) ((e.takesLogical b).2 hb), ?_⟩
  rw [e.writeIndex]
  split
  · rw [e.flagsField (by omega), e.lengthField (by omega)]
    exact (e.afterByte b).judgeHeader _ _ _
  · exact e.afterByte b

theorem decodeStepCore_body_alike (hs : s.state = .readingBody) (hb : s.takesLogical b) :
    ∃ t t' r, decodeStepCore b s = .ok (t, r) ∧ decodeStepCore b s' = .ok (t', r) ∧ StaleApart t t' := by
  have hle := writeIndex_le_cursor s
  have hi := h.bodyIndex hs
  have hstep := decodeStepCore_of_body h hs hb
  have hstep' := decodeStepCore_of_body h' (e.state.trans hs) ((e.takesLogical b).2 hb)
  rw [e.writeIndex, e.lengthField (by omega)] at hstep'
  by_cases hw : s.writeIndex = 8 + s.lengthField.toNat
  · rw [if_pos hw] at hstep hstep'
    rw [e.receivedCrc b (by omega), e.computedCrc (by omega), e.bufferedFrame (by omega)] at hstep'
    obtain ⟨hr, hapart⟩ := (e.afterByte b).judgeBody (s.receivedCrc b) s.computedCrc s.bufferedFrame
    exact ⟨_, _, _, hstep, hstep'.trans (congrArg Except.ok (Prod.ext rfl hr)), hapart⟩
  · rw [if_neg hw] at hstep hstep'
    exact ⟨_, _, _, hstep, hstep', e.afterByte b⟩

/-- R24 item 3 for the decode step: both runs answer the same frame or none. -/
theorem decodeStepCore_alike :
    ∃ t t' r, decodeStepCore b s = .ok (t, r) ∧ decodeStepCore b s' = .ok (t', r) ∧ StaleApart t t' := by
  by_cases hs : s.state = .seekingPreamble
  · obtain ⟨t, t', hstep⟩ := decodeStepCore_seeking_alike b h h' e hs
    exact ⟨t, t', none, hstep⟩
  by_cases hb : s.takesLogical b
  · cases hs' : s.state with
    | seekingPreamble => exact absurd hs' hs
    | readingHeader =>
      obtain ⟨t, t', hstep⟩ := decodeStepCore_header_alike b h h' e hs' hb
      exact ⟨t, t', none, hstep⟩
    | readingBody => exact decodeStepCore_body_alike b h h' e hs' hb
  · exact ⟨_, _, _, decodeStepCore_of_marker h hs hb,
      decodeStepCore_of_marker h' (by rwa [e.state]) (by rwa [e.takesLogical]), e.afterMarker⟩

end

theorem feedCore_alike {s s' : State} (bs : List Byte) (h : s.Inv) (h' : s'.Inv) (e : StaleApart s s') :
    ∃ t t' fs, feedCore bs s = .ok (t, fs) ∧ feedCore bs s' = .ok (t', fs) ∧ StaleApart t t' := by
  induction bs generalizing s s' with
  | nil => exact ⟨s, s', [], rfl, rfl, e⟩
  | cons b bs ih =>
    obtain ⟨t, t', r, hstep, hstep', he⟩ := decodeStepCore_alike b h h' e
    obtain ⟨u, u', fs, hrest, hrest', hu⟩ := ih (decodeStepCore_inv h hstep) (decodeStepCore_inv h' hstep') he
    exact ⟨u, u', r.toList ++ fs, by simp [feedCore, hstep, hrest, bind, Except.bind, pure, Except.pure],
      by simp [feedCore, hstep', hrest', bind, Except.bind, pure, Except.pure], hu⟩

/-! #### The operations -/

section
variable {s s' : State} (h : s.Inv) (h' : s'.Inv) (e : StaleApart s s')
include h h' e

theorem decodeByte_alike (b : Byte) : AnswerAlike (decodeByte b s) (decodeByte b s') := by
  obtain ⟨t, t', r, hstep, hstep', he⟩ :=
    decodeStepCore_alike b (inv_startOp h) (inv_startOp h') (e.map .startOp)
  simp only [decodeByte, hstep, hstep']
  exact he.answerAlike (.ret _)

theorem execRead_alike (b : Byte) (n : Nat) : AnswerAlike (execRead b n s) (execRead b n s') := by
  obtain ⟨t, t', r, hstep, hstep', he⟩ :=
    decodeStepCore_alike b (inv_startOp h) (inv_startOp h') (e.map .startOp)
  simp only [execRead, hstep, hstep']
  exact ⟨_, _, rfl, rfl, he.readFrame n r⟩

theorem feed_alike (bs : List Byte) : AnswerAlike (feed bs s) (feed bs s') := by
  obtain ⟨t, t', fs, hfeed, hfeed', he⟩ := feedCore_alike bs (inv_startOp h) (inv_startOp h') (e.map .startOp)
  simp only [feed, hfeed, hfeed']
  exact he.answerAlike (.ret _)

end

/-- R100: the size test of `encode` reads the capacity alone. -/
theorem execEncode_alike {s s' : State} {flags length : U16} {payload : List Byte} (hlen : payload.length = length.toNat)
    (e : StaleApart s s') : AnswerAlike (execEncode flags length payload s) (execEncode flags length payload s') := by
  unfold execEncode
  rw [if_neg (not_not.2 hlen), if_neg (not_not.2 hlen), e.cap]
  split
  · exact (e.map .startOp).answerAlike (.raiseEvent _)
  · exact (((e.map .startOp).map (.txBytes _)).map (.txEscapedAll _)).answerAlike (.ret _)

/-- Every well-formed operation is an update outside the scratch buffer, a decode step, a `read` or a `feed`. -/
theorem exec_alike {s s' : State} (i : Instr) (h : s.Inv) (h' : s'.Inv) (e : StaleApart s s')
    (hwf : i.wellFormed = true) (hop : unassigned i = false) : AnswerAlike (exec i s) (exec i s') := by
  have harrive := decodeByte_alike h h' e
  have hfeed := feed_alike h h' e
  cases i with
  | crc32 seed data => exact (e.map .startOp).answerAlike (.ret _)
  | headerChecksum flags length => exact (e.map .startOp).answerAlike (.ret _)
  | encode flags length payload => exact execEncode_alike (beq_iff_eq.1 hwf) e
  | decodeStep b => exact harrive b
  | read b n => exact execRead_alike h h' e b n
  | opUnassigned101 => cases hop
  | opUnassigned110 => cases hop
  | opUnassigned111 => cases hop
  | rxPreamble => exact hfeed _
  | rxSeekRaw b => simpa only [exec, execRxSeekRaw_eq] using harrive b
  | rxSeekRawFull b => simpa only [exec, execRxSeekRawFull_eq] using harrive b
  | rxEscapePrefix => simpa only [exec, execRxEscapePrefix_eq] using harrive _
  | rxLiteral b => simpa only [exec, execRxLiteral_eq] using harrive b
  | rxEscaped b => simpa only [exec, execRxEscaped_eq] using harrive b
  | rxPair x => exact hfeed _
  | rxHeaderComplete flags length hcs => exact hfeed _
  | rxBodyComplete payload crc => exact hfeed _
  | txEscFlag => exact (e.map .startOp).answerAlike (.txBytes _)
  | txEscEscape => exact (e.map .startOp).answerAlike (.txBytes _)
  | txVerbatim x => exact (e.map .startOp).answerAlike (.txEscaped _)
  | txPreamble => exact (e.map .startOp).answerAlike (.txBytes _)
  | frame flags length payload =>
    have hlen : payload.length = length.toNat := beq_iff_eq.1 hwf
    simpa only [exec, execFrame, hlen, ne_eq, not_true_eq_false, if_false] using hfeed (wireFrame flags length payload)

/-- Settles O44: two runs from states that differ only in stale scratch bytes stay so, by the closed forms of the decode step. -/
theorem staleBytesUnobservable : Obligations.StaleBytesUnobservable := by
  intro i s m h h' hm hwf hop
  obtain ⟨t, -, hrun, hrun', m', rfl, hm'⟩ := exec_alike i h h' ⟨m, rfl, hm⟩ hwf hop
  exact ⟨t, m', hrun, hrun', hm'⟩

end Sys2Proof.Machine

namespace Sys2Proof.Machine

/-! ### Every operation keeps the invariant of R20 and R21 -/

/-- The invariant speaks of the decoder's side and of the canonical form of `dest` only. -/
theorem inv_withOutside {s : State} (h : s.Inv) {dest : Memory} (hd : dest.wf = true) (tx : List Byte) (rxPos : Nat)
    (result : Result) (events : List Event) (pending : List Request) :
    State.Inv { s with tx := tx, rxPos := rxPos, dest := dest, result := result, events := events, pending := pending } :=
  ⟨h.capacity, h.bufCanonical, h.bufInRange, hd, h.written, h.seeking, h.header, h.headerMarked, h.body, h.bodyMarked,
    h.accepted, h.marker⟩

theorem inv_ret {s : State} (h : s.Inv) (r : Result) : (ret r s).Inv := inv_withOutside h h.destCanonical ..

theorem inv_txBytes {s : State} (h : s.Inv) (bs : List Byte) : (txBytes bs s).Inv := by
  rw [txBytes_eq]
  exact inv_withOutside h h.destCanonical ..

theorem inv_txEscaped {s : State} (h : s.Inv) (x : Byte) : (txEscaped x s).Inv := by
  rw [txEscaped_eq]
  exact inv_withOutside h h.destCanonical ..

theorem inv_txEscapedAll {s : State} (h : s.Inv) (xs : List Byte) : (txEscapedAll xs s).Inv := by
  rw [txEscapedAll_eq]
  exact inv_withOutside h h.destCanonical ..

theorem inv_copyToDest {s : State} (h : s.Inv) (payload : List Byte) : (copyToDest payload s).Inv :=
  inv_withOutside h (Memory.wf_writeList 0 payload h.destCanonical) ..

/-- R171. -/
theorem inv_raiseEvent_oversize {s : State} (h : s.Inv) (length : U16) : (raiseEvent (.oversize length) s).Inv :=
  inv_withOutside h h.destCanonical ..

/-- R175. -/
theorem inv_raiseEvent_destSmall {s : State} (h : s.Inv) (length : U16) (n : Nat) :
    (raiseEvent (.destSmall length n) s).Inv :=
  inv_withOutside h h.destCanonical ..

theorem inv_readFrame {s : State} (h : s.Inv) (n : Nat) (r : FrameResult) : (readFrame n r s).Inv := by
  cases r with
  | none => exact inv_ret h _
  | some f =>
    simp only [readFrame]
    split
    · exact inv_raiseEvent_destSmall h _ _
    · exact inv_ret (inv_copyToDest h _) _

/-- Where the outcome is a next state, that state meets the invariant. -/
def NextInv (o : Host.Outcome State Fault Refusal) : Prop := ∀ t, o = .next t → t.Inv

theorem nextInv_next {s : State} (h : s.Inv) : NextInv (.next s) := fun _ e => Host.Outcome.next.inj e ▸ h

theorem nextInv_refused (r : Refusal) : NextInv (.refused r) := fun _ e => nomatch e

theorem decodeByte_nextInv {s : State} (h : s.Inv) (b : Byte) : NextInv (decodeByte b s) := by
  obtain ⟨t, r, hstep, ht, -⟩ := decodeStepCore_keeps b (inv_startOp h)
  simp only [decodeByte, hstep]
  exact nextInv_next (inv_ret ht _)

theorem execRead_nextInv {s : State} (h : s.Inv) (b : Byte) (n : Nat) : NextInv (execRead b n s) := by
  obtain ⟨t, r, hstep, ht, -⟩ := decodeStepCore_keeps b (inv_startOp h)
  simp only [execRead, hstep]
  exact nextInv_next (inv_readFrame ht n r)

theorem feed_nextInv {s : State} (h : s.Inv) (bs : List Byte) : NextInv (feed bs s) := by
  obtain ⟨t, fs, hfeed, ht, -⟩ := feedCore_keeps bs (inv_startOp h)
  simp only [feed, hfeed]
  exact nextInv_next (inv_ret ht _)

theorem execEncode_nextInv {s : State} (h : s.Inv) (flags length : U16) (payload : List Byte) :
    NextInv (execEncode flags length payload s) := by
  unfold execEncode
  split
  · exact nextInv_refused _
  · split
    · exact nextInv_next (inv_raiseEvent_oversize (inv_startOp h) _)
    · exact nextInv_next (inv_ret (inv_txEscapedAll (inv_txBytes (inv_startOp h) _) _) _)

theorem execFrame_nextInv {s : State} (h : s.Inv) (flags length : U16) (payload : List Byte) :
    NextInv (execFrame flags length payload s) := by
  unfold execFrame
  split
  · exact nextInv_refused _
  · exact feed_nextInv h _

/-- R20, R21: whatever the instruction, a next state meets the invariant. -/
theorem exec_nextInv {s : State} (i : Instr) (h : s.Inv) : NextInv (exec i s) := by
  have hstart := inv_startOp h
  have harrive := decodeByte_nextInv h
  have hfeed := feed_nextInv h
  cases i with
  | crc32 seed data => exact nextInv_next (inv_ret hstart _)
  | headerChecksum flags length => exact nextInv_next (inv_ret hstart _)
  | encode flags length payload => exact execEncode_nextInv h flags length payload
  | decodeStep b => exact harrive b
  | read b n => exact execRead_nextInv h b n
  | opUnassigned101 => exact nextInv_refused _
  | opUnassigned110 => exact nextInv_refused _
  | opUnassigned111 => exact nextInv_refused _
  | rxPreamble => exact hfeed _
  | rxSeekRaw b => simpa only [exec, execRxSeekRaw_eq] using harrive b
  | rxSeekRawFull b => simpa only [exec, execRxSeekRawFull_eq] using harrive b
  | rxEscapePrefix => simpa only [exec, execRxEscapePrefix_eq] using harrive _
  | rxLiteral b => simpa only [exec, execRxLiteral_eq] using harrive b
  | rxEscaped b => simpa only [exec, execRxEscaped_eq] using harrive b
  | rxPair x => exact hfeed _
  | rxHeaderComplete flags length hcs => exact hfeed _
  | rxBodyComplete payload crc => exact hfeed _
  | txEscFlag => exact nextInv_next (inv_txBytes hstart _)
  | txEscEscape => exact nextInv_next (inv_txBytes hstart _)
  | txVerbatim x => exact nextInv_next (inv_txEscaped hstart x)
  | txPreamble => exact nextInv_next (inv_txBytes hstart _)
  | frame flags length payload => exact execFrame_nextInv h flags length payload

end Sys2Proof.Machine

namespace Sys2Proof.Machine

/-! ### The initial contents of the scratch buffer are never observed (20_memory.md R38, D6)

Two instances just built have the cursor at 0, so they differ in stale scratch bytes only; each operation keeps that and the
invariant. -/

theorem construct_eq_some {cap : Nat} {contents : List Byte} {s : State} :
    State.construct cap contents = some s ↔
      (Config.minCapacity ≤ cap ∧ contents.length ≤ cap) ∧ State.afterConstruction cap contents = s := by
  simp only [State.construct, Option.ite_none_right_eq_some, Option.some.injEq]

/-- R15: the contents given stand at the indices below their number. -/
theorem lt_length_of_mem_writeList {contents : List Byte} {c : Host.Cell} (hc : c ∈ Memory.writeList [] 0 contents) :
    c.1 < contents.length := by
  have hread := Memory.isSome_read_of_mem hc
  rw [Memory.read_writeList] at hread
  by_contra hle
  simp [hle, Memory.read] at hread

/-- R23, R21, first row. -/
theorem inv_afterConstruction {cap : Nat} {contents : List Byte} (hcap : Config.minCapacity ≤ cap)
    (hlen : contents.length ≤ cap) :
    (State.afterConstruction cap contents).Inv where
  capacity := hcap
  bufCanonical := Memory.wf_writeList 0 contents rfl
  bufInRange _ hc := (lt_length_of_mem_writeList hc).trans_le hlen
  destCanonical := rfl
  written i hi := absurd hi (Nat.not_lt_zero i)
  seeking _ := ⟨rfl, Nat.lt_of_lt_of_le (by decide : 0 < Config.minCapacity) hcap⟩
  header hs := nomatch hs
  headerMarked hs := nomatch hs
  body hs := nomatch hs
  bodyMarked hs := nomatch hs
  accepted hs := nomatch hs
  marker hu := nomatch hu

theorem staleApart_afterConstruction (cap : Nat) (c d : List Byte) :
    StaleApart (State.afterConstruction cap c) (State.afterConstruction cap d) :=
  ⟨_, rfl, fun k hk => absurd hk (Nat.not_lt_zero k)⟩

theorem execAll_cons_of_next {i : Instr} {is : List Instr} {s t : State} (h : exec i s = .next t) :
    execAll (i :: is) s = execAll is t := by
  simp only [execAll, h]

/-- R38 along a sequence of operations. -/
theorem execAll_alike {s s' : State} {is : List Instr} (h : s.Inv) (h' : s'.Inv) (e : StaleApart s s')
    (hops : ∀ i ∈ is, i.wellFormed = true ∧ unassigned i = false) : AnswerAlike (execAll is s) (execAll is s') := by
  induction is generalizing s s' with
  | nil => exact ⟨s, s', rfl, rfl, e⟩
  | cons i is ih =>
    obtain ⟨⟨hwf, hop⟩, hrest⟩ := List.forall_mem_cons.1 hops
    obtain ⟨t, t', hrun, hrun', ht⟩ := exec_alike i h h' e hwf hop
    rw [execAll_cons_of_next hrun, execAll_cons_of_next hrun']
    exact ih (exec_nextInv i h t hrun) (exec_nextInv i h' t' hrun') ht hrest

/-- Settles O53: by induction on the sequence, from two instances that differ in stale scratch bytes only. -/
theorem initialContentsUnobservable : Obligations.InitialContentsUnobservable := by
  intro cap c d s t is hs ht hops
  obtain ⟨⟨hcap, hc⟩, rfl⟩ := construct_eq_some.1 hs
  obtain ⟨⟨-, hd⟩, rfl⟩ := construct_eq_some.1 ht
  obtain ⟨u, -, hrun, hrun', m, rfl, -⟩ := execAll_alike (inv_afterConstruction hcap hc) (inv_afterConstruction hcap hd)
    (staleApart_afterConstruction cap c d) hops
  exact ⟨u, m, hrun, hrun'⟩

end Sys2Proof.Machine

namespace Sys2Proof.Machine

/-! ### Exactly one one-byte row is selected (30_encoding.md R57) -/

/-- Under the invariant a raw byte has a verdict: the append and the reads of the match are in range. -/
theorem exists_seekVerdict {s : State} (b : Byte) (h : s.Inv) : ∃ v, seekVerdict b s = some v := by
  have hlt := h.cursor_lt
  obtain ⟨t, ht⟩ : ∃ t, t = { s with buf := s.buf.write s.cursor b, cursor := s.cursor + 1 } := ⟨_, rfl⟩
  have happend : append b s = .ok t := append_eq_ok.2 ⟨hlt, ht⟩
  have hseen := preambleSeen_eq (s := t) (by rw [ht]; exact hlt)
  simp only [seekVerdict, happend, hseen]
  split
  · exact ⟨_, rfl⟩
  · split <;> exact ⟨_, rfl⟩
  · contradiction

/-- Settles O41: while seeking the verdict on the byte selects the row, in a frame the flag and whether the byte is ESCAPE. -/
theorem oneWireRowPerByte : Obligations.OneWireRowPerByte := by
  intro s b h
  simp only [rowPreamble, rowSeekRaw, rowSeekRawFull, rowEscapePrefix, rowLiteral, rowEscaped]
  by_cases hs : s.state = .seekingPreamble
  · have hseek : inSeek s = true := inSeek_iff.2 ⟨hs, (h.seeking hs).1⟩
    have hframe : ∀ u, inFrame u s = false := fun u => by simp [inFrame, hs]
    obtain ⟨v, hv⟩ := exists_seekVerdict b h
    rw [hseek, hframe, hframe, hv]
    cases v <;> rfl
  · have hseek : inSeek s = false := by simp [inSeek, hs]
    cases hu : s.unescaping with
    | true =>
      have hset : inFrame true s = true := inFrame_iff.2 ⟨hs, hu⟩
      have hclear : inFrame false s = false := by simp [inFrame, hu]
      rw [hseek, hset, hclear]
      rfl
    | false =>
      have hset : inFrame true s = false := by simp [inFrame, hu]
      have hclear : inFrame false s = true := inFrame_iff.2 ⟨hs, hu⟩
      rw [hseek, hset, hclear, bne]
      cases b == Config.escape <;> rfl

end Sys2Proof.Machine

namespace Sys2Proof.Machine

/-! ### The window of the preamble search (42_decode.md R126 to R129)

While seeking, what the search can still see of the stream is the suffixes, of at most four bytes, of the bytes below the cursor.
An unmatched raw byte appends to them, also where the buffer-full shift drops the bytes before them. -/

/-- The raw bytes below the cursor. -/
def State.window (s : State) : List Byte := s.bytesAt 0 s.cursor

theorem preambleBytes_eq : preambleBytes = [0x55#8, 0xAA#8, 0x55#8, 0xAA#8] := by decide

theorem bytesAt_succ (s : State) (i n : Nat) : s.bytesAt i (n + 1) = s.bytesAt i n ++ [s.byteAt (i + n)] := by
  rw [bytesAt_add]
  rfl

/-- Two lists that end in one byte each are suffixes as far as what stands before it, if the bytes agree. -/
theorem concat_suffix_concat {xs ys : List Byte} {x y : Byte} : xs ++ [x] <:+ ys ++ [y] ↔ xs <:+ ys ∧ x = y := by
  simp [List.suffix_append_inj_of_length_eq (show [x].length = [y].length from rfl)]

/-- The bytes below an index end in `x`: that is the byte just below it. -/
theorem concat_suffix_bytesAt {s : State} {n : Nat} {ws : List Byte} {x : Byte} :
    ws ++ [x] <:+ s.bytesAt 0 n ↔ 0 < n ∧ ws <:+ s.bytesAt 0 (n - 1) ∧ s.byteAt (n - 1) = x := by
  cases n with
  | zero => simp [State.bytesAt]
  | succ n => simp [bytesAt_succ, concat_suffix_concat, eq_comm]

/-- R126 said of the window: the byte completes the preamble as a suffix of the window. -/
theorem completesPreamble_iff {s : State} {b : Byte} :
    s.completesPreamble b ↔ preambleBytes <:+ s.window ++ [b] := by
  have e4 : preambleBytes = [] ++ [0x55#8] ++ [0xAA#8] ++ [0x55#8] ++ [0xAA#8] := preambleBytes_eq
  rw [e4, concat_suffix_concat, State.window, concat_suffix_bytesAt, concat_suffix_bytesAt, concat_suffix_bytesAt,
    Nat.sub_sub, Nat.sub_sub]
  simp only [State.completesPreamble, List.nil_suffix, true_and]
  constructor
  · rintro ⟨h3, h55, hAA, h55', hb⟩
    exact ⟨⟨by omega, ⟨by omega, ⟨by omega, h55⟩, hAA⟩, h55'⟩, hb.symm⟩
  · rintro ⟨⟨h1, ⟨h2, ⟨h3, h55⟩, hAA⟩, h55'⟩, hb⟩
    exact ⟨by omega, h55, hAA, h55', hb.symm⟩

/-- The window ends in `55 AA`. -/
theorem halfPreamble_suffix_iff {s : State} :
    [0x55#8, 0xAA#8] <:+ s.window ↔
      2 ≤ s.cursor ∧ s.byteAt (s.cursor - 2) = 0x55#8 ∧ s.byteAt (s.cursor - 1) = 0xAA#8 := by
  have e2 : [0x55#8, 0xAA#8] = [] ++ [0x55#8] ++ [0xAA#8] := rfl
  rw [e2, State.window, concat_suffix_bytesAt, concat_suffix_bytesAt, Nat.sub_sub]
  simp only [List.nil_suffix, true_and]
  constructor
  · rintro ⟨h1, ⟨h2, h55⟩, hAA⟩
    exact ⟨by omega, h55, hAA⟩
  · rintro ⟨h2, h55, hAA⟩
    exact ⟨by omega, ⟨by omega, h55⟩, hAA⟩

theorem window_afterByte {s : State} (b : Byte) (hu : s.unescaping = false) : (afterByte b s).window = s.window ++ [b] := by
  have hw := writeIndex_clear hu
  have hlast : (afterByte b s).byteAt (0 + s.cursor) = b := by rw [Nat.zero_add, ← hw, byteAt_afterByte_same]
  rw [State.window, afterByte_cursor, hw, bytesAt_succ, hlast, bytesAt_afterByte (by omega)]
  rfl

/-- R127: the shift leaves the last four bytes of a full buffer as the window. -/
theorem window_shifted {s : State} (h10 : 10 ≤ s.cap) :
    State.window { s with buf := shiftedBuf s, cursor := 4 } = s.bytesAt (s.cap - 4) 4 := by
  have hread : ∀ i, i < 4 → (shiftedBuf s).byte i = s.byteAt (s.cap - 4 + i) := by
    intro i hi
    simp only [Memory.byte, read_shiftedBuf]
    split_ifs
    · exact congrArg s.byteAt (by omega)
    · exact congrArg s.byteAt (by omega)
    · exact congrArg s.byteAt (by omega)
    · exact congrArg s.byteAt (by omega)
    · omega
  unfold State.window State.bytesAt
  apply List.map_congr_left
  intro i hi
  rw [Nat.zero_add]
  exact hread i (List.mem_range.1 hi)

/-- R127: the shift loses no suffix of at most four bytes. -/
theorem suffix_window_shifted {s : State} (h10 : 10 ≤ s.cap) (hfull : s.cursor = s.cap) {ws : List Byte}
    (hws : ws.length ≤ 4) :
    ws <:+ State.window { s with buf := shiftedBuf s, cursor := 4 } ↔ ws <:+ s.window := by
  have hsuffix : s.bytesAt (s.cap - 4) 4 <:+ s.window := by
    refine ⟨s.bytesAt 0 (s.cap - 4), ?_⟩
    have hsplit := bytesAt_add s 0 (s.cap - 4) 4
    rw [Nat.zero_add, show s.cap - 4 + 4 = s.cursor by omega] at hsplit
    exact hsplit.symm
  rw [window_shifted h10]
  exact ⟨fun hw => hw.trans hsuffix, fun hw => List.suffix_of_suffix_length_le hw hsuffix (by simpa using hws)⟩

/-! ### The arrival of unmatched raw bytes -/

theorem feedCore_append {s t u : State} {bs cs : List Byte} {fs gs : List Frame} (h : feedCore bs s = .ok (t, fs))
    (h' : feedCore cs t = .ok (u, gs)) : feedCore (bs ++ cs) s = .ok (u, fs ++ gs) := by
  induction bs generalizing s fs with
  | nil => cases h; exact h'
  | cons b bs ih =>
    simp only [List.cons_append, feedCore, bind, Except.bind] at h ⊢
    split at h
    · cases h
    · rename_i v hstep
      split at h
      · cases h
      · rename_i w hrest
        cases h
        simp only [ih hrest, pure, Except.pure, List.append_assoc]

theorem feedCore_singleton {s t : State} {b : Byte} {r : FrameResult} (h : decodeStepCore b s = .ok (t, r)) :
    feedCore [b] s = .ok (t, r.toList) := by
  simp [feedCore, h, bind, Except.bind, pure, Except.pure]

/-- `t` is what the raw bytes `bs`, none of which completes a preamble, leave of the seeking state `s` (R127, R128). -/
structure RawArrival (s : State) (bs : List Byte) (t : State) : Prop where
  feed : feedCore bs s = .ok (t, [])
  seeking : t.state = .seekingPreamble
  events : t.events = s.events
  /-- The search sees the stream: what stood in the window, then the bytes. -/
  window : ∀ ws, ws.length ≤ 4 → (ws <:+ t.window ↔ ws <:+ s.window ++ bs)
  /-- The cursor counts the bytes until the window first fills, and restarts at 4 where it does. -/
  cursor : t.cursor = s.cursor + bs.length ∨ (s.cap ≤ s.cursor + bs.length ∧ t.cursor < 4 + bs.length)
  /-- The bytes go to the slots from the cursor upward and, once the window has filled, to the slots from 0 upward. -/
  frame : ∀ k, (4 + bs.length ≤ k ∨ s.cursor + bs.length < s.cap) → (k < s.cursor ∨ s.cursor + bs.length ≤ k) →
    t.buf.read k = s.buf.read k

theorem rawArrival_nil {s : State} (hs : s.state = .seekingPreamble) : RawArrival s [] s where
  feed := rfl
  seeking := hs
  events := rfl
  window ws _ := by rw [List.append_nil]
  cursor := .inl rfl
  frame k _ _ := rfl

/-- One unmatched raw byte: R127 where it fills the buffer, else R128. -/
theorem decodeStepCore_unmatched {s : State} {b : Byte} (h : s.Inv) (hs : s.state = .seekingPreamble)
    (hb : ¬ s.completesPreamble b) :
    ∃ t, decodeStepCore b s = .ok (t, none) ∧ t.state = .seekingPreamble ∧ t.events = s.events ∧
      (∀ ws, ws.length ≤ 4 → (ws <:+ t.window ↔ ws <:+ s.window ++ [b])) ∧
      (t.cursor = s.cursor + 1 ∨ s.cursor + 1 = s.cap ∧ t.cursor = 4) ∧
      ∀ k, k ≠ s.cursor → (4 ≤ k ∨ s.cursor + 1 < s.cap) → t.buf.read k = s.buf.read k := by
  obtain ⟨hu, hlt⟩ := h.seeking hs
  obtain ⟨-, hfull, hkeep⟩ := decodeStepCore_of_seeking b h hs
  have hw := writeIndex_clear hu
  have hread : ∀ k, k ≠ s.cursor → (afterByte b s).buf.read k = s.buf.read k := fun k hk => by
    rw [afterByte_buf, Memory.read_write_other _ _ (by rwa [hw])]
  by_cases hc : s.cursor + 1 = s.cap
  · refine ⟨_, hfull hb hc, hs, rfl, fun ws hws => ?_, .inr ⟨hc, rfl⟩, fun k hk hr => ?_⟩
    · rw [← window_afterByte b hu]
      exact suffix_window_shifted (s := afterByte b s) h.capacity (by simp [hw, hc]) hws
    · have h4 : 4 ≤ k := by omega
      simp only [read_shiftedBuf, show k ≠ 3 by omega, show k ≠ 2 by omega, show k ≠ 1 by omega, show k ≠ 0 by omega,
        if_false, hread k hk]
  · refine ⟨_, hkeep hb hc, hs, rfl, fun ws _ => by rw [window_afterByte b hu], .inl ?_, fun k hk _ => hread k hk⟩
    rw [afterByte_cursor, hw]

/-- R64: what a `feed` keeps, said of the state it answers. -/
theorem feedCore_frame {s t : State} {bs : List Byte} {fs : List Frame} (h : s.Inv) (hrun : feedCore bs s = .ok (t, fs)) :
    t.Inv ∧ SameOutside s t ∧ t.rxPos = s.rxPos + bs.length := by
  obtain ⟨u, gs, e, hkept⟩ := feedCore_keeps bs h
  obtain ⟨rfl, -⟩ := Prod.mk.inj (Except.ok.inj (hrun.symm.trans e))
  exact hkept

namespace RawArrival

variable {s t : State} {bs : List Byte}

/-- The search sees one byte more once the next byte has arrived. -/
theorem window_concat (a : RawArrival s bs t) (b : Byte) {ws : List Byte} (hws : ws.length ≤ 5) :
    ws <:+ t.window ++ [b] ↔ ws <:+ s.window ++ (bs ++ [b]) := by
  rw [← List.append_assoc]
  rcases List.eq_nil_or_concat ws with rfl | ⟨xs, x, rfl⟩
  · simp
  · rw [List.concat_eq_append, concat_suffix_concat, concat_suffix_concat, a.window xs (by simpa [Nat.lt_succ_iff] using hws)]

/-- R126 after raw bytes: the next one completes the preamble exactly where the stream then ends in it. -/
theorem completesPreamble_iff (a : RawArrival s bs t) {b : Byte} :
    t.completesPreamble b ↔ preambleBytes <:+ s.window ++ (bs ++ [b]) := by
  rw [Machine.completesPreamble_iff, a.window_concat b (by decide)]

/-- R127, R128: one more raw byte, unless it completes a preamble in what the search has seen. -/
theorem concat (a : RawArrival s bs t) (h : s.Inv) {b : Byte} (hb : ¬ preambleBytes <:+ s.window ++ (bs ++ [b])) :
    ∃ u, RawArrival s (bs ++ [b]) u := by
  obtain ⟨hinv, ⟨hcap, -⟩, -⟩ := feedCore_frame h a.feed
  obtain ⟨u, hstep, hseeking, hevents, hwindow, hcursor, hframe⟩ :=
    decodeStepCore_unmatched hinv a.seeking (mt a.completesPreamble_iff.1 hb)
  have hlen : (bs ++ [b]).length = bs.length + 1 := List.length_append
  have hold := a.cursor
  exact ⟨u, {
    feed := feedCore_append a.feed (feedCore_singleton hstep)
    seeking := hseeking
    events := hevents.trans a.events
    window := fun ws hws => (hwindow ws hws).trans (a.window_concat b (by omega))
    cursor := by omega
    frame := fun k hrange hk => by
      rw [hframe k (by omega) (by omega), a.frame k (by omega) (by omega)] }⟩

end RawArrival

/-! ### The row `rx.preamble` -/

/-- Before the last byte of `rx.preamble` no preamble is complete, unless the window already ended in `55 AA` (R65 item 4). -/
theorem exists_rawArrival_preamble {s : State} (h : s.Inv) (hs : s.state = .seekingPreamble)
    (hw : ¬ [0x55#8, 0xAA#8] <:+ s.window) : ∃ t, RawArrival s [0x55#8, 0xAA#8, 0x55#8] t := by
  have e4 : preambleBytes = [0x55#8, 0xAA#8] ++ [0x55#8] ++ [0xAA#8] := preambleBytes_eq
  obtain ⟨t₁, a₁⟩ := (rawArrival_nil hs).concat h (b := 0x55#8) (by
    rw [e4, List.nil_append, concat_suffix_concat]; exact fun e => absurd e.2 (by decide))
  obtain ⟨t₂, a₂⟩ := a₁.concat h (b := 0xAA#8) (by
    rw [e4, ← List.append_assoc, List.nil_append, concat_suffix_concat, concat_suffix_concat]; exact fun e => hw e.1.1)
  exact a₂.concat h (b := 0x55#8) (by
    rw [e4, ← List.append_assoc, concat_suffix_concat]; exact fun e => absurd e.2 (by decide))

/-- R126: a raw byte that completes the preamble leaves an empty header. -/
theorem decodeStepCore_matched {s : State} {b : Byte} (h : s.Inv) (hs : s.state = .seekingPreamble)
    (hb : s.completesPreamble b) :
    ∃ t, decodeStepCore b s = .ok (t, none) ∧ t.state = .readingHeader ∧ t.cursor = 0 ∧ t.unescaping = false ∧
      t.events = s.events ∧ ∀ k, k ≠ s.cursor → t.buf.read k = s.buf.read k := by
  have hw := writeIndex_clear (h.seeking hs).1
  exact ⟨_, (decodeStepCore_of_seeking b h hs).1 hb, rfl, rfl, rfl, rfl, fun k hk =>
    Memory.read_write_other _ _ (by rwa [hw])⟩

/-- Settles O32: three bytes arrive unmatched, wherever the window fills among them, and the fourth completes the preamble. -/
theorem preambleRowStartsHeader : Obligations.PreambleRowStartsHeader := by
  intro s h hs hw
  have hstart : (startOp s).Inv := inv_startOp h
  obtain ⟨t, a⟩ := exists_rawArrival_preamble hstart hs (mt halfPreamble_suffix_iff.1 hw)
  have hmatch : t.completesPreamble 0xAA#8 := a.completesPreamble_iff.2 (List.suffix_append _ _)
  obtain ⟨u, hstep, hstate, hcursor, hu, hevents, hframe⟩ :=
    decodeStepCore_matched (feedCore_frame hstart a.feed).1 a.seeking hmatch
  have hrun : feedCore preambleBytes (startOp s) = .ok (u, []) := feedCore_append a.feed (feedCore_singleton hstep)
  obtain ⟨-, houtside, hrx⟩ := feedCore_frame hstart hrun
  refine ⟨ret (.frames []) u, ?_, hstate, hcursor, hu, rfl, hevents.trans a.events, hrx, houtside, fun k hrange hk => ?_⟩
  · show feed preambleBytes s = _
    simp only [feed, hrun]
  · have hc := a.cursor
    have hbuf := a.frame k
    simp only [startOp_cursor, startOp_cap, startOp_buf, List.length_cons, List.length_nil] at hc hbuf
    rw [ret_buf, hframe k (by omega), hbuf (by omega) (by omega)]

end Sys2Proof.Machine

namespace Sys2Proof.Machine

/-! ### The Checksum Engine (40_checksum.md) -/

/-- R81, R89: `crc32` completes with its value and changes nothing else. -/
theorem exec_crc32 (seed : U32) (data : List Byte) (s : State) :
    exec (.crc32 seed data) s = .next { s with result := .crc (crc32 seed data), events := [] } := rfl

/-- R86, R89: `header_checksum` completes with its value and changes nothing else. -/
theorem exec_headerChecksum (flags length : U16) (s : State) :
    exec (.headerChecksum flags length) s =
      .next { s with result := .checksum (headerChecksum flags length), events := [] } := rfl

/-! #### The loop iteration and its repetition -/

/-- Adding a word before the shift is adding its bit 0 to the feedback and the rest of it, shifted, to the value. -/
theorem crcShift_xor_eq_crcBit (c w : U32) : crcShift (c ^^^ w) = crcBit c (w.getLsbD 0) ^^^ (w >>> 1) := by
  have hshift : (c ^^^ w) >>> 1 = (c >>> 1) ^^^ (w >>> 1) := BitVec.ushiftRight_xor_distrib c w 1
  simp only [crcShift, crcBit, BitVec.getLsbD_xor, hshift, Bool.bne_eq_xor]
  split
  · rw [BitVec.xor_assoc, BitVec.xor_comm (w >>> 1), ← BitVec.xor_assoc]
  · rfl

/-- The feedback polynomial has bit 31 set, which no shifted word has, so an iteration loses no information. -/
theorem eq_zero_of_crcShift_eq_zero {c : U32} (h : crcShift c = 0#32) : c = 0#32 := by
  unfold crcShift at h
  split at h
  · have htop := congrArg (BitVec.getLsbD · 31) h
    simp [Config.poly] at htop
  · next hlow =>
    apply BitVec.eq_of_getLsbD_eq
    intro i _
    cases i with
    | zero => simpa using hlow
    | succ i => simpa [Nat.add_comm] using congrArg (BitVec.getLsbD · i) h

theorem crcShift_injective : Function.Injective crcShift := by
  intro c d h
  have hzero : crcShift (c ^^^ d) = 0#32 := by rw [crcShift_xor, h, BitVec.xor_self]
  exact BitVec.xor_eq_zero_iff.1 (eq_zero_of_crcShift_eq_zero hzero)

theorem repeat_crcShift_xor (n : Nat) (c d : U32) :
    Nat.repeat crcShift n (c ^^^ d) = Nat.repeat crcShift n c ^^^ Nat.repeat crcShift n d := by
  induction n with
  | zero => rfl
  | succ n ih => rw [Nat.repeat, ih, crcShift_xor]; rfl

theorem repeat_crcShift_injective (n : Nat) : Function.Injective (Nat.repeat crcShift n) := by
  induction n with
  | zero => exact fun _ _ h => h
  | succ n ih => exact crcShift_injective.comp ih

/-- Zero bits leave by a plain shift: no feedback is added. -/
theorem repeat_crcShift_of_low_bits_clear {n : Nat} {c : U32} (h : ∀ i < n, c.getLsbD i = false) :
    Nat.repeat crcShift n c = c >>> n := by
  induction n with
  | zero => exact (BitVec.ushiftRight_zero c).symm
  | succ n ih =>
    rw [Nat.repeat, ih fun i hi => h i (by omega), BitVec.shiftRight_add]
    simp [crcShift, h n]

/-- R82: after `k` iterations the bits already taken from `w` are in the value, and the others still wait above them. -/
theorem repeat_crcShift_xor_eq_foldl_crcBit (k : Nat) (c w : U32) :
    Nat.repeat crcShift k (c ^^^ w) = ((List.range k).map w.getLsbD).foldl crcBit c ^^^ (w >>> k) := by
  induction k with
  | zero => simp [Nat.repeat]
  | succ k ih =>
    rw [Nat.repeat, ih, crcShift_xor_eq_crcBit, List.range_succ, BitVec.shiftRight_add]
    simp

/-! #### The byte step -/

/-- R80: the loop of the byte step, run over a range of eight. -/
theorem crcByte_eq_foldl_crcShift (c : U32) (d : Byte) :
    crcByte c d = (List.range 8).foldl (fun c _ => crcShift c) (c ^^^ d.setWidth 32) := rfl

theorem setWidth_ushiftRight_eight (d : Byte) : d.setWidth 32 >>> 8 = 0#32 := by
  apply BitVec.eq_of_getLsbD_eq
  intro i _
  simp

/-- R82: the byte step is one bit step per data bit, bit 0 first. -/
theorem crcByte_eq_foldl_crcBit (c : U32) (d : Byte) :
    crcByte c d = ((List.range 8).map d.getLsbD).foldl crcBit c := by
  have hbits : (List.range 8).map (d.setWidth 32).getLsbD = (List.range 8).map d.getLsbD :=
    List.map_congr_left fun i hi => by
      have hi8 : i < 8 := List.mem_range.1 hi
      simp [show i < 32 by omega]
  rw [crcByte, repeat_crcShift_xor_eq_foldl_crcBit, hbits, setWidth_ushiftRight_eight, BitVec.xor_zero]

theorem crcByte_xor (c c' : U32) (d d' : Byte) : crcByte (c ^^^ c') (d ^^^ d') = crcByte c d ^^^ crcByte c' d' := by
  have hswap : c ^^^ c' ^^^ (d ^^^ d').setWidth 32 = (c ^^^ d.setWidth 32) ^^^ (c' ^^^ d'.setWidth 32) := by
    rw [BitVec.setWidth_xor]; ac_rfl
  rw [crcByte, hswap, repeat_crcShift_xor]; rfl

/-- R85 item 4: a byte equal to the low byte of the value cancels it, and only the shift is left. -/
theorem crcByte_of_low_byte {c : U32} {d : Byte} (h : c.extractLsb' 0 8 = d) : crcByte c d = c >>> 8 := by
  have hclear : ∀ i < 8, (c ^^^ d.setWidth 32).getLsbD i = false := fun i hi => by
    subst h; simp [hi, show i < 32 by omega]
  rw [crcByte, repeat_crcShift_of_low_bits_clear hclear, BitVec.ushiftRight_xor_distrib, setWidth_ushiftRight_eight,
    BitVec.xor_zero]

theorem crcByte_injective (d : Byte) : Function.Injective (crcByte · d) := fun _ _ h =>
  (BitVec.xor_left_inj _).1 (repeat_crcShift_injective 8 h)

/-! #### The running value over a sequence -/

@[simp] theorem crc32_nil (seed : U32) : crc32 seed [] = seed := rfl

@[simp] theorem crc32_cons (seed : U32) (d : Byte) (data : List Byte) :
    crc32 seed (d :: data) = crc32 (crcByte seed d) data := rfl

/-- R82: the running value over the data is the running value over its bits. -/
theorem crc32_eq_foldl_crcBit (seed : U32) (data : List Byte) :
    crc32 seed data = (data.flatMap fun d => (List.range 8).map d.getLsbD).foldl crcBit seed := by
  induction data generalizing seed with
  | nil => rfl
  | cons d data ih => rw [crc32_cons, ih, List.flatMap_cons, List.foldl_append, crcByte_eq_foldl_crcBit]

/-- R85 item 1. -/
theorem crc32_xor (s t : U32) {a b : List Byte} (h : a.length = b.length) :
    crc32 (s ^^^ t) (List.zipWith (· ^^^ ·) a b) = crc32 s a ^^^ crc32 t b := by
  induction a generalizing s t b with
  | nil => cases b with
    | nil => rfl
    | cons => cases h
  | cons d a ih => cases b with
    | nil => cases h
    | cons e b => simp only [List.zipWith_cons_cons, crc32_cons, crcByte_xor, ih _ _ (Nat.succ.inj h)]

/-- R85 item 2. -/
theorem crc32_zero_replicate (n : Nat) : crc32 0#32 (List.replicate n 0#8) = 0#32 := by
  have hstep : crcByte 0#32 0#8 = 0#32 := crcByte_of_low_byte (by decide)
  induction n with
  | zero => rfl
  | succ n ih => rw [List.replicate_succ, crc32_cons, hstep, ih]

theorem crc32_injective (data : List Byte) : Function.Injective (crc32 · data) := by
  induction data with
  | nil => exact fun _ _ h => h
  | cons d data ih => exact ih.comp (crcByte_injective d)

/-- R85 item 3: over its own four bytes a value is shifted out entirely. -/
theorem crc32_bytesLE32_self (v : U32) : crc32 v (bytesLE32 v) = 0#32 := by
  have hbyte : ∀ k, crcByte (v >>> k) (v.extractLsb' k 8) = v >>> (k + 8) := fun k => by
    have hlow : (v >>> k).extractLsb' 0 8 = v.extractLsb' k 8 := by
      apply BitVec.eq_of_getLsbD_eq; intro i _; simp
    rw [crcByte_of_low_byte hlow, BitVec.shiftRight_add]
  calc crc32 v (bytesLE32 v)
      = crcByte (crcByte (crcByte (crcByte (v >>> 0) (v.extractLsb' 0 8)) (v.extractLsb' 8 8))
          (v.extractLsb' 16 8)) (v.extractLsb' 24 8) := by rw [BitVec.ushiftRight_zero]; rfl
    _ = v >>> 32 := by rw [hbyte, hbyte, hbyte, hbyte]
    _ = 0#32 := BitVec.ushiftRight_eq_zero (Nat.le_refl 32)

/-! #### The obligations of 40_checksum.md -/

/-- Settles O11: the byte step is eight bit steps, and the fold over the bytes is the fold over their bits. -/
theorem crcIsBitSerial : Obligations.CrcIsBitSerial := by
  intro seed data s
  rw [exec_crc32, crc32_eq_foldl_crcBit]
  rfl

/-- Settles O14: the byte step is linear over XOR, keeps zero, and is a plain shift where the low byte matches. -/
theorem crcLinearAndZeroBlind : Obligations.CrcLinearAndZeroBlind := by
  refine ⟨fun s t a b => crc32_xor s t, fun n a => ⟨crc32_zero_replicate n, ?_⟩, fun s d => crcByte_of_low_byte⟩
  rw [crc32_append, crc32_zero_replicate]

/-- Settles O15: the value whose bytes follow leaves the residue 0, and no other value does, as `crc32` is injective in its
seed. -/
theorem crcZeroResidue : Obligations.CrcZeroResidue := by
  intro seed data c0 c1 c2 c3
  have hresidue : crc32 (le32 c0 c1 c2 c3) [c0, c1, c2, c3] = 0#32 := by
    rw [← bytes_le32, crc32_bytesLE32_self]
  rw [crc32_append, ← hresidue, (crc32_injective _).eq_iff, eq_comm]

/-- Settles O12: `crc32` folds the byte step, whose eight iterations are those of R80. -/
theorem crcByteSteps : Obligations.CrcByteSteps := by
  intro seed data s
  rw [exec_crc32, crc32, funext₂ crcByte_eq_foldl_crcShift]
  rfl

/-- Settles O13: the value after `a` is the seed for `b`. -/
theorem crcComposes : Obligations.CrcComposes := by
  intro seed a b s
  refine ⟨_, _, _, _, exec_crc32 seed a s, rfl, exec_crc32 _ b _, exec_crc32 seed (a ++ b) s, ?_⟩
  rw [crc32_append]

/-- Settles O16: XOR acts on each bit, and byte `j` of a field holds its bits from `8 * j`. -/
theorem headerChecksumIsXorOfBytes : Obligations.HeaderChecksumIsXorOfBytes := by
  intro flags length s
  refine ⟨_, exec_headerChecksum flags length s, fun k hk => ?_⟩
  simp [headerChecksum, hk, Nat.add_comm 8]

end Sys2Proof.Machine

namespace Sys2Proof.Machine

/-! ### The encode path (41_encode.md) -/

/-! #### The escape code over a sequence -/

theorem escBytes_eq_flatMap (xs : List Byte) : escBytes xs = xs.flatMap escByte := by
  induction xs with
  | nil => rfl
  | cons x xs ih => rw [escBytes, List.flatMap_cons, ih]

theorem escByte_eq_ite (x : Byte) : escByte x = if x = 0xAA#8 ∨ x = 0x1B#8 then [0x1B#8, x] else [x] := by
  simp [escByte, needsEscape, Config.flag, Config.escape]

theorem escByte_length (x : Byte) : (escByte x).length = if needsEscape x then 2 else 1 := by
  unfold escByte
  split <;> rfl

/-- R106: the escape code adds one byte for each byte it escapes. -/
theorem escBytes_length (xs : List Byte) : (escBytes xs).length = xs.length + xs.countP needsEscape := by
  induction xs with
  | nil => rfl
  | cons x xs ih =>
    rw [escBytes, List.length_append, ih, escByte_length, List.length_cons, List.countP_cons]
    split <;> omega

/-! #### How much of a frame can need escaping -/

/-- FLAG and ESCAPE have a set bit in common. -/
theorem getLsbD_one_of_needsEscape {x : Byte} (h : needsEscape x = true) : x.getLsbD 1 = true := by
  simp only [needsEscape, Bool.or_eq_true, beq_iff_eq] at h
  rcases h with rfl | rfl <;> decide

/-- Where all four field bytes need escaping the checksum does not: the bit common to FLAG and ESCAPE cancels in their XOR. -/
theorem headerChecksum_verbatim {flags length : U16} (h : ∀ x ∈ bytesLE16 flags ++ bytesLE16 length, needsEscape x = true) :
    needsEscape (headerChecksum flags length) = false := by
  rw [Bool.eq_false_iff]
  intro hc
  have hbit : ∀ x ∈ bytesLE16 flags ++ bytesLE16 length, x.getLsbD 1 = true := fun x hx =>
    getLsbD_one_of_needsEscape (h x hx)
  have hsum := getLsbD_one_of_needsEscape hc
  simp only [bytesLE16, List.cons_append, List.nil_append, List.forall_mem_cons] at hbit
  obtain ⟨h0, h1, h2, h3, -⟩ := hbit
  simp only [headerChecksum, BitVec.getLsbD_xor, h0, h1, h2, h3] at hsum
  exact absurd hsum (by decide)

/-- R106: at least one of the five header bytes goes out verbatim. -/
theorem countP_headerBytes_le (flags length : U16) : (headerBytes flags length).countP needsEscape ≤ 4 := by
  have hle : (headerBytes flags length).countP needsEscape ≤ 5 := List.countP_le_length
  have hne : (headerBytes flags length).countP needsEscape ≠ 5 := fun e => by
    have hall : ∀ x ∈ headerBytes flags length, needsEscape x = true := List.countP_eq_length.1 e
    have hsum : needsEscape (headerChecksum flags length) = true := hall _ List.mem_concat_self
    rw [headerChecksum_verbatim fun x hx => hall x (List.mem_append_left _ hx)] at hsum
    exact Bool.false_ne_true hsum
  omega

theorem logicalFrame_length (flags length : U16) (payload : List Byte) :
    (logicalFrame flags length payload).length = 9 + payload.length := by
  simp only [logicalFrame, List.length_append, headerBytes_length, bytesLE32_length]
  omega

/-- R106: of the nine bytes around the payload at most eight need escaping. -/
theorem countP_logicalFrame_le (flags length : U16) (payload : List Byte) :
    (logicalFrame flags length payload).countP needsEscape ≤ 8 + payload.length := by
  have hh := countP_headerBytes_le flags length
  have hp : payload.countP needsEscape ≤ payload.length := List.countP_le_length
  have hc : ∀ v, (bytesLE32 v).countP needsEscape ≤ 4 := fun v => List.countP_le_length
  have := hc (frameCrc (headerBytes flags length) payload)
  simp only [logicalFrame, List.countP_append]
  omega

/-! #### The operation -/

@[simp] theorem preambleBytes_length : preambleBytes.length = 4 := rfl

theorem wireFrame_eq (flags length : U16) (payload : List Byte) :
    wireFrame flags length payload = [0x55#8, 0xAA#8, 0x55#8, 0xAA#8] ++ (logicalFrame flags length payload).flatMap escByte := by
  rw [wireFrame, preambleBytes_eq, escBytes_eq_flatMap]

theorem wireFrame_length (flags length : U16) (payload : List Byte) :
    (wireFrame flags length payload).length =
      4 + (9 + payload.length) + (logicalFrame flags length payload).countP needsEscape := by
  rw [wireFrame, List.length_append, escBytes_length, logicalFrame_length, preambleBytes_length]
  omega

theorem emitFrame_eq (flags length : U16) (payload : List Byte) (s : State) :
    emitFrame flags length payload s = { s with tx := s.tx ++ wireFrame flags length payload } := by
  rw [emitFrame, txBytes_eq, txEscapedAll_eq, ← preambleBytes_eq, List.append_assoc]
  rfl

/-- R102, R103: an `encode` within the capacity succeeds, appends the wire form of its frame and changes nothing else. -/
theorem exec_encode {flags length : U16} {payload : List Byte} {s : State} (hlen : payload.length = length.toNat)
    (hcap : length.toNat ≤ s.cap) : exec (.encode flags length payload) s =
      .next { s with tx := s.tx ++ wireFrame flags length payload, result := .success, events := [] } := by
  have hfits : oversize length s.cap = false := decide_eq_false (Nat.not_lt.2 hcap)
  simp only [exec, execEncode, hlen, hfits, emitFrame_eq, ne_eq, not_true_eq_false, if_false, Bool.false_eq_true]
  rfl

/-! #### The obligations of 41_encode.md -/

/-- Settles O17: what `encode` appends is the wire form, its parts named and its escape code written out. -/
theorem encodeAppendsWholeFrame : Obligations.EncodeAppendsWholeFrame := by
  intro flags length payload s hlen hcap
  refine ⟨headerBytes flags length, _, headerChecksum flags length, frameCrc (headerBytes flags length) payload, ?_, rfl, rfl,
    rfl, ?_⟩
  · simp only [headerChecksum, BitVec.xor_assoc]
  · rw [exec_encode hlen hcap, wireFrame_eq, funext escByte_eq_ite, List.append_assoc]
    rfl

/-- Settles O20: the length of the wire form, where at least one of the nine bytes around the payload goes out verbatim. -/
theorem encodedLengthBounded : Obligations.EncodedLengthBounded := by
  intro flags length payload s hlen hcap
  have hwire := wireFrame_length flags length payload
  have hbound := countP_logicalFrame_le flags length payload
  refine ⟨_, exec_encode hlen hcap, ?_, ?_⟩
  · rw [List.length_append, hwire, hlen, ← Nat.add_assoc, ← Nat.add_assoc]
    rfl
  · rw [List.length_append]
    omega

end Sys2Proof.Machine

namespace Sys2Proof.Machine

/-! ### A `decode_step` operation, row by row (42_decode.md R151)

Each row of the table gives the whole next state as an update of `arrived b s` or `marked s`; the obligations of the rows, the
bound on resynchronisation and the round trip are read off these equations. -/

/-- The byte `b` is stored at the write index, and nothing more happens (R124). -/
def arrived (b : Byte) (s : State) : State := ret .noFrame (afterByte b (startOp s))

/-- The marker is stored, and the call ends (R122). -/
def marked (s : State) : State := ret .noFrame (afterMarker (startOp s))

theorem read_arrived_same {b : Byte} {s : State} {n : Nat} (hn : s.writeIndex = n) : (arrived b s).buf.read n = some b :=
  hn ▸ Memory.read_write_same _ _ _

theorem read_arrived_other {b : Byte} {s : State} {n : Nat} (hn : s.writeIndex = n) (k : Nat) (hk : k ≠ n) :
    (arrived b s).buf.read k = s.buf.read k :=
  Memory.read_write_other _ _ (hn ▸ hk)

theorem sameOutside_arrived (b : Byte) (s : State) : SameOutside s (arrived b s) := ⟨rfl, rfl, rfl, rfl⟩

theorem takesLogical_marked {s : State} (hs : s.state ≠ .seekingPreamble) (b : Byte) : (marked s).takesLogical b :=
  ⟨hs, .inl rfl⟩

/-- R57: in a frame the only byte that is no logical byte is ESCAPE with the flag clear. -/
theorem not_takesLogical_iff {s : State} {b : Byte} (hs : s.state ≠ .seekingPreamble) :
    ¬ s.takesLogical b ↔ s.unescaping = false ∧ b = Config.escape := by
  simp [State.takesLogical, hs]

/-- R137: in a frame the logical bytes number at most `CAP - 2`, the last byte of a frame being still to come. -/
theorem logicalCount_lt {s : State} (h : s.Inv) (hs : s.state ≠ .seekingPreamble) : s.logicalCount + 1 < s.cap := by
  have h10 := h.capacity
  simp only [State.logicalCount]
  cases hstate : s.state with
  | seekingPreamble => exact absurd hstate hs
  | readingHeader => have := h.headerIndex hstate; omega
  | readingBody => have := h.bodyIndex hstate; have := (h.accepted hstate).2; omega

theorem exec_decodeStep_of_core {s t : State} {b : Byte} {r : FrameResult} (h : decodeStepCore b (startOp s) = .ok (t, r)) :
    exec (.decodeStep b) s = .next (ret (frameResult r) t) := by
  simp only [exec, execDecodeStep, decodeByte, h]

theorem exec_decodeStep_inv {s t : State} {b : Byte} (h : s.Inv) (e : exec (.decodeStep b) s = .next t) : t.Inv :=
  exec_nextInv _ h t e

/-! #### The verdicts on a header and on a frame -/

/-- R136, R137. -/
theorem header_tests_iff {flags length : U16} {hcs : Byte} {cap : Nat} :
    (csumOk flags length hcs && lenOk length cap) = true ↔
      headerChecksum flags length = hcs ∧ length.toNat + 10 ≤ cap := by
  rw [Bool.and_eq_true, lenOk_iff, csumOk, beq_iff_eq]

/-- R138. -/
theorem judgeHeader_of_accepted {flags length : U16} {hcs : Byte} {s : State}
    (hok : headerChecksum flags length = hcs ∧ length.toNat + 10 ≤ s.cap) :
    judgeHeader flags length hcs s = { s with state := .readingBody } :=
  if_pos (header_tests_iff.2 hok)

/-- R139, R172, R173. -/
theorem judgeHeader_of_rejected {flags length : U16} {hcs : Byte} {s : State}
    (hbad : ¬ (headerChecksum flags length = hcs ∧ length.toNat + 10 ≤ s.cap)) :
    judgeHeader flags length hcs s = { resync s with
      result := .noFrame
      events := s.events ++ [if headerChecksum flags length = hcs then .hdrLen else .hdrCsum] } := by
  rw [judgeHeader, if_neg (mt header_tests_iff.1 hbad), headerEvent, csumOk]
  by_cases hsum : headerChecksum flags length = hcs
  · rw [if_pos hsum, if_pos (beq_iff_eq.2 hsum)]
    rfl
  · rw [if_neg hsum, if_neg (mt beq_iff_eq.1 hsum)]
    rfl

/-- R147, R148. -/
theorem judgeBody_of_eq {rxCrc calcCrc : U32} (h : rxCrc = calcCrc) (f : Frame) (s : State) :
    judgeBody rxCrc calcCrc f s = (resync s, some f) :=
  if_pos (beq_iff_eq.2 h)

/-- R147, R149, R174. -/
theorem judgeBody_of_ne {rxCrc calcCrc : U32} (h : rxCrc ≠ calcCrc) (f : Frame) (s : State) :
    judgeBody rxCrc calcCrc f s =
      ({ resync s with result := .noFrame, events := s.events ++ [.bodyCrc rxCrc calcCrc] }, none) :=
  if_neg (mt beq_iff_eq.1 h)

/-! #### The rows -/

/-- R122. -/
theorem exec_decodeStep_marker {s : State} (hs : s.state ≠ .seekingPreamble) (hu : s.unescaping = false)
    (hc : s.cursor < s.cap) : exec (.decodeStep Config.escape) s = .next (marked s) :=
  exec_decodeStep_of_core (decodeStepCore_marker (s := startOp s) hs hu hc)

/-- R126. -/
theorem exec_decodeStep_matched {s : State} {b : Byte} (h : s.Inv) (hs : s.state = .seekingPreamble)
    (hb : s.completesPreamble b) :
    exec (.decodeStep b) s = .next { arrived b s with state := .readingHeader, cursor := 0 } :=
  exec_decodeStep_of_core ((decodeStepCore_of_seeking b (inv_startOp h) hs).1 hb)

/-- R127. -/
theorem exec_decodeStep_full {s : State} {b : Byte} (h : s.Inv) (hs : s.state = .seekingPreamble)
    (hb : ¬ s.completesPreamble b) (hc : s.cursor + 1 = s.cap) :
    exec (.decodeStep b) s = .next { arrived b s with buf := shiftedBuf (afterByte b s), cursor := 4 } :=
  exec_decodeStep_of_core ((decodeStepCore_of_seeking b (inv_startOp h) hs).2.1 hb hc)

/-- R128. -/
theorem exec_decodeStep_seeks {s : State} {b : Byte} (h : s.Inv) (hs : s.state = .seekingPreamble)
    (hb : ¬ s.completesPreamble b) (hc : s.cursor + 1 ≠ s.cap) : exec (.decodeStep b) s = .next (arrived b s) :=
  exec_decodeStep_of_core ((decodeStepCore_of_seeking b (inv_startOp h) hs).2.2 hb hc)

/-- R124: a logical byte that completes neither the header nor the frame. -/
theorem exec_decodeStep_accumulates {s : State} {b : Byte} (h : s.Inv) (hb : s.takesLogical b)
    (hheader : s.state = .readingHeader → s.logicalCount < 4)
    (hbody : s.state = .readingBody → s.logicalCount < 8 + s.lengthField.toNat) :
    exec (.decodeStep b) s = .next (arrived b s) := by
  cases hs : s.state with
  | seekingPreamble => exact absurd hs hb.1
  | readingHeader =>
    have hstep := decodeStepCore_of_header (inv_startOp h) hs hb
    have hne : (startOp s).writeIndex ≠ 4 := Nat.ne_of_lt (hheader hs)
    rw [if_neg hne] at hstep
    exact exec_decodeStep_of_core hstep
  | readingBody =>
    have hstep := decodeStepCore_of_body (inv_startOp h) hs hb
    have hne : (startOp s).writeIndex ≠ 8 + (startOp s).lengthField.toNat := Nat.ne_of_lt (hbody hs)
    rw [if_neg hne] at hstep
    exact exec_decodeStep_of_core hstep

/-- R135 to R139: the fifth logical header byte is judged. -/
theorem exec_decodeStep_fifth {s : State} {b : Byte} (h : s.Inv) (hs : s.state = .readingHeader) (hb : s.takesLogical b)
    (h4 : s.logicalCount = 4) : exec (.decodeStep b) s =
      .next (ret .noFrame (judgeHeader s.flagsField s.lengthField b (afterByte b (startOp s)))) := by
  have hstep := decodeStepCore_of_header (inv_startOp h) hs hb
  have hw : (startOp s).writeIndex = 4 := h4
  rw [if_pos hw] at hstep
  exact exec_decodeStep_of_core hstep

/-- R138. -/
theorem exec_decodeStep_accepted {s : State} {b : Byte} (h : s.Inv) (hs : s.state = .readingHeader) (hb : s.takesLogical b)
    (h4 : s.logicalCount = 4)
    (hok : headerChecksum s.flagsField s.lengthField = b ∧ s.lengthField.toNat + 10 ≤ s.cap) :
    exec (.decodeStep b) s = .next { arrived b s with state := .readingBody } := by
  rw [exec_decodeStep_fifth h hs hb h4, judgeHeader_of_accepted (s := afterByte b (startOp s)) hok]
  rfl

/-- R139. -/
theorem exec_decodeStep_rejected {s : State} {b : Byte} (h : s.Inv) (hs : s.state = .readingHeader) (hb : s.takesLogical b)
    (h4 : s.logicalCount = 4)
    (hbad : ¬ (headerChecksum s.flagsField s.lengthField = b ∧ s.lengthField.toNat + 10 ≤ s.cap)) :
    exec (.decodeStep b) s = .next { resync (arrived b s) with
      events := [if headerChecksum s.flagsField s.lengthField = b then .hdrLen else .hdrCsum] } := by
  rw [exec_decodeStep_fifth h hs hb h4, judgeHeader_of_rejected (s := afterByte b (startOp s)) hbad]
  rfl

/-- R145 to R149: the last logical byte of a frame is judged. -/
theorem exec_decodeStep_last {s t : State} {b : Byte} {r : FrameResult} (h : s.Inv) (hf : s.completesFrame b)
    (hjudged : judgeBody (s.receivedCrc b) s.computedCrc s.bufferedFrame (afterByte b (startOp s)) = (t, r)) :
    exec (.decodeStep b) s = .next (ret (frameResult r) t) := by
  obtain ⟨hs, hb, hlast⟩ := hf
  have hstep := decodeStepCore_of_body (inv_startOp h) hs hb
  have hw : (startOp s).writeIndex = 8 + (startOp s).lengthField.toNat := hlast
  rw [if_pos hw] at hstep
  exact exec_decodeStep_of_core (hstep.trans (congrArg _ hjudged))

/-- R147, R148. -/
theorem exec_decodeStep_delivered {s : State} {b : Byte} (h : s.Inv) (hf : s.completesFrame b)
    (hcrc : s.receivedCrc b = s.computedCrc) :
    exec (.decodeStep b) s = .next (ret (.frame s.bufferedFrame) (resync (arrived b s))) :=
  exec_decodeStep_last h hf (judgeBody_of_eq hcrc _ _)

/-- R147, R149. -/
theorem exec_decodeStep_dropped {s : State} {b : Byte} (h : s.Inv) (hf : s.completesFrame b)
    (hcrc : s.receivedCrc b ≠ s.computedCrc) :
    exec (.decodeStep b) s = .next { resync (arrived b s) with events := [.bodyCrc (s.receivedCrc b) s.computedCrc] } :=
  exec_decodeStep_last h hf (judgeBody_of_ne hcrc _ _)

/-! #### Any logical byte -/

/-- `t` is what a logical byte `b` of a frame leaves of `s`: the byte is stored and the flag is clear; the decoder stays in the
frame with one logical byte more, or the byte ended a rejected header or a frame. -/
structure TookLogical (s : State) (b : Byte) (t : State) : Prop where
  buf : t.buf = (arrived b s).buf
  clear : t.unescaping = false
  rxPos : t.rxPos = s.rxPos + 1
  outside : SameOutside s t
  ends : (t.state ≠ .seekingPreamble ∧ t.cursor = s.logicalCount + 1) ∨ (t.state = .seekingPreamble ∧ t.cursor = 0)

/-- R121, R124: what every logical byte does. -/
theorem exec_decodeStep_logical {s : State} {b : Byte} (h : s.Inv) (hb : s.takesLogical b) :
    ∃ t, exec (.decodeStep b) s = .next t ∧ TookLogical s b t := by
  have hout := sameOutside_arrived b s
  by_cases hheader : s.state = .readingHeader ∧ s.logicalCount = 4
  · obtain ⟨hs, h4⟩ := hheader
    by_cases hok : headerChecksum s.flagsField s.lengthField = b ∧ s.lengthField.toNat + 10 ≤ s.cap
    · exact ⟨_, exec_decodeStep_accepted h hs hb h4 hok, rfl, rfl, rfl, hout, .inl ⟨by simp, rfl⟩⟩
    · exact ⟨_, exec_decodeStep_rejected h hs hb h4 hok, rfl, rfl, rfl, hout, .inr ⟨rfl, rfl⟩⟩
  · by_cases hf : s.completesFrame b
    · by_cases hcrc : s.receivedCrc b = s.computedCrc
      · exact ⟨_, exec_decodeStep_delivered h hf hcrc, rfl, rfl, rfl, hout, .inr ⟨rfl, rfl⟩⟩
      · exact ⟨_, exec_decodeStep_dropped h hf hcrc, rfl, rfl, rfl, hout, .inr ⟨rfl, rfl⟩⟩
    · have hbelow := exec_decodeStep_accumulates h hb
        (fun hs => lt_of_le_of_ne (h.headerIndex hs) fun h4 => hheader ⟨hs, h4⟩)
        (fun hs => lt_of_le_of_ne (h.bodyIndex hs).2 fun hlast => hf ⟨hs, hb, hlast⟩)
      exact ⟨_, hbelow, rfl, rfl, rfl, hout, .inl ⟨hb.1, rfl⟩⟩

namespace TookLogical

variable {s t : State} {b : Byte}

theorem read_same (a : TookLogical s b t) {n : Nat} (hn : s.writeIndex = n) : t.buf.read n = some b := by
  rw [a.buf]
  exact read_arrived_same hn

theorem read_other (a : TookLogical s b t) {n : Nat} (hn : s.writeIndex = n) (k : Nat) (hk : k ≠ n) :
    t.buf.read k = s.buf.read k := by
  rw [a.buf]
  exact read_arrived_other hn k hk

end TookLogical

/-! #### The one-byte rows of format WIRE are this operation (R57) -/

theorem exec_rxSeekRaw (b : Byte) (s : State) : exec (.rxSeekRaw b) s = exec (.decodeStep b) s := execRxSeekRaw_eq b s
theorem exec_rxSeekRawFull (b : Byte) (s : State) : exec (.rxSeekRawFull b) s = exec (.decodeStep b) s :=
  execRxSeekRawFull_eq b s
theorem exec_rxEscapePrefix (s : State) : exec .rxEscapePrefix s = exec (.decodeStep Config.escape) s :=
  execRxEscapePrefix_eq s
theorem exec_rxLiteral (b : Byte) (s : State) : exec (.rxLiteral b) s = exec (.decodeStep b) s := execRxLiteral_eq b s
theorem exec_rxEscaped (b : Byte) (s : State) : exec (.rxEscaped b) s = exec (.decodeStep b) s := execRxEscaped_eq b s

/-! #### The obligations of 42_decode.md about one byte -/

/-- Settles O25: the row of the marker store, with no use of the invariant. -/
theorem escapePrefixStoresMarker : Obligations.EscapePrefixStoresMarker := by
  intro s i hi hs hu hc
  have hstep : exec i s = .next (marked s) := by
    rcases hi with rfl | rfl
    · exact exec_decodeStep_marker hs hu hc
    · rw [exec_rxEscapePrefix, exec_decodeStep_marker hs hu hc]
  exact ⟨_, hstep, rfl, rfl, rfl, Memory.read_write_same _ _ _, fun k hk => Memory.read_write_other _ _ hk, rfl, rfl, rfl,
    rfl, rfl, rfl, rfl⟩

/-- Settles O26: with the flag set every byte is a logical byte, and its write index is the marker's. -/
theorem escapedByteReplacesMarker : Obligations.EscapedByteReplacesMarker := by
  intro s b i hi h hs hu
  obtain ⟨t, hstep, took⟩ := exec_decodeStep_logical h ⟨hs, .inl hu⟩
  have hrow : exec i s = .next t := by
    rcases hi with rfl | rfl
    · exact hstep
    · rw [exec_rxEscaped, hstep]
  have hw : s.writeIndex = s.cursor - 1 := writeIndex_set hu
  have hpos := (h.marked hu).2
  refine ⟨t, hrow, took.clear, took.read_same hw, took.read_other hw, took.rxPos, took.outside, ?_⟩
  exact took.ends.imp_left fun ⟨hstate, hcursor⟩ => ⟨hstate, by rw [hcursor, State.logicalCount]; omega⟩

/-- Settles O28: below both completion counts the byte is stored and no test of phase 3 applies. -/
theorem logicalByteAccumulates : Obligations.LogicalByteAccumulates := by
  intro s b i hi h hb hheader hbody
  have hstep := exec_decodeStep_accumulates h hb hheader hbody
  have hrow : exec i s = .next (arrived b s) := by
    rcases hi with rfl | ⟨rfl, -⟩ | ⟨rfl, -⟩
    · exact hstep
    · rw [exec_rxLiteral, hstep]
    · rw [exec_rxEscaped, hstep]
  exact ⟨_, hrow, rfl, rfl, rfl, read_arrived_same rfl, read_arrived_other rfl, rfl, rfl, rfl,
    sameOutside_arrived b s⟩

/-- Settles O29: the match comes before the shift, so it is the same row where the byte fills the buffer. -/
theorem preambleMatchStartsHeader : Obligations.PreambleMatchStartsHeader := by
  intro s b h hs hb
  have hw := writeIndex_clear (h.seeking hs).1
  exact ⟨_, exec_decodeStep_matched h hs hb, rfl, rfl, rfl, read_arrived_same hw,
    read_arrived_other hw, rfl, rfl, rfl, sameOutside_arrived b s⟩

/-- R38: a byte below the cursor stands where it stood after the arrival while seeking, so the shift moves it. -/
theorem byteAt_afterByte_below {s : State} {b : Byte} (h : s.Inv) (hs : s.state = .seekingPreamble) {k : Nat}
    (hk : k < s.cursor) : some ((afterByte b s).byteAt k) = s.buf.read k := by
  have hw := writeIndex_clear (h.seeking hs).1
  rw [byteAt_afterByte_other (by omega), read_eq_byteAt (h.written k hk)]

/-- Settles O30: the shift moves three bytes that were there and the one that arrived. -/
theorem fullBufferKeepsLastFour : Obligations.FullBufferKeepsLastFour := by
  intro s b i hi h hs hc hb
  have hstep := exec_decodeStep_full h hs hb hc
  have hrow : exec i s = .next { arrived b s with buf := shiftedBuf (afterByte b s), cursor := 4 } := by
    rcases hi with rfl | rfl
    · exact hstep
    · rw [exec_rxSeekRawFull, hstep]
  have h10 := h.capacity
  have hw : s.writeIndex = s.cap - 1 := by rw [writeIndex_clear (h.seeking hs).1]; omega
  have hlast : (afterByte b s).byteAt (s.cap - 1) = b := hw ▸ byteAt_afterByte_same b s
  have hbelow : ∀ j, 1 < j → j ≤ 4 →
      some ((afterByte b s).byteAt ((afterByte b s).cap - j)) = s.buf.read (s.cap - j) := fun j h1 h4 =>
    byteAt_afterByte_below h hs (show s.cap - j < s.cursor by omega)
  have hbeyond : ∀ k, 4 ≤ k → (shiftedBuf (afterByte b s)).read k = (afterByte b s).buf.read k := fun k hk => by
    rw [read_shiftedBuf, if_neg (by omega), if_neg (by omega), if_neg (by omega), if_neg (by omega)]
  refine ⟨_, hrow, hs, rfl, rfl, ?_, ?_, ?_, ?_, ?_, fun k h4 hk => ?_, rfl, rfl, rfl, rfl, rfl, rfl, rfl⟩
  · exact (read_shiftedBuf _ 0).trans (hbelow 4 (by decide) (by decide))
  · exact (read_shiftedBuf _ 1).trans (hbelow 3 (by decide) (by decide))
  · exact (read_shiftedBuf _ 2).trans (hbelow 2 (by decide) (by decide))
  · exact (read_shiftedBuf _ 3).trans (congrArg some hlast)
  · exact (hbeyond _ (by omega)).trans (read_arrived_same hw)
  · exact (hbeyond k h4).trans (read_arrived_other hw k hk)

/-- Settles O31: the byte is stored and phase 3 leaves the state alone. -/
theorem seekingAccumulates : Obligations.SeekingAccumulates := by
  intro s b i hi h hs hc hb
  have hstep := exec_decodeStep_seeks h hs hb (Nat.ne_of_lt hc)
  have hrow : exec i s = .next (arrived b s) := by
    rcases hi with rfl | rfl
    · exact hstep
    · rw [exec_rxSeekRaw, hstep]
  have hw := writeIndex_clear (h.seeking hs).1
  exact ⟨_, hrow, hs, congrArg (· + 1) hw, rfl, read_arrived_same hw, read_arrived_other hw, rfl,
    rfl, rfl, sameOutside_arrived b s⟩

/-- R86 on fields assembled from their bytes. -/
theorem headerChecksum_le16 (b0 b1 b2 b3 : Byte) :
    headerChecksum (le16 b0 b1) (le16 b2 b3) = b0 ^^^ b1 ^^^ b2 ^^^ b3 := by
  have hflags := bytes_le16 b0 b1
  have hlength := bytes_le16 b2 b3
  simp only [bytesLE16, List.cons.injEq, and_true] at hflags hlength
  simp only [headerChecksum, hflags, hlength]

theorem headerChecksum_fields (s : State) : headerChecksum s.flagsField s.lengthField =
    s.byteAt 0 ^^^ s.byteAt 1 ^^^ s.byteAt 2 ^^^ s.byteAt 3 :=
  headerChecksum_le16 _ _ _ _

/-- Settles O34: both tests pass, so only the state register changes besides the stored byte. -/
theorem goodHeaderAccepted : Obligations.GoodHeaderAccepted := by
  intro s b h hs hb h4 hsum hlen
  rw [← headerChecksum_fields] at hsum
  have hstep := exec_decodeStep_accepted h hs hb h4 ⟨hsum, hlen⟩
  exact ⟨_, hstep, rfl, congrArg (· + 1) h4, rfl, read_arrived_same h4, read_arrived_other h4, rfl,
    rfl, rfl, sameOutside_arrived b s⟩

/-- Settles O35: one test fails, and the checksum test names the label. -/
theorem badHeaderDiscarded : Obligations.BadHeaderDiscarded := by
  intro s b h hs hb h4 hbad
  rw [← headerChecksum_fields] at hbad ⊢
  have hstep := exec_decodeStep_rejected h hs hb h4 hbad
  exact ⟨_, hstep, rfl, rfl, rfl, read_arrived_same h4, read_arrived_other h4, rfl, rfl, rfl,
    sameOutside_arrived b s⟩

/-- Settles O37: the CRC test passes, and the frame is the one the buffer holds. -/
theorem goodFrameDelivered : Obligations.GoodFrameDelivered := by
  intro s b h hf hcrc
  have hlast := hf.2.2
  exact ⟨_, exec_decodeStep_delivered h hf hcrc, rfl, rfl, rfl, read_arrived_same hlast,
    read_arrived_other hlast, rfl, rfl, rfl, sameOutside_arrived b s⟩

/-- Settles O38: the CRC test fails, and the label carries both values. -/
theorem corruptFrameDropped : Obligations.CorruptFrameDropped := by
  intro s b h hf hcrc
  have hlast := hf.2.2
  exact ⟨_, exec_decodeStep_dropped h hf hcrc, rfl, rfl, rfl, read_arrived_same hlast,
    read_arrived_other hlast, rfl, rfl, rfl, sameOutside_arrived b s⟩

end Sys2Proof.Machine

namespace Sys2Proof.Machine

/-! ### The table of transitions (42_decode.md R151) -/

/-- R136, R137 read off the buffer once the fifth header byte is stored. -/
theorem headerAccepted_arrived {s : State} {b : Byte} (h4 : s.writeIndex = 4) : (arrived b s).HeaderAccepted ↔
    headerChecksum s.flagsField s.lengthField = b ∧ s.lengthField.toNat + 10 ≤ s.cap := by
  have hflags : (arrived b s).flagsField = s.flagsField := flagsField_afterByte (s := s) (by omega)
  have hlength : (arrived b s).lengthField = s.lengthField := lengthField_afterByte (s := s) (by omega)
  have hsum : (arrived b s).byteAt 4 = b := Memory.byte_of_read (read_arrived_same h4)
  rw [State.HeaderAccepted, hflags, hlength, hsum]
  rfl

/-- Settles O42: from each state the rows are told apart by their conditions, and each leaves what its equation says. -/
theorem transitionsAsTabulated : Obligations.TransitionsAsTabulated := by
  intro s t b h e
  have row : ∀ {u}, exec (.decodeStep b) s = .next u → t = u := fun e' => Host.Outcome.next.inj (e.symm.trans e')
  cases hs : s.state with
  | seekingPreamble =>
    have hw : s.writeIndex = s.cursor := writeIndex_clear (h.seeking hs).1
    have hc : s.cursor + 1 ≤ s.cap := h.cursor_lt
    refine .inl ⟨rfl, ?_⟩
    by_cases hb : s.completesPreamble b
    · obtain rfl := row (exec_decodeStep_matched h hs hb)
      exact ⟨rfl, .inl ⟨hb, rfl, rfl⟩⟩
    · by_cases hfull : s.cursor + 1 = s.cap
      · obtain rfl := row (exec_decodeStep_full h hs hb hfull)
        exact ⟨rfl, .inr (.inl ⟨hb, hfull, hs, rfl⟩)⟩
      · obtain rfl := row (exec_decodeStep_seeks h hs hb hfull)
        exact ⟨rfl, .inr (.inr ⟨hb, lt_of_le_of_ne hc hfull, hs, congrArg (· + 1) hw⟩)⟩
  | readingHeader =>
    have hne : s.state ≠ .seekingPreamble := by simp [hs]
    refine .inr (.inl ⟨rfl, ?_⟩)
    by_cases hb : s.takesLogical b
    · by_cases h4 : s.logicalCount = 4
      · by_cases hok : headerChecksum s.flagsField s.lengthField = b ∧ s.lengthField.toNat + 10 ≤ s.cap
        · obtain rfl := row (exec_decodeStep_accepted h hs hb h4 hok)
          exact ⟨rfl, .inr (.inr (.inl ⟨hb, h4, rfl, congrArg (· + 1) h4, (headerAccepted_arrived h4).2 hok⟩))⟩
        · obtain rfl := row (exec_decodeStep_rejected h hs hb h4 hok)
          exact ⟨rfl, .inr (.inr (.inr ⟨hb, h4, rfl, rfl, mt (headerAccepted_arrived h4).1 hok⟩))⟩
      · have hlt : s.logicalCount < 4 := lt_of_le_of_ne (h.headerIndex hs) h4
        obtain rfl := row (exec_decodeStep_accumulates h hb (fun _ => hlt) (by simp [hs]))
        exact ⟨rfl, .inr (.inl ⟨hb, hlt, hs, rfl⟩)⟩
    · obtain ⟨hu, rfl⟩ := (not_takesLogical_iff hne).1 hb
      obtain rfl := row (exec_decodeStep_marker hne hu h.cursor_lt)
      exact ⟨rfl, .inl ⟨hb, hs, rfl, rfl⟩⟩
  | readingBody =>
    have hne : s.state ≠ .seekingPreamble := by simp [hs]
    refine .inr (.inr ⟨rfl, ?_⟩)
    by_cases hb : s.takesLogical b
    · by_cases hlast : s.logicalCount = 8 + s.lengthField.toNat
      · have hf : s.completesFrame b := ⟨hs, hb, hlast⟩
        by_cases hcrc : s.receivedCrc b = s.computedCrc
        · obtain rfl := row (exec_decodeStep_delivered h hf hcrc)
          exact .inr (.inr (.inl ⟨hf, hcrc, rfl, rfl, rfl⟩))
        · obtain rfl := row (exec_decodeStep_dropped h hf hcrc)
          exact .inr (.inr (.inr ⟨hf, hcrc, rfl, rfl, rfl⟩))
      · have hlt : s.logicalCount < 8 + s.lengthField.toNat := lt_of_le_of_ne (h.bodyIndex hs).2 hlast
        obtain rfl := row (exec_decodeStep_accumulates h hb (by simp [hs]) (fun _ => hlt))
        exact .inr (.inl ⟨hb, hlt, hs, rfl, rfl⟩)
    · obtain ⟨hu, rfl⟩ := (not_takesLogical_iff hne).1 hb
      obtain rfl := row (exec_decodeStep_marker hne hu h.cursor_lt)
      exact .inl ⟨hb, hs, rfl, rfl, rfl⟩

/-! ### The pair `1B x` is the one logical byte `x` (42_decode.md R123)

The second byte of the pair meets the state of the literal `x`, but for one more byte received, and no test of phase 3 looks at
the receive position. -/

theorem judgeHeader_takeRx (flags length : U16) (hcs : Byte) (s : State) :
    judgeHeader flags length hcs (takeRx s) = takeRx (judgeHeader flags length hcs s) := by
  by_cases hok : headerChecksum flags length = hcs ∧ length.toNat + 10 ≤ s.cap
  · rw [judgeHeader_of_accepted (s := takeRx s) hok, judgeHeader_of_accepted hok]
    rfl
  · rw [judgeHeader_of_rejected (s := takeRx s) hok, judgeHeader_of_rejected hok]
    rfl

theorem judgeBody_takeRx (rxCrc calcCrc : U32) (f : Frame) (s : State) :
    judgeBody rxCrc calcCrc f (takeRx s) =
      (takeRx (judgeBody rxCrc calcCrc f s).1, (judgeBody rxCrc calcCrc f s).2) := by
  by_cases hcrc : rxCrc = calcCrc
  · simp only [judgeBody_of_eq hcrc]
    rfl
  · simp only [judgeBody_of_ne hcrc]
    rfl

/-- Phase 3 in a frame treats two states alike that differ in the receive position only. -/
theorem stateLogic_takeRx {s : State} (h10 : 10 ≤ s.cap) (hc : s.cursor ≤ s.cap) (hs : s.state ≠ .seekingPreamble)
    (h4 : s.state = .readingBody → 4 ≤ s.cursor) :
    ∃ t r, stateLogic s = .ok (t, r) ∧ stateLogic (takeRx s) = .ok (takeRx t, r) := by
  cases hstate : s.state with
  | seekingPreamble => exact absurd hstate hs
  | readingHeader =>
    have hlogic : ∀ u : State, u.state = .readingHeader →
        stateLogic u = (do let v ← headerLogic u; pure (v, none)) := fun u hu => by rw [stateLogic, hu]
    rw [hlogic s hstate, hlogic (takeRx s) hstate, headerLogic_eq h10, headerLogic_eq (s := takeRx s) h10]
    by_cases h5 : s.cursor = 5
    · rw [if_pos h5, if_pos (show (takeRx s).cursor = 5 from h5), judgeHeader_takeRx]
      exact ⟨_, _, rfl, rfl⟩
    · rw [if_neg h5, if_neg (show (takeRx s).cursor ≠ 5 from h5)]
      exact ⟨_, _, rfl, rfl⟩
  | readingBody =>
    have hlogic : ∀ u : State, u.state = .readingBody → stateLogic u = bodyLogic u := fun u hu => by rw [stateLogic, hu]
    rw [hlogic s hstate, hlogic (takeRx s) hstate, bodyLogic_eq (h4 hstate) hc,
      bodyLogic_eq (s := takeRx s) (h4 hstate) hc]
    by_cases h9 : s.cursor = 9 + s.lengthField.toNat
    · rw [if_pos h9, if_pos (show (takeRx s).cursor = 9 + (takeRx s).lengthField.toNat from h9), judgeBody_takeRx]
      exact ⟨_, _, rfl, rfl⟩
    · rw [if_neg h9, if_neg (show (takeRx s).cursor ≠ 9 + (takeRx s).lengthField.toNat from h9)]
      exact ⟨_, _, rfl, rfl⟩

/-- A byte behind a marker is written where the marker stands, one more byte having been received. -/
theorem afterByte_afterMarker {s : State} (x : Byte) (hu : s.unescaping = false) :
    afterByte x (afterMarker s) = takeRx (afterByte x s) := by
  have hw : (afterMarker s).writeIndex = s.writeIndex := (writeIndex_clear hu).symm
  simp only [afterByte, hw, takeRx]
  simp only [afterMarker, writeIndex_clear hu, Memory.write_write]

/-- The literal `x` (`x` no ESCAPE) and `x` behind a marker: the same result, and the same state but for the bytes received. -/
theorem decodeStepCore_afterMarker {s : State} {x : Byte} (h : s.Inv) (hs : s.state ≠ .seekingPreamble)
    (hu : s.unescaping = false) (hx : x ≠ Config.escape) :
    ∃ t r, decodeStepCore x s = .ok (t, r) ∧ decodeStepCore x (afterMarker s) = .ok (takeRx t, r) := by
  have hm : (afterMarker s).Inv := inv_afterMarker h hs hu
  have hw : s.writeIndex < s.cap := h.writeIndex_lt
  rw [decodeStepCore_logical ⟨hs, .inr hx⟩ hw (fun hu' => by simp [hu] at hu'),
    decodeStepCore_logical (s := afterMarker s) ⟨hs, .inl rfl⟩ hm.writeIndex_lt (fun _ => Nat.succ_ne_zero _),
    afterByte_afterMarker x hu]
  exact stateLogic_takeRx (s := afterByte x s) h.capacity hw hs
    (fun hbody => by have := (h.bodyIndex hbody).1; rw [afterByte_cursor]; omega)

/-- `rx.pair` is the marker store and then the step of the second byte. -/
theorem exec_rxPair {s t : State} {x : Byte} {r : FrameResult} (hs : s.state ≠ .seekingPreamble)
    (hu : s.unescaping = false) (hc : s.cursor < s.cap)
    (hsecond : decodeStepCore x (afterMarker (startOp s)) = .ok (t, r)) :
    exec (.rxPair x) s = .next (ret (.frames r.toList) t) := by
  have hrun : feedCore ([Config.escape] ++ [x]) (startOp s) = .ok (t, r.toList) :=
    feedCore_append (feedCore_singleton (decodeStepCore_marker (s := startOp s) hs hu hc)) (feedCore_singleton hsecond)
  show feed ([Config.escape] ++ [x]) s = _
  simp only [feed, hrun]

/-- A `decode_step` that completes has run its core. -/
theorem exec_decodeStep_eq_next {s t : State} {b : Byte} (e : exec (.decodeStep b) s = .next t) :
    ∃ u r, decodeStepCore b (startOp s) = .ok (u, r) ∧ t = ret (frameResult r) u := by
  change decodeByte b s = .next t at e
  unfold decodeByte at e
  split at e
  · exact ⟨_, _, ‹_›, (Host.Outcome.next.inj e).symm⟩
  · cases e

/-- Settles O27: the second byte takes the marker's place; against the literal only the receive position differs. -/
theorem escapePairIsOneLogicalByte : Obligations.EscapePairIsOneLogicalByte := by
  intro s x h hs hu
  obtain ⟨t, hstep, took⟩ := exec_decodeStep_logical (inv_afterMarker h hs hu) (b := x) ⟨hs, .inl rfl⟩
  obtain ⟨u, r, hcore, rfl⟩ := exec_decodeStep_eq_next hstep
  have hother : ∀ k, k ≠ s.cursor → u.buf.read k = s.buf.read k := fun k hk =>
    (took.read_other rfl k hk).trans (Memory.read_write_other _ _ hk)
  refine ⟨_, r.toList, exec_rxPair hs hu h.cursor_lt hcore, rfl, took.clear, took.rxPos,
    took.read_same rfl, hother, took.outside, took.ends, fun hx => ?_⟩
  obtain ⟨v, q, hlit, hesc⟩ := decodeStepCore_afterMarker (inv_startOp h) hs hu hx
  obtain ⟨rfl, rfl⟩ := Prod.mk.inj (Except.ok.inj (hcore.symm.trans hesc))
  refine ⟨_, (exec_rxLiteral x s).trans (exec_decodeStep_of_core hlit), rfl, ?_⟩
  cases r with
  | none => exact .inl ⟨rfl, rfl⟩
  | some f => exact .inr ⟨f, rfl, rfl⟩

end Sys2Proof.Machine

namespace Sys2Proof.Machine

/-! ### Runs of `decode_step` operations (30_encoding.md R64) -/

theorem decodeAll_cons {s t : State} {b : Byte} (hstep : exec (.decodeStep b) s = .next t) (bs : List Byte) :
    decodeAll (b :: bs) s = decodeAll bs t := by
  rw [decodeAll, hstep]

theorem exec_decodeStep_outside {s t : State} {b : Byte} (h : s.Inv) (hstep : exec (.decodeStep b) s = .next t) :
    SameOutside s t := by
  obtain ⟨u, r, hcore, rfl⟩ := exec_decodeStep_eq_next hstep
  obtain ⟨v, q, hkept, -, hout, -⟩ := decodeStepCore_keeps b (inv_startOp h)
  obtain ⟨rfl, -⟩ := Prod.mk.inj (Except.ok.inj (hcore.symm.trans hkept))
  exact hout

/-- One `decode_step` operation per byte leads from one state to the other, and none of them returns a frame. -/
inductive QuietRun : List Byte → State → State → Prop where
  | nil (s : State) : QuietRun [] s s
  | cons {b : Byte} {bs : List Byte} {s t u : State} (hstep : exec (.decodeStep b) s = .next t)
      (hquiet : t.result = .noFrame) (rest : QuietRun bs t u) : QuietRun (b :: bs) s u

namespace QuietRun

variable {s t u : State} {bs cs : List Byte} {b : Byte}

theorem singleton (hstep : exec (.decodeStep b) s = .next t) (hquiet : t.result = .noFrame) : QuietRun [b] s t :=
  .cons hstep hquiet (.nil t)

theorem append (run : QuietRun bs s t) (run' : QuietRun cs t u) : QuietRun (bs ++ cs) s u := by
  induction run with
  | nil => exact run'
  | cons hstep hquiet _ ih => exact .cons hstep hquiet (ih run')

theorem decodeAll_append (run : QuietRun bs s t) (cs : List Byte) : decodeAll (bs ++ cs) s = decodeAll cs t := by
  induction run with
  | nil => rfl
  | cons hstep _ _ ih => rw [List.cons_append, decodeAll_cons hstep, ih]

theorem decodeAll_eq (run : QuietRun bs s t) : decodeAll bs s = .next t := by
  have e := run.decodeAll_append []
  rwa [List.append_nil] at e

theorem decodeAll_concat (run : QuietRun bs s t) (hstep : exec (.decodeStep b) t = .next u) :
    decodeAll (bs ++ [b]) s = .next u := by
  rw [run.decodeAll_append, decodeAll_cons hstep, decodeAll]

theorem keeps (run : QuietRun bs s t) (h : s.Inv) : t.Inv ∧ t.cap = s.cap := by
  induction run with
  | nil => exact ⟨h, rfl⟩
  | cons hstep _ _ ih =>
    obtain ⟨hinv, hcap⟩ := ih (exec_decodeStep_inv h hstep)
    exact ⟨hinv, hcap.trans (exec_decodeStep_outside h hstep).1⟩

theorem take (run : QuietRun bs s t) (k : Nat) : ∃ v, QuietRun (bs.take k) s v := by
  induction run generalizing k with
  | nil s => exact ⟨s, by rw [List.take_nil]; exact .nil s⟩
  | @cons b bs s t u hstep hquiet _ ih =>
    cases k with
    | zero => exact ⟨s, .nil s⟩
    | succ k =>
      obtain ⟨v, hv⟩ := ih k
      exact ⟨v, .cons hstep hquiet hv⟩

theorem result (run : QuietRun bs s t) (hbs : bs ≠ []) : t.result = .noFrame := by
  induction run with
  | nil => exact absurd rfl hbs
  | cons hstep hquiet rest ih =>
    cases rest with
    | nil => exact hquiet
    | cons => exact ih (List.cons_ne_nil _ _)

end QuietRun

/-! ### The first preamble of a stream (42_decode.md R129) -/

/-- Two streams end in the same four bytes, or in the same fewer ones: the search cannot tell them apart. -/
def EndsAlike (xs ys : List Byte) : Prop := ∀ ws : List Byte, ws.length ≤ 4 → (ws <:+ xs ↔ ws <:+ ys)

/-- As far as five bytes they still end alike when a byte follows. -/
theorem EndsAlike.suffix_concat {xs ys : List Byte} (h : EndsAlike xs ys) (b : Byte) {ws : List Byte} (hws : ws.length ≤ 5) :
    ws <:+ xs ++ [b] ↔ ws <:+ ys ++ [b] := by
  rcases List.eq_nil_or_concat ws with rfl | ⟨vs, v, rfl⟩
  · simp
  · rw [List.concat_eq_append, concat_suffix_concat, concat_suffix_concat, h vs (by simpa [Nat.lt_succ_iff] using hws)]

/-- R127, R128: a stream without a preamble, what stood in the window included, leaves the decoder seeking, and the search still
sees the last four bytes of it, wherever the shifts fell. -/
theorem exists_quietRun_seeking {s : State} (h : s.Inv) (hs : s.state = .seekingPreamble) {bs : List Byte}
    (hbs : ¬ preambleBytes <:+: s.window ++ bs) :
    ∃ t, QuietRun bs s t ∧ t.state = .seekingPreamble ∧ EndsAlike t.window (s.window ++ bs) := by
  induction bs using List.reverseRecOn with
  | nil => exact ⟨s, .nil s, hs, fun ws _ => by rw [List.append_nil]⟩
  | append_singleton bs b ih =>
    rw [← List.append_assoc] at hbs
    obtain ⟨t, run, hseeking, hwindow⟩ := ih fun hpre => hbs (hpre.trans (List.infix_append [] _ [b]))
    have hunmatched : ¬ t.completesPreamble b := fun hmatch => by
      rw [completesPreamble_iff, hwindow.suffix_concat b (by decide)] at hmatch
      exact hbs hmatch.isInfix
    obtain ⟨u, hcore, hstate, -, hnew, -⟩ :=
      decodeStepCore_unmatched (inv_startOp (run.keeps h).1) hseeking hunmatched
    refine ⟨_, run.append (.singleton (exec_decodeStep_of_core hcore) rfl), hstate, fun ws hws => ?_⟩
    rw [← List.append_assoc]
    exact (hnew ws hws).trans (hwindow.suffix_concat b (by omega))

/-- R126: where the stream then ends in its first preamble, the next byte starts a header. -/
theorem exists_exec_matched {s t : State} {bs : List Byte} {b : Byte} (h : t.Inv) (hs : t.state = .seekingPreamble)
    (hwindow : EndsAlike t.window (s.window ++ bs)) (hpre : preambleBytes <:+ s.window ++ bs ++ [b]) :
    ∃ u, exec (.decodeStep b) t = .next u ∧ u.state = .readingHeader ∧ u.cursor = 0 ∧ u.unescaping = false ∧
      u.result = .noFrame := by
  have hmatch : t.completesPreamble b := by
    rwa [completesPreamble_iff, hwindow.suffix_concat b (by decide)]
  exact ⟨_, exec_decodeStep_matched h hs hmatch, rfl, rfl, rfl, rfl⟩

theorem window_empty {s : State} (hc : s.cursor = 0) : s.window = [] := by
  rw [State.window, hc]
  rfl

/-- Settles O33: by induction on the stream, the search sees its last four bytes. -/
theorem firstPreambleIsFound : Obligations.FirstPreambleIsFound := by
  intro s bs h hs hc
  rw [← preambleBytes_eq]
  have hempty := window_empty hc
  have hrun : ¬ preambleBytes <:+: bs → ∃ t, QuietRun bs s t ∧ t.state = .seekingPreamble ∧
      EndsAlike t.window (s.window ++ bs) := fun hbs =>
    exists_quietRun_seeking h hs (by rwa [hempty])
  refine ⟨fun hbs => ?_, fun b hbs hpre => ?_⟩
  · obtain ⟨t, run, hstate, -⟩ := hrun hbs
    exact ⟨t, run.decodeAll_eq, hstate⟩
  · obtain ⟨t, run, hstate, hwindow⟩ := hrun hbs
    obtain ⟨u, hstep, hheader, hcursor, -⟩ :=
      exists_exec_matched (run.keeps h).1 hstate hwindow (b := b) (by rwa [hempty])
    exact ⟨u, run.decodeAll_concat hstep, hheader, hcursor⟩

/-! ### Resynchronisation within the capacity (42_decode.md R152) -/

/-- The part of a pair that has arrived: the wire bytes the parse of R123 still has to see before the next one. -/
def State.pendingPrefix (s : State) : List Byte := if s.unescaping then [0x1B#8] else []

theorem pendingPrefix_clear {s : State} (hu : s.unescaping = false) : s.pendingPrefix = [] := by simp [State.pendingPrefix, hu]

theorem pendingPrefix_length_le (s : State) : s.pendingPrefix.length ≤ 1 := by
  unfold State.pendingPrefix
  split <;> simp

/-- R123: the parse at a logical byte, a literal or the second of a pair. -/
theorem unescape_takesLogical {s : State} {b : Byte} (hb : s.takesLogical b) (bs : List Byte) :
    unescape (s.pendingPrefix ++ b :: bs) = (unescape bs).map (b :: ·) := by
  cases hu : s.unescaping with
  | false =>
    have hne : b ≠ Config.escape := hb.2.resolve_left (by simp [hu])
    rw [pendingPrefix_clear hu, List.nil_append, unescape_literal hne]
  | true =>
    rw [State.pendingPrefix, hu]
    exact unescape_pair b bs

/-- R123: nothing has been parsed where nothing arrives. -/
theorem unescape_pendingPrefix {s : State} {logical : List Byte} (h : unescape s.pendingPrefix = some logical) :
    logical = [] := by
  cases hu : s.unescaping with
  | false => rw [pendingPrefix_clear hu] at h; exact (Option.some.inj h).symm
  | true => rw [State.pendingPrefix, hu] at h; exact absurd h (Option.some_ne_none logical).symm

/-- What any byte does in a frame: it is left pending, or it is one logical byte more, or the decoder seeks again. -/
theorem exec_decodeStep_in_frame {s : State} (h : s.Inv) (hs : s.state ≠ .seekingPreamble) (b : Byte) :
    ∃ t, exec (.decodeStep b) s = .next t ∧ t.Inv ∧ t.cap = s.cap ∧
      ((t.logicalCount = s.logicalCount ∧ t.pendingPrefix = s.pendingPrefix ++ [b]) ∨
        (s.takesLogical b ∧ t.pendingPrefix = [] ∧
          (t.state = .seekingPreamble ∨ t.logicalCount = s.logicalCount + 1))) := by
  by_cases hb : s.takesLogical b
  · obtain ⟨t, hstep, took⟩ := exec_decodeStep_logical h hb
    refine ⟨t, hstep, exec_decodeStep_inv h hstep, took.outside.1, .inr ⟨hb, pendingPrefix_clear took.clear, ?_⟩⟩
    exact took.ends.elim (fun ⟨_, hcursor⟩ => .inr ((writeIndex_clear took.clear).trans hcursor)) fun ⟨hstate, _⟩ => .inl hstate
  · obtain ⟨hu, rfl⟩ := (not_takesLogical_iff hs).1 hb
    have hstep := exec_decodeStep_marker hs hu h.cursor_lt
    refine ⟨_, hstep, exec_decodeStep_inv h hstep, rfl, .inl ⟨(writeIndex_clear hu).symm, ?_⟩⟩
    rw [pendingPrefix_clear hu]
    rfl

/-- The most wire bytes that can have brought what the buffer holds of the frame (R55). -/
def State.wireCount (s : State) : Nat := 2 * s.logicalCount + s.pendingPrefix.length

/-- With what the buffer already holds, the stream has `CAP - 1` logical bytes or `2 * (CAP - 1)` wire bytes. -/
def ReachesBound (s : State) (bs : List Byte) : Prop :=
  (∃ logical, unescape (s.pendingPrefix ++ bs) = some logical ∧ s.cap - 1 ≤ s.logicalCount + logical.length) ∨
    2 * (s.cap - 1) ≤ s.wireCount + bs.length

/-- The bytes, which parse into `logical`, bring the decoder back to SeekingPreamble in `t`, within the bounds of R152. -/
structure Resyncs (s : State) (bs : List Byte) (t : State) (logical : List Byte) : Prop where
  run : decodeAll bs s = .next t
  seeking : t.state = .seekingPreamble
  parse : unescape (s.pendingPrefix ++ bs) = some logical
  logicalBound : s.logicalCount + logical.length ≤ s.cap - 1
  wireBound : s.wireCount + bs.length ≤ 2 * (s.cap - 1)

section

variable {s t u : State} {b : Byte} {bs logical : List Byte}

theorem not_reachesBound_nil (h : s.Inv) (hs : s.state ≠ .seekingPreamble) : ¬ ReachesBound s [] := by
  have hroom := logicalCount_lt h hs
  have hpre := pendingPrefix_length_le s
  rintro (⟨l, hparse, hlen⟩ | hlen)
  · rw [List.append_nil] at hparse
    rw [unescape_pendingPrefix hparse, List.length_nil] at hlen
    omega
  · simp only [State.wireCount, List.length_nil] at hlen
    omega

theorem resyncs_nil (h : s.Inv) (hs : s.state = .seekingPreamble) : Resyncs s [] s [] := by
  obtain ⟨hu, hc⟩ := h.seeking hs
  have hpre := pendingPrefix_clear hu
  have hw : s.logicalCount = s.cursor := writeIndex_clear hu
  exact {
    run := rfl
    seeking := hs
    parse := by rw [hpre]; rfl
    logicalBound := by rw [List.length_nil]; omega
    wireBound := by simp only [State.wireCount, hpre, List.length_nil]; omega }

/-! #### A byte that is left pending -/

theorem reachesBound_of_pending (hcap : t.cap = s.cap) (hcount : t.logicalCount = s.logicalCount)
    (hpre : t.pendingPrefix = s.pendingPrefix ++ [b]) (hb : ReachesBound s (b :: bs)) : ReachesBound t bs := by
  simpa [ReachesBound, State.wireCount, hcap, hcount, hpre, Nat.add_assoc, Nat.add_comm 1] using hb

theorem resyncs_cons_of_pending (hstep : exec (.decodeStep b) s = .next t) (hcap : t.cap = s.cap)
    (hcount : t.logicalCount = s.logicalCount) (hpre : t.pendingPrefix = s.pendingPrefix ++ [b])
    (hr : Resyncs t bs u logical) : Resyncs s (b :: bs) u logical where
  run := by rw [decodeAll_cons hstep, hr.run]
  seeking := hr.seeking
  parse := by simpa [hpre] using hr.parse
  logicalBound := by simpa [hcap, hcount] using hr.logicalBound
  wireBound := by simpa [State.wireCount, hcap, hcount, hpre, Nat.add_assoc, Nat.add_comm 1] using hr.wireBound

/-! #### A logical byte -/

theorem reachesBound_of_logical (hcap : t.cap = s.cap) (hlog : s.takesLogical b)
    (hcount : t.logicalCount = s.logicalCount + 1) (hpre : t.pendingPrefix = []) (hb : ReachesBound s (b :: bs)) :
    ReachesBound t bs := by
  have hle := pendingPrefix_length_le s
  rcases hb with ⟨l, hparse, hlen⟩ | hlen
  · rw [unescape_takesLogical hlog] at hparse
    obtain ⟨l', hl', rfl⟩ := Option.map_eq_some_iff.1 hparse
    rw [List.length_cons] at hlen
    exact .inl ⟨l', by rw [hpre]; exact hl', by omega⟩
  · refine .inr ?_
    simp only [State.wireCount, hpre, List.length_cons, List.length_nil] at hlen ⊢
    omega

theorem resyncs_cons_of_logical (hstep : exec (.decodeStep b) s = .next t) (hcap : t.cap = s.cap) (hlog : s.takesLogical b)
    (hcount : t.logicalCount = s.logicalCount + 1) (hpre : t.pendingPrefix = []) (hr : Resyncs t bs u logical) :
    Resyncs s (b :: bs) u (b :: logical) := by
  have hle := pendingPrefix_length_le s
  obtain ⟨hrun, hseeking, hparse, hlogical, hwire⟩ := hr
  rw [hpre] at hparse
  simp only [State.wireCount, hpre, List.length_nil] at hwire
  exact {
    run := by rw [decodeAll_cons hstep, hrun]
    seeking := hseeking
    parse := by rw [unescape_takesLogical hlog, show unescape bs = some logical from hparse]; rfl
    logicalBound := by rw [List.length_cons]; omega
    wireBound := by simp only [State.wireCount, List.length_cons]; omega }

/-- The byte that ends a rejected header or a frame. -/
theorem resyncs_singleton (h : s.Inv) (hstep : exec (.decodeStep b) s = .next t) (hlog : s.takesLogical b)
    (hseeking : t.state = .seekingPreamble) : Resyncs s [b] t [b] := by
  have hroom := logicalCount_lt h hlog.1
  have hle := pendingPrefix_length_le s
  exact {
    run := by rw [decodeAll_cons hstep, decodeAll]
    seeking := hseeking
    parse := unescape_takesLogical hlog []
    logicalBound := by rw [List.length_singleton]; omega
    wireBound := by simp only [State.wireCount, List.length_singleton]; omega }

end

/-- R152, R208: byte by byte, each either raises the count of what the frame holds or ends it, and a frame holds at most
`CAP - 2` logical bytes. -/
theorem exists_resyncs {s : State} {bs : List Byte} (h : s.Inv) (hbound : ReachesBound s bs) :
    ∃ k t l, Resyncs s (bs.take k) t l := by
  induction bs generalizing s with
  | nil =>
    by_cases hs : s.state = .seekingPreamble
    · exact ⟨0, s, [], resyncs_nil h hs⟩
    · exact absurd hbound (not_reachesBound_nil h hs)
  | cons b bs ih =>
    by_cases hs : s.state = .seekingPreamble
    · exact ⟨0, s, [], resyncs_nil h hs⟩
    obtain ⟨t, hstep, hinv, hcap, hbyte⟩ := exec_decodeStep_in_frame h hs b
    rcases hbyte with ⟨hcount, hpre⟩ | ⟨hlog, hpre, hseeking | hcount⟩
    · obtain ⟨k, u, l, hr⟩ := ih hinv (reachesBound_of_pending hcap hcount hpre hbound)
      exact ⟨k + 1, u, l, resyncs_cons_of_pending hstep hcap hcount hpre hr⟩
    · exact ⟨1, t, [b], resyncs_singleton h hstep hlog hseeking⟩
    · obtain ⟨k, u, l, hr⟩ := ih hinv (reachesBound_of_logical hcap hlog hcount hpre hbound)
      exact ⟨k + 1, u, b :: l, resyncs_cons_of_logical hstep hcap hlog hcount hpre hr⟩

/-- Settles O45: either bound on the stream is met with what the buffer already holds counted in. -/
theorem resyncWithinCapacity : Obligations.ResyncWithinCapacity := by
  refine ⟨fun s bs logical h hparse hlen => ?_, fun s bs h hlen => ?_⟩
  · obtain ⟨k, t, l, hr⟩ := exists_resyncs h (.inl ⟨logical, hparse, by omega⟩)
    have hl := hr.logicalBound
    exact ⟨k, t, l, hr.run, hr.seeking, hr.parse, by omega⟩
  · obtain ⟨k, t, l, hr⟩ := exists_resyncs h (bs := bs) (.inr (by omega))
    have hk := hr.wireBound
    rw [List.length_take] at hk
    exact ⟨min k bs.length, t, by omega, by rw [← List.take_eq_take_min]; exact hr.run, hr.seeking⟩

end Sys2Proof.Machine

namespace Sys2Proof.Machine

/-! ### A frame arriving byte by byte (42_decode.md R154)

`Receiving` says how far a frame has come; a marker keeps it, a logical byte of the frame moves it one further, and the last one
delivers the frame. -/

/-- The first `n` logical bytes of the frame have arrived, and there is room for the rest. -/
structure Receiving (flags length : U16) (payload : List Byte) (n : Nat) (t : State) : Prop where
  inv : t.Inv
  fits : length.toNat + 10 ≤ t.cap
  state : t.state = if n < 5 then .readingHeader else .readingBody
  count : t.logicalCount = n
  bytes : t.bytesAt 0 n = (logicalFrame flags length payload).take n

theorem bytesLE32_injective : Function.Injective bytesLE32 := fun v w h => by
  simp only [bytesLE32, List.cons.injEq, and_true] at h
  obtain ⟨h0, h1, h2, h3⟩ := h
  rw [← le32_bytes v, ← le32_bytes w, h0, h1, h2, h3]

theorem bytesAt_take (s : State) {m n : Nat} (h : m ≤ n) : (s.bytesAt 0 n).take m = s.bytesAt 0 m := by
  obtain ⟨k, rfl⟩ := Nat.exists_eq_add_of_le h
  rw [bytesAt_add, List.take_left' (bytesAt_length s 0 m)]

/-- With the flag clear the marker stands above the logical bytes. -/
theorem bytesAt_marked {s : State} (hu : s.unescaping = false) : (marked s).bytesAt 0 s.cursor = s.bytesAt 0 s.cursor := by
  have hbuf : (afterMarker s).buf = (afterByte Config.escape s).buf := by
    rw [afterByte_buf, writeIndex_clear hu]
    rfl
  have hbytes : (marked s).bytesAt 0 s.cursor = (afterByte Config.escape s).bytesAt 0 s.cursor := by
    simp only [State.bytesAt, State.byteAt, ← hbuf]
    rfl
  rw [hbytes, bytesAt_afterByte (by rw [writeIndex_clear hu, Nat.zero_add])]

theorem escBytes_take_succ {xs : List Byte} {n : Nat} {x : Byte} (hx : xs[n]? = some x) :
    escBytes (xs.take (n + 1)) = escBytes (xs.take n) ++ escByte x := by
  rw [List.take_add_one, hx, escBytes_append]
  exact congrArg _ (List.append_nil _)

/-- R51: the logical bytes of a frame number `9 + length`. -/
theorem logicalFrame_take {flags length : U16} {payload : List Byte} (hlen : payload.length = length.toNat) :
    (logicalFrame flags length payload).take (8 + length.toNat + 1) = logicalFrame flags length payload :=
  List.take_of_length_le (by rw [logicalFrame_length]; omega)

theorem exists_logicalFrame_getElem? (flags length : U16) {payload : List Byte} (hlen : payload.length = length.toNat) {n : Nat}
    (hn : n ≤ 8 + length.toNat) : ∃ x, (logicalFrame flags length payload)[n]? = some x :=
  ⟨_, List.getElem?_eq_getElem (by rw [logicalFrame_length]; omega)⟩

/-- A stored logical byte follows the logical bytes. -/
theorem bytesAt_arrived {s : State} {n : Nat} (hn : s.logicalCount = n) (b : Byte) :
    (arrived b s).bytesAt 0 (n + 1) = s.bytesAt 0 n ++ [b] := by
  have hlast : (arrived b s).byteAt (0 + n) = b := by
    rw [Nat.zero_add]
    exact Memory.byte_of_read (read_arrived_same hn)
  have hw : 0 + n ≤ s.writeIndex := by rw [Nat.zero_add]; exact hn.ge
  rw [bytesAt_succ, hlast]
  exact congrArg (· ++ [b]) (bytesAt_afterByte (s := s) hw)

section

variable {flags length : U16} {payload : List Byte} {n : Nat} {t : State} {x : Byte}

namespace Receiving

/-- The fields of the frame stand in the buffer once its first four bytes have arrived. -/
theorem fields (r : Receiving flags length payload n t) (h4 : 4 ≤ n) : t.flagsField = flags ∧ t.lengthField = length := by
  have hbytes : t.bytesAt 0 4 = bytesLE16 flags ++ bytesLE16 length := by
    rw [← bytesAt_take t h4, r.bytes, List.take_take, min_eq_left h4]
    rfl
  have hfour : t.bytesAt 0 4 = [t.byteAt 0, t.byteAt 1, t.byteAt 2, t.byteAt 3] := rfl
  rw [hfour] at hbytes
  simp only [bytesLE16, List.cons_append, List.nil_append, List.cons.injEq, and_true] at hbytes
  obtain ⟨h0, h1, h2, h3⟩ := hbytes
  exact ⟨by rw [State.flagsField, h0, h1, le16_bytes], by rw [State.lengthField, h2, h3, le16_bytes]⟩

theorem ne_seeking (r : Receiving flags length payload n t) : t.state ≠ .seekingPreamble := by
  rw [r.state]
  split <;> decide

/-- R122: a marker keeps what has arrived. -/
theorem marked (r : Receiving flags length payload n t) (hu : t.unescaping = false) :
    Receiving flags length payload n (marked t) where
  inv := exec_decodeStep_inv r.inv (exec_decodeStep_marker r.ne_seeking hu r.inv.cursor_lt)
  fits := r.fits
  state := r.state
  count := (writeIndex_clear hu).symm.trans r.count
  bytes := by
    have hcursor : t.cursor = n := (writeIndex_clear hu).symm.trans r.count
    rw [← hcursor, bytesAt_marked hu, hcursor, r.bytes]

/-- R54, R57: up to the last wire byte of a logical byte, no frame is returned and the byte is still to be taken. -/
theorem exists_before (r : Receiving flags length payload n t) (hu : t.unescaping = false) (x : Byte) :
    ∃ c v, escByte x = c ++ [x] ∧ QuietRun c t v ∧ Receiving flags length payload n v ∧ v.takesLogical x := by
  rcases escByte_cases x with ⟨hx, e⟩ | e
  · exact ⟨[], t, e, .nil t, r, r.ne_seeking, .inr hx⟩
  · have hstep := exec_decodeStep_marker r.ne_seeking hu r.inv.cursor_lt
    exact ⟨[Config.escape], _, e, .singleton hstep rfl, r.marked hu, takesLogical_marked r.ne_seeking x⟩

/-- What stands in the buffer once the next byte of the frame is stored. -/
theorem bytes_arrived (r : Receiving flags length payload n t) (hx : (logicalFrame flags length payload)[n]? = some x) :
    (arrived x t).bytesAt 0 (n + 1) = (logicalFrame flags length payload).take (n + 1) := by
  rw [bytesAt_arrived r.count, r.bytes, List.take_add_one, hx]
  rfl

/-- R124, R138: a logical byte of the frame but the last moves it one further, its header being accepted on the way. -/
theorem exists_next (r : Receiving flags length payload n t) (hx : (logicalFrame flags length payload)[n]? = some x)
    (hlast : n < 8 + length.toNat) (hb : t.takesLogical x) :
    ∃ u, exec (.decodeStep x) t = .next u ∧ u.result = .noFrame ∧ u.unescaping = false ∧
      Receiving flags length payload (n + 1) u := by
  have hbytes := r.bytes_arrived hx
  have hcount : (arrived x t).cursor = n + 1 := congrArg (· + 1) r.count
  rcases Nat.lt_trichotomy n 4 with h4 | rfl | h4
  · have hstate : t.state = .readingHeader := r.state.trans (if_pos (by omega))
    have hstep := exec_decodeStep_accumulates r.inv hb (fun _ => r.count.trans_lt h4) (by simp [hstate])
    exact ⟨_, hstep, rfl, rfl, exec_decodeStep_inv r.inv hstep, r.fits, hstate.trans (if_pos (by omega)).symm, hcount,
      hbytes⟩
  · obtain ⟨hflags, hlength⟩ := r.fields le_rfl
    have hok : headerChecksum t.flagsField t.lengthField = x ∧ t.lengthField.toNat + 10 ≤ t.cap := by
      rw [hflags, hlength]
      exact ⟨Option.some.inj hx, r.fits⟩
    have hstep := exec_decodeStep_accepted r.inv r.state hb r.count hok
    exact ⟨_, hstep, rfl, rfl, exec_decodeStep_inv r.inv hstep, r.fits, rfl, hcount, hbytes⟩
  · have hstate : t.state = .readingBody := r.state.trans (if_neg (by omega))
    have hbelow : t.logicalCount < 8 + t.lengthField.toNat := by rw [r.count, (r.fields (by omega)).2]; exact hlast
    have hstep := exec_decodeStep_accumulates r.inv hb (by simp [hstate]) (fun _ => hbelow)
    exact ⟨_, hstep, rfl, rfl, exec_decodeStep_inv r.inv hstep, r.fits, hstate.trans (if_neg (by omega)).symm, hcount,
      hbytes⟩

/-- R51: once the last byte is stored the buffer holds header, payload and CRC. -/
theorem parts_arrived (r : Receiving flags length payload (8 + length.toNat) t) (hlen : payload.length = length.toNat)
    (hx : (logicalFrame flags length payload)[8 + length.toNat]? = some x) :
    t.bytesAt 0 5 = headerBytes flags length ∧ t.bytesAt 5 length.toNat = payload ∧
      t.receivedCrc x = frameCrc (headerBytes flags length) payload := by
  have hlength : t.lengthField = length := (r.fields (by omega)).2
  have hcount : t.writeIndex = 8 + length.toNat := r.count
  have hw : t.writeIndex = 8 + t.lengthField.toNat := by rw [hcount, hlength]
  have hall : (afterByte x t).bytesAt 0 (5 + length.toNat + 4) = logicalFrame flags length payload := by
    rw [show 5 + length.toNat + 4 = 8 + length.toNat + 1 by omega, ← logicalFrame_take hlen]
    exact r.bytes_arrived hx
  have hcrc := bytesAt_afterByte_crc (b := x) hw
  rw [hlength] at hcrc
  rw [bytesAt_add, bytesAt_add, Nat.zero_add, Nat.zero_add, hcrc, bytesAt_afterByte (by omega),
    bytesAt_afterByte (by omega)] at hall
  obtain ⟨hfront, hback⟩ := List.append_inj' hall rfl
  obtain ⟨hheader, hpayload⟩ := List.append_inj hfront (bytesAt_length t 0 5)
  exact ⟨hheader, hpayload, bytesLE32_injective hback⟩

/-- R146, R148: the last logical byte delivers the frame. -/
theorem exists_delivered (r : Receiving flags length payload (8 + length.toNat) t) (hlen : payload.length = length.toNat)
    (hx : (logicalFrame flags length payload)[8 + length.toNat]? = some x) (hb : t.takesLogical x) :
    ∃ u, exec (.decodeStep x) t = .next u ∧ u.result = .frame ⟨flags, length, payload⟩ ∧ u.state = .seekingPreamble ∧
      u.cursor = 0 := by
  obtain ⟨hflags, hlength⟩ := r.fields (by omega)
  obtain ⟨hheader, hpayload, hcrc⟩ := r.parts_arrived hlen hx
  have hf : t.completesFrame x := ⟨r.state.trans (if_neg (by omega)), hb, by rw [r.count, hlength]⟩
  have hagree : t.receivedCrc x = t.computedCrc := by rw [hcrc, State.computedCrc, hheader, hlength, hpayload]
  have hframe : t.bufferedFrame = ⟨flags, length, payload⟩ := by rw [State.bufferedFrame, hflags, hlength, hpayload]
  exact ⟨_, exec_decodeStep_delivered r.inv hf hagree, congrArg Result.frame hframe, rfl, rfl⟩

/-- R154: the first `n` logical bytes arrive, in their wire form, without a frame being returned. -/
theorem exists_quietRun {s : State} (r : Receiving flags length payload 0 s) (hu : s.unescaping = false)
    (hlen : payload.length = length.toNat) (hn : n ≤ 8 + length.toNat) :
    ∃ t, QuietRun (escBytes ((logicalFrame flags length payload).take n)) s t ∧ t.unescaping = false ∧
      Receiving flags length payload n t := by
  induction n with
  | zero => exact ⟨s, .nil s, hu, r⟩
  | succ n ih =>
    obtain ⟨t, run, hclear, rt⟩ := ih (by omega)
    obtain ⟨x, hx⟩ := exists_logicalFrame_getElem? flags length hlen (show n ≤ 8 + length.toNat by omega)
    obtain ⟨c, v, hwire, run', rv, hb⟩ := rt.exists_before hclear x
    obtain ⟨u, hstep, hquiet, hu', ru⟩ := rv.exists_next hx hn hb
    refine ⟨u, ?_, hu', ru⟩
    rw [escBytes_take_succ hx, hwire]
    exact run.append (run'.append (.singleton hstep hquiet))

end Receiving

/-- R126: at an empty window the preamble starts a header, and no frame is returned. -/
theorem exists_quietRun_preamble {s : State} (h : s.Inv) (hs : s.state = .seekingPreamble) (hc : s.cursor = 0) :
    ∃ t, QuietRun preambleBytes s t ∧ t.state = .readingHeader ∧ t.cursor = 0 ∧ t.unescaping = false := by
  have hempty := window_empty hc
  obtain ⟨t, run, hseeking, hwindow⟩ := exists_quietRun_seeking h hs (bs := [0x55#8, 0xAA#8, 0x55#8]) (by
    rw [hempty]; exact fun hpre => absurd hpre.length_le (by decide))
  obtain ⟨u, hstep, hstate, hcursor, hu, hquiet⟩ :=
    exists_exec_matched (run.keeps h).1 hseeking hwindow (b := 0xAA#8) (by rw [hempty]; exact List.suffix_rfl)
  exact ⟨u, run.append (.singleton hstep hquiet), hstate, hcursor, hu⟩

/-- R51, R154: the wire form of a frame, its last byte apart, arrives quietly, and that byte delivers the frame. -/
theorem exists_wireFrame_delivered {s : State} (h : s.Inv) (hs : s.state = .seekingPreamble) (hc : s.cursor = 0)
    (hlen : payload.length = length.toNat) (hfits : length.toNat + 10 ≤ s.cap) :
    ∃ w x t u, wireFrame flags length payload = w ++ [x] ∧ QuietRun w s t ∧ exec (.decodeStep x) t = .next u ∧
      u.result = .frame ⟨flags, length, payload⟩ ∧ u.state = .seekingPreamble ∧ u.cursor = 0 := by
  obtain ⟨t₀, runPreamble, hheader, hcursor, hu⟩ := exists_quietRun_preamble h hs hc
  obtain ⟨hinv, hcap⟩ := runPreamble.keeps h
  have r₀ : Receiving flags length payload 0 t₀ :=
    ⟨hinv, by rw [hcap]; exact hfits, hheader, (writeIndex_clear hu).trans hcursor, rfl⟩
  obtain ⟨t₁, run, hclear, r₁⟩ := r₀.exists_quietRun hu hlen le_rfl
  obtain ⟨x, hx⟩ := exists_logicalFrame_getElem? flags length hlen le_rfl
  obtain ⟨c, t₂, hwire, run', r₂, hb⟩ := r₁.exists_before hclear x
  obtain ⟨u, hstep, hdelivered⟩ := r₂.exists_delivered hlen hx hb
  refine ⟨preambleBytes ++ (escBytes ((logicalFrame flags length payload).take (8 + length.toNat)) ++ c), x, t₂, u, ?_,
    runPreamble.append (run.append run'), hstep, hdelivered⟩
  have hesc : escBytes (logicalFrame flags length payload) =
      escBytes ((logicalFrame flags length payload).take (8 + length.toNat)) ++ (c ++ [x]) := by
    rw [← hwire, ← escBytes_take_succ hx, logicalFrame_take hlen]
  rw [wireFrame, hesc]
  simp only [List.append_assoc]

end

/-- Settles O49: `encode` appends the wire form, and that arrives quietly but for its last byte. -/
theorem encodeThenDecodeRoundTrip : Obligations.EncodeThenDecodeRoundTrip := by
  intro e s flags length payload hlen hcap h hs hc hfits
  obtain ⟨w, x, t, u, hwire, run, hstep, hframe, hstate, hcursor⟩ :=
    exists_wireFrame_delivered (flags := flags) h hs hc hlen hfits
  refine ⟨_, u, w ++ [x], exec_encode hlen hcap, congrArg (e.tx ++ ·) hwire, run.decodeAll_concat hstep, hframe, hstate,
    hcursor, fun k hk hlt => ?_⟩
  rw [List.length_append, List.length_singleton] at hlt
  obtain ⟨v, runTake⟩ := run.take k
  have hne : w.take k ≠ [] := List.ne_nil_of_length_pos (by rw [List.length_take]; omega)
  rw [List.take_append_of_le_length (by omega)]
  exact ⟨v, runTake.decodeAll_eq, runTake.result hne⟩

end Sys2Proof.Machine

namespace Sys2Proof.Machine

/-! ### The convenience read (43_read.md R161, R163, R164) -/

/-- R164: `read` is the decode step, and then what it does with the step's result. -/
theorem exec_read_of_core {s t : State} {b : Byte} {r : FrameResult} (n : Nat)
    (h : decodeStepCore b (startOp s) = .ok (t, r)) : exec (.read b n) s = .next (readFrame n r t) := by
  simp only [exec, execRead, h]

/-- R147, R148: the core of the step that completes a frame with an agreeing CRC. -/
theorem decodeStepCore_delivered {s : State} {b : Byte} (h : s.Inv) (hf : s.completesFrame b)
    (hcrc : s.receivedCrc b = s.computedCrc) :
    decodeStepCore b s = .ok (resync (afterByte b s), some s.bufferedFrame) := by
  obtain ⟨hs, hb, hlast⟩ := hf
  have hw : s.writeIndex = 8 + s.lengthField.toNat := hlast
  rw [decodeStepCore_of_body h hs hb, if_pos hw, judgeBody_of_eq hcrc]

/-- R161: a frame that fits is copied. -/
theorem readFrame_of_fits {f : Frame} {n : Nat} (s : State) (hfits : f.length.toNat ≤ n) :
    readFrame n (some f) s = ret .success (copyToDest f.payload s) := by
  simp [readFrame, destTooSmall, hfits]

theorem getElem?_bytesAt (s : State) (i : Nat) {n k : Nat} (hk : k < n) :
    (s.bytesAt i n)[k]? = some (s.byteAt (i + k)) := by
  simp [State.bytesAt, hk]

/-- R161: the copied bytes stand in `dest` from index 0. -/
theorem read_copyToDest_bytesAt (s t : State) (i : Nat) {n k : Nat} (hk : k < n) :
    (copyToDest (s.bytesAt i n) t).dest.read k = some (s.byteAt (i + k)) := by
  rw [copyToDest_dest, Memory.read_writeList, bytesAt_length, if_pos (by omega), Nat.sub_zero, getElem?_bytesAt s i hk]

/-- D11: the bytes of `dest` beyond the copy stay. -/
theorem read_copyToDest_beyond {payload : List Byte} (t : State) {k : Nat} (hk : payload.length ≤ k) :
    (copyToDest payload t).dest.read k = t.dest.read k := by
  rw [copyToDest_dest, Memory.read_writeList, if_neg (by omega)]

/-- Settles O50: the completing step delivers the buffered frame, whose payload `read` copies. -/
theorem readCopiesPayload : Obligations.ReadCopiesPayload := by
  intro s b n h hf hcrc hfits
  have hcore := decodeStepCore_delivered (s := startOp s) (inv_startOp h) hf hcrc
  have hread := exec_read_of_core n hcore
  rw [readFrame_of_fits _ hfits] at hread
  exact ⟨_, _, exec_decodeStep_of_core hcore, hread, rfl, rfl,
    fun k hk => read_copyToDest_bytesAt (startOp s) _ 5 hk,
    fun k hk => read_copyToDest_beyond _ ((bytesAt_length _ _ _).trans_le hk)⟩

/-- Settles O52: only the completing step with an agreeing CRC yields a frame, so this one yields none. -/
theorem readWithoutFrameFails : Obligations.ReadWithoutFrameFails := by
  intro s b n h hno
  obtain ⟨t, r, hcore, -, hout, -⟩ := decodeStepCore_keeps b (inv_startOp h)
  obtain ⟨-, -, hdest, -⟩ := hout
  cases r with
  | none => exact ⟨_, exec_decodeStep_of_core hcore, rfl, exec_read_of_core n hcore, hdest⟩
  | some f =>
    obtain ⟨hf, hcrc, -⟩ := decodeStepCore_eq_frame (inv_startOp h) hcore
    exact absurd ⟨hf, hcrc⟩ hno

end Sys2Proof.Machine

namespace Sys2Proof.Machine

/-! ### Operations that fail for size (60_exceptions.md R171, R175) -/

/-- R100, R171: an `encode` longer than the capacity raises `E_OVERSIZE`, before any byte is emitted. -/
theorem exec_encode_oversize {flags length : U16} {payload : List Byte} {s : State} (hlen : payload.length = length.toNat)
    (hcap : s.cap < length.toNat) :
    exec (.encode flags length payload) s = .next (raiseEvent (.oversize length) (startOp s)) := by
  have hover : oversize length s.cap = true := decide_eq_true hcap
  simp only [exec, execEncode, hlen, hover, ne_eq, not_true_eq_false, if_false, if_true]

/-- R162, R175: a frame that does not fit raises `E_DEST_SMALL` and is not copied. -/
theorem readFrame_of_small {f : Frame} {n : Nat} (s : State) (hsmall : n < f.length.toNat) :
    readFrame n (some f) s = raiseEvent (.destSmall f.length n) s :=
  if_pos (decide_eq_true hsmall)

/-- Settles O18: `E_OVERSIZE` changes no engine state, so only the result and the label are new. -/
theorem oversizeEncodeWritesNothing : Obligations.OversizeEncodeWritesNothing := by
  intro flags length payload s hlen hcap
  rw [exec_encode_oversize hlen hcap]
  rfl

/-- Settles O51: the completing step has resynchronised the decoder before `read` finds that its frame does not fit. -/
theorem readLosesFrameThatDoesNotFit : Obligations.ReadLosesFrameThatDoesNotFit := by
  intro s b n h hf hcrc hsmall
  have hread := exec_read_of_core n (decodeStepCore_delivered (inv_startOp h) hf hcrc)
  rw [readFrame_of_small (f := (startOp s).bufferedFrame) _ hsmall] at hread
  exact ⟨_, hread, rfl, rfl, rfl, rfl, rfl, rfl, sameOutside_arrived b s⟩

end Sys2Proof.Machine

namespace Sys2Proof.Machine

/-! ### Streams of encoded frames (70_reset_and_hazards.md R209)

In the escape code every `AA` stands behind an ESCAPE, so the pair `55 AA`, with which a preamble begins, lies neither inside it nor
across its end. -/

/-- R54: what stands before an `AA` of the escape code ends in ESCAPE. -/
theorem escape_suffix_of_escBytes_eq {xs pre post : List Byte} (h : escBytes xs = pre ++ 0xAA#8 :: post) :
    [0x1B#8] <:+ pre := by
  induction xs generalizing pre with
  | nil => simp [escBytes] at h
  | cons x xs ih =>
    rw [escBytes, escByte_eq_ite] at h
    split at h
    · match pre with
      | [] => simp at h
      | [p] =>
        simp only [List.cons_append, List.nil_append, List.cons.injEq] at h
        exact ⟨[], by rw [h.1]; rfl⟩
      | p :: q :: pre =>
        simp only [List.cons_append, List.nil_append, List.cons.injEq] at h
        obtain ⟨-, -, h⟩ := h
        exact (ih h).trans ⟨[p, q], rfl⟩
    · rename_i hliteral
      match pre with
      | [] =>
        simp only [List.cons_append, List.nil_append, List.cons.injEq] at h
        exact absurd (.inl h.1) hliteral
      | p :: pre =>
        simp only [List.cons_append, List.nil_append, List.cons.injEq] at h
        exact (ih h.2).trans ⟨[p], rfl⟩

/-- Before a stream that does not begin with `AA` the escape code holds no part of a pair `55 AA`. -/
theorem exists_eq_escBytes_append {xs rest pre post : List Byte} (hrest : rest.head? ≠ some 0xAA#8)
    (h : escBytes xs ++ rest = pre ++ 0x55#8 :: 0xAA#8 :: post) :
    ∃ pre', pre = escBytes xs ++ pre' ∧ rest = pre' ++ 0x55#8 :: 0xAA#8 :: post := by
  rcases List.append_eq_append_iff.1 h with ⟨pre', hpre, hback⟩ | ⟨inside, hxs, hback⟩
  · exact ⟨pre', hpre, hback⟩
  · match inside with
    | [] => exact ⟨[], by simpa using hxs.symm, by simpa using hback.symm⟩
    | [_] =>
      simp only [List.cons_append, List.nil_append, List.cons.injEq] at hback
      exact absurd (by rw [← hback.2]; rfl) hrest
    | _ :: _ :: inside =>
      simp only [List.cons_append, List.cons.injEq] at hback
      obtain ⟨rfl, rfl, -⟩ := hback
      have hescape := escape_suffix_of_escBytes_eq (xs := xs) (pre := pre ++ [0x55#8]) (post := inside) (by simp [hxs])
      exact absurd ((concat_suffix_concat (xs := [])).1 hescape).2 (by decide)

/-- R209: no preamble lies inside the escape code. -/
theorem not_preamble_infix_escBytes (xs : List Byte) : ¬ preambleBytes <:+: escBytes xs := by
  rintro ⟨pre, post, h⟩
  obtain ⟨pre', -, hnil⟩ := exists_eq_escBytes_append (xs := xs) (rest := []) (pre := pre)
    (post := 0x55#8 :: 0xAA#8 :: post) (by simp) (by simp [← h, preambleBytes_eq])
  simp at hnil

/-- R56: the concatenated wire forms of frames. -/
def wireStream (fs : List (U16 × U16 × List Byte)) : List Byte := fs.flatMap fun f => wireFrame f.1 f.2.1 f.2.2

theorem wireStream_cons (f : U16 × U16 × List Byte) (fs : List (U16 × U16 × List Byte)) :
    wireStream (f :: fs) =
      0x55#8 :: 0xAA#8 :: 0x55#8 :: 0xAA#8 :: (escBytes (logicalFrame f.1 f.2.1 f.2.2) ++ wireStream fs) := by
  rw [wireStream, List.flatMap_cons, wireFrame, preambleBytes_eq, List.append_assoc]
  rfl

theorem head?_wireStream_ne (fs : List (U16 × U16 × List Byte)) : (wireStream fs).head? ≠ some 0xAA#8 := by
  cases fs with
  | nil => simp [wireStream]
  | cons f fs => simp [wireStream_cons]

theorem escBytes_logicalFrame_ne_nil (flags length : U16) (payload : List Byte) :
    escBytes (logicalFrame flags length payload) ≠ [] := fun h => by
  have hlen := congrArg List.length h
  rw [escBytes_length, logicalFrame_length, List.length_nil] at hlen
  omega

/-- R209: a preamble in the stream that is not at its start lies behind the whole first frame. -/
theorem exists_eq_wireStream_cons {f : U16 × U16 × List Byte} {fs : List (U16 × U16 × List Byte)} {pre post : List Byte}
    (hpre : pre ≠ []) (h : wireStream (f :: fs) = pre ++ preambleBytes ++ post) :
    ∃ pre', pre = wireFrame f.1 f.2.1 f.2.2 ++ pre' ∧ wireStream fs = pre' ++ preambleBytes ++ post := by
  rw [wireStream_cons, preambleBytes_eq, List.append_assoc] at h
  have hbehind := fun {pre post} => exists_eq_escBytes_append (xs := logicalFrame f.1 f.2.1 f.2.2) (pre := pre) (post := post)
    (head?_wireStream_ne fs)
  match pre with
  | [] => exact absurd rfl hpre
  | [a] => simp at h
  | [a, b] =>
    simp only [List.cons_append, List.nil_append, List.cons.injEq, true_and] at h
    obtain ⟨-, -, h⟩ := h
    obtain ⟨pre', hnil, -⟩ := hbehind (pre := []) h
    exact absurd (List.append_eq_nil_iff.1 hnil.symm).1 (escBytes_logicalFrame_ne_nil _ _ _)
  | [a, b, c] => simp at h
  | a :: b :: c :: d :: pre =>
    simp only [List.cons_append, List.cons.injEq] at h
    obtain ⟨rfl, rfl, rfl, rfl, h⟩ := h
    obtain ⟨pre', rfl, hback⟩ := hbehind h
    exact ⟨pre', by simp [wireFrame, preambleBytes_eq], by simp [hback, preambleBytes_eq]⟩

/-- Settles O21: by induction on the frames, a preamble starts the first of them or lies behind it. -/
theorem encodedStreamHasOnlyTruePreambles : Obligations.EncodedStreamHasOnlyTruePreambles := by
  intro fs pre post h
  rw [← preambleBytes_eq] at h
  induction fs generalizing pre with
  | nil => simp [preambleBytes_eq] at h
  | cons f fs ih =>
    by_cases hpre : pre = []
    · exact ⟨0, Nat.succ_pos _, hpre⟩
    · obtain ⟨pre', rfl, hrest⟩ := exists_eq_wireStream_cons hpre h
      obtain ⟨n, hn, rfl⟩ := ih pre' hrest
      exact ⟨n + 1, Nat.succ_lt_succ hn, rfl⟩

end Sys2Proof.Machine

namespace Sys2Proof.Machine

/-! ### The valid frame of nine zero bytes (70_reset_and_hazards.md R210) -/

/-- R85, R86: the empty frame with flags 0 is nine zero bytes; its checksum and its CRC are 0. -/
theorem logicalFrame_zero : logicalFrame 0#16 0#16 [] = List.replicate 9 0#8 := by
  have hheader : headerBytes 0#16 0#16 = List.replicate 5 0#8 := by decide
  have hcrc : frameCrc (headerBytes 0#16 0#16) [] = 0#32 := by rw [frameCrc, crc32_nil, hheader]; exact crc32_zero_replicate 5
  rw [logicalFrame, hcrc, hheader]
  rfl

/-- An empty header has no byte pending. -/
theorem unescaping_of_cursor_zero {s : State} (h : s.Inv) (hc : s.cursor = 0) : s.unescaping = false := by
  rw [Bool.eq_false_iff]
  intro hu
  have := (h.marked hu).2
  omega

/-- Settles O46: the zeros are the logical bytes of the empty frame, and each is its own wire form. -/
theorem nineZerosAreAFrame : Obligations.NineZerosAreAFrame := by
  intro s h hs hc
  have hu := unescaping_of_cursor_zero h hc
  have r : Receiving 0#16 0#16 [] 0 s := ⟨h, h.capacity, hs, (writeIndex_clear hu).trans hc, rfl⟩
  obtain ⟨t, run, -, rt⟩ := r.exists_quietRun hu rfl le_rfl
  obtain ⟨u, hstep, hframe, hstate, -⟩ :=
    rt.exists_delivered (x := 0#8) rfl (by rw [logicalFrame_zero]; rfl) ⟨rt.ne_seeking, .inr (by decide)⟩
  have hwire : escBytes ((logicalFrame 0#16 0#16 []).take 8) = List.replicate 8 0#8 := by
    rw [logicalFrame_zero]
    decide
  rw [show 8 + (0#16).toNat = 8 from rfl, hwire] at run
  exact ⟨u, run.decodeAll_concat hstep, hframe, hstate⟩

end Sys2Proof.Machine

namespace Sys2Proof.Machine

/-! ### A frame too long for the decoder (70_reset_and_hazards.md R207)

Its preamble and its header arrive as those of any frame; the header is rejected, and the rest, in which no preamble lies, arrives
while the decoder seeks. -/

/-- R126: at an empty window the preamble starts a header within a `feed`. -/
theorem exists_feedCore_preamble {s : State} (h : s.Inv) (hs : s.state = .seekingPreamble) (hc : s.cursor = 0) :
    ∃ t, feedCore preambleBytes s = .ok (t, []) ∧ t.state = .readingHeader ∧ t.cursor = 0 ∧ t.events = s.events := by
  obtain ⟨t, a⟩ := exists_rawArrival_preamble h hs (by simp [window_empty hc])
  obtain ⟨u, hstep, hstate, hcursor, -, hevents, -⟩ :=
    decodeStepCore_matched (feedCore_frame h a.feed).1 a.seeking (a.completesPreamble_iff.2 (List.suffix_append _ _))
  exact ⟨u, feedCore_append a.feed (feedCore_singleton hstep), hstate, hcursor, hevents.trans a.events⟩

/-- R127, R128: raw bytes without a preamble, what stood in the window included, leave the decoder seeking. -/
theorem exists_rawArrival {s : State} (h : s.Inv) (hs : s.state = .seekingPreamble) {bs : List Byte}
    (hbs : ¬ preambleBytes <:+: s.window ++ bs) : ∃ t, RawArrival s bs t := by
  induction bs using List.reverseRecOn with
  | nil => exact ⟨s, rawArrival_nil hs⟩
  | append_singleton bs b ih =>
    obtain ⟨t, a⟩ := ih fun hpre => hbs (by rw [← List.append_assoc]; exact hpre.trans (List.infix_append [] _ [b]))
    exact a.concat h fun hpre => hbs hpre.isInfix

/-- The logical bytes `xs` of a header have arrived, whatever tests its fields will meet. -/
structure HeaderHolds (xs : List Byte) (t : State) : Prop where
  inv : t.Inv
  state : t.state = .readingHeader
  count : t.logicalCount = xs.length
  bytes : t.bytesAt 0 xs.length = xs

namespace HeaderHolds

variable {xs ys : List Byte} {x : Byte} {t : State} {flags length : U16}

theorem ne_seeking (r : HeaderHolds xs t) : t.state ≠ .seekingPreamble := by simp [r.state]

/-- R54, R57: up to the last wire byte of a logical byte what has arrived is kept, and the byte is still to be taken. -/
theorem exists_before (r : HeaderHolds xs t) (hu : t.unescaping = false) (x : Byte) :
    ∃ c v, escByte x = c ++ [x] ∧ feedCore c t = .ok (v, []) ∧ HeaderHolds xs v ∧ v.takesLogical x ∧ v.events = t.events := by
  rcases escByte_cases x with ⟨hx, e⟩ | e
  · exact ⟨[], t, e, rfl, r, ⟨r.ne_seeking, .inr hx⟩, rfl⟩
  · have hcursor : t.cursor = xs.length := (writeIndex_clear hu).symm.trans r.count
    have hbytes : (afterMarker t).bytesAt 0 t.cursor = t.bytesAt 0 t.cursor := bytesAt_marked hu
    exact ⟨[Config.escape], afterMarker t, e, feedCore_singleton (decodeStepCore_marker r.ne_seeking hu r.inv.cursor_lt),
      ⟨inv_afterMarker r.inv r.ne_seeking hu, r.state, hcursor, by rw [← hcursor, hbytes, hcursor, r.bytes]⟩,
      ⟨r.ne_seeking, .inl rfl⟩, rfl⟩

/-- R124: a logical byte before the fifth is stored behind what has arrived. -/
theorem next (r : HeaderHolds xs t) (hb : t.takesLogical x) (h4 : xs.length < 4) :
    decodeStepCore x t = .ok (afterByte x t, none) ∧ HeaderHolds (xs ++ [x]) (afterByte x t) := by
  have hne : t.writeIndex ≠ 4 := fun e => by have := r.count.symm.trans e; omega
  have hstep := decodeStepCore_of_header r.inv r.state hb
  rw [if_neg hne] at hstep
  have hbytes : (afterByte x t).bytesAt 0 (xs.length + 1) = t.bytesAt 0 xs.length ++ [x] := bytesAt_arrived r.count x
  refine ⟨hstep, decodeStepCore_inv r.inv hstep, r.state, ?_, ?_⟩
  · rw [List.length_append]
    exact congrArg (· + 1) r.count
  · rw [List.length_append, List.length_singleton, hbytes, r.bytes]

/-- R124: logical bytes before the fifth arrive, in their wire form, behind those before them. -/
theorem exists_feedCore (r : HeaderHolds xs t) (hu : t.unescaping = false) (h4 : xs.length + ys.length ≤ 4) :
    ∃ u, feedCore (escBytes ys) t = .ok (u, []) ∧ u.unescaping = false ∧ u.events = t.events ∧ HeaderHolds (xs ++ ys) u := by
  induction ys generalizing xs t with
  | nil => exact ⟨t, rfl, hu, rfl, by rwa [List.append_nil]⟩
  | cons y ys ih =>
    rw [List.length_cons] at h4
    obtain ⟨c, v, hwire, hrun, rv, hb, hevents⟩ := r.exists_before hu y
    obtain ⟨hstep, rnext⟩ := rv.next hb (by omega)
    obtain ⟨u, hrest, hclear, hevents', ru⟩ := ih rnext rfl (by rw [List.length_append, List.length_singleton]; omega)
    refine ⟨u, ?_, hclear, hevents'.trans hevents, by rwa [List.append_assoc] at ru⟩
    rw [escBytes, hwire]
    exact feedCore_append (feedCore_append hrun (feedCore_singleton hstep)) hrest

/-- The first four logical bytes are the two fields. -/
theorem fields (r : HeaderHolds (bytesLE16 flags ++ bytesLE16 length) t) : t.flagsField = flags ∧ t.lengthField = length := by
  have hbytes : [t.byteAt 0, t.byteAt 1, t.byteAt 2, t.byteAt 3] = bytesLE16 flags ++ bytesLE16 length := r.bytes
  simp only [bytesLE16, List.cons_append, List.nil_append, List.cons.injEq, and_true] at hbytes
  obtain ⟨h0, h1, h2, h3⟩ := hbytes
  exact ⟨by rw [State.flagsField, h0, h1, le16_bytes], by rw [State.lengthField, h2, h3, le16_bytes]⟩

/-- R135 to R139: the fifth logical byte is judged against the fields. -/
theorem fifth (r : HeaderHolds (bytesLE16 flags ++ bytesLE16 length) t) (hb : t.takesLogical x) :
    decodeStepCore x t = .ok (judgeHeader flags length x (afterByte x t), none) := by
  have hstep := decodeStepCore_of_header r.inv r.state hb
  have hw : t.writeIndex = 4 := r.count
  obtain ⟨hflags, hlength⟩ := r.fields
  rwa [if_pos hw, hflags, hlength] at hstep

end HeaderHolds

/-- R135 to R139: a header arriving, in its wire form, at an empty one is judged, and no label is raised before. -/
theorem exists_feedCore_judged {s : State} (h : s.Inv) (hs : s.state = .readingHeader) (hc : s.cursor = 0) (flags length : U16)
    (hcs : Byte) : ∃ t, feedCore (escBytes (bytesLE16 flags ++ bytesLE16 length ++ [hcs])) s =
      .ok (judgeHeader flags length hcs t, []) ∧ t.events = s.events ∧ t.cap = s.cap := by
  have hu := unescaping_of_cursor_zero h hc
  have r₀ : HeaderHolds [] s := ⟨h, hs, (writeIndex_clear hu).trans hc, rfl⟩
  obtain ⟨t, hfields, hclear, hevents, rt⟩ := r₀.exists_feedCore (ys := bytesLE16 flags ++ bytesLE16 length) hu (by simp)
  obtain ⟨c, v, hwire, hrun, rv, hb, hevents'⟩ := rt.exists_before hclear hcs
  have hbefore := feedCore_append hfields hrun
  obtain ⟨-, ⟨hcap, -⟩, -⟩ := feedCore_frame h hbefore
  refine ⟨afterByte hcs v, ?_, hevents'.trans hevents, hcap⟩
  have hlast : escBytes [hcs] = c ++ [hcs] := by rw [escBytes, escBytes, List.append_nil, hwire]
  rw [escBytes_append, hlast, ← List.append_assoc]
  exact feedCore_append hbefore (feedCore_singleton (rv.fifth hb))

/-- R139, R173: the header of a frame too long for the decoder is discarded with the label `E_HDR_LEN`. -/
theorem exists_feedCore_tooLong {s : State} (h : s.Inv) (hs : s.state = .readingHeader) (hc : s.cursor = 0)
    {flags length : U16} (hlong : s.cap < length.toNat + 10) :
    ∃ t, feedCore (escBytes (headerBytes flags length)) s = .ok (t, []) ∧ t.state = .seekingPreamble ∧ t.cursor = 0 ∧
      t.events = s.events ++ [.hdrLen] := by
  obtain ⟨t, hrun, hevents, hcap⟩ := exists_feedCore_judged h hs hc flags length (headerChecksum flags length)
  rw [judgeHeader_of_rejected (by omega), if_pos rfl, hevents] at hrun
  exact ⟨_, hrun, rfl, rfl, rfl⟩

/-- Settles O48: preamble, rejected header, and a rest in which the search finds no preamble. -/
theorem tooLongFrameRejected : Obligations.TooLongFrameRejected := by
  intro s flags length payload h hs hc hlen hlong
  have hstart : (startOp s).Inv := inv_startOp h
  obtain ⟨t₀, hpreamble, hheader, hcursor₀, hevents₀⟩ := exists_feedCore_preamble hstart hs hc
  obtain ⟨hinv₀, ⟨hcap, -⟩, -⟩ := feedCore_frame hstart hpreamble
  obtain ⟨t₁, hrejected, hseeking, hcursor₁, hevents₁⟩ :=
    exists_feedCore_tooLong hinv₀ hheader hcursor₀ (flags := flags) (hcap ▸ hlong)
  obtain ⟨t₂, a⟩ := exists_rawArrival (feedCore_frame hinv₀ hrejected).1 hseeking
    (bs := escBytes (payload ++ bytesLE32 (frameCrc (headerBytes flags length) payload)))
    (by rw [window_empty hcursor₁]; exact not_preamble_infix_escBytes _)
  have hrun : feedCore (wireFrame flags length payload) (startOp s) = .ok (t₂, []) := by
    rw [wireFrame, logicalFrame, List.append_assoc, escBytes_append]
    exact feedCore_append hpreamble (feedCore_append hrejected a.feed)
  obtain ⟨-, hout, hrx⟩ := feedCore_frame hstart hrun
  refine ⟨ret (.frames []) t₂, ?_, rfl, a.seeking, ?_, hrx, hout⟩
  · show execFrame flags length payload s = _
    simp only [execFrame, hlen, feed, hrun, ne_eq, not_true_eq_false, if_false]
  · show t₂.events = _
    rw [a.events, hevents₁, hevents₀]
    rfl

end Sys2Proof.Machine

namespace Sys2Proof.Machine

/-! ### Naturals as bytes, least significant first (log entry 7) -/

theorem natOfBytes_natBytesUpTo {k n : Nat} (h : n ≤ k) : natOfBytes (natBytesUpTo k n) = n := by
  induction k generalizing n with
  | zero => rw [Nat.le_zero.1 h]; rfl
  | succ k ih =>
    rw [natBytesUpTo]
    split
    · next hn => rw [hn]; rfl
    · rw [natOfBytes, ih (by omega), BitVec.toNat_ofNat]
      omega

theorem natOfBytes_natBytes (n : Nat) : natOfBytes (natBytes n) = n := natOfBytes_natBytesUpTo le_rfl

theorem getLast?_natBytesUpTo_ne_zero {k n : Nat} (h : n ≤ k) : (natBytesUpTo k n).getLast? ≠ some 0#8 := by
  induction k generalizing n with
  | zero => simp [natBytesUpTo]
  | succ k ih =>
    rw [natBytesUpTo]
    split
    · simp
    · next hn =>
      have hrest : n / 256 ≤ k := by omega
      cases hbytes : natBytesUpTo k (n / 256) with
      | nil =>
        have hvalue := natOfBytes_natBytesUpTo hrest
        rw [hbytes, natOfBytes] at hvalue
        rw [List.getLast?_singleton, ne_eq, Option.some.injEq, ← BitVec.toNat_inj, BitVec.toNat_ofNat]
        show ¬ n % 256 = 0
        omega
      | cons b bs =>
        rw [List.getLast?_cons_cons, ← hbytes]
        exact ih hrest

/-- A natural number is written in its shortest form. -/
theorem getLast?_natBytes_ne_zero (n : Nat) : (natBytes n).getLast? ≠ some 0#8 := getLast?_natBytesUpTo_ne_zero le_rfl

theorem natOfBytes_ne_zero {bs : List Byte} (hne : bs ≠ []) (h : bs.getLast? ≠ some 0#8) : natOfBytes bs ≠ 0 := by
  induction bs with
  | nil => exact absurd rfl hne
  | cons b bs ih =>
    rw [natOfBytes]
    cases bs with
    | nil =>
      have hb : b.toNat ≠ 0 := fun e => h (congrArg some (BitVec.eq_of_toNat_eq e))
      omega
    | cons c cs =>
      have := ih (List.cons_ne_nil c cs) (by rwa [List.getLast?_cons_cons] at h)
      omega

theorem natBytesUpTo_natOfBytes {k : Nat} {bs : List Byte} (h : bs.getLast? ≠ some 0#8) (hk : natOfBytes bs ≤ k) :
    natBytesUpTo k (natOfBytes bs) = bs := by
  induction bs generalizing k with
  | nil => cases k <;> rfl
  | cons b bs ih =>
    have hpos := natOfBytes_ne_zero (List.cons_ne_nil b bs) h
    have htail : bs.getLast? ≠ some 0#8 := fun e => h (by rw [List.getLast?_cons, e]; rfl)
    obtain ⟨k, rfl⟩ := Nat.exists_eq_add_of_lt (Nat.lt_of_lt_of_le (Nat.pos_of_ne_zero hpos) hk)
    rw [Nat.zero_add, natBytesUpTo, if_neg hpos]
    rw [natOfBytes] at hk hpos ⊢
    have hb := b.isLt
    have hlow : BitVec.ofNat 8 (b.toNat + 256 * natOfBytes bs) = b := by
      apply BitVec.eq_of_toNat_eq
      rw [BitVec.toNat_ofNat]
      omega
    have hhigh : (b.toNat + 256 * natOfBytes bs) / 256 = natOfBytes bs := by omega
    rw [hlow, hhigh, ih htail (by omega)]

/-- The shortest form is the only one the decoder reads. -/
theorem natBytes_natOfBytes {bs : List Byte} (h : bs.getLast? ≠ some 0#8) : natBytes (natOfBytes bs) = bs :=
  natBytesUpTo_natOfBytes h le_rfl

/-! ### The decoder reads the encoder's words back (30_encoding.md sections 1 to 7) -/

theorem decodeRead_natBytes (b : Byte) (n : Nat) : decodeRead (b :: natBytes n) = .ok (.read b n) := by
  rw [decodeRead, if_neg (getLast?_natBytes_ne_zero n), natOfBytes_natBytes]

theorem singleton_ne_preambleBytes (b : Byte) : [b] ≠ preambleBytes := by
  rw [preambleBytes_eq]
  exact fun h => nomatch h

/-- R54: a byte that needs no escape is read as itself. -/
theorem decodeEsc_singleton {x : Byte} (h : needsEscape x = false) : decodeEsc [x] = .ok (.txVerbatim x) := by
  rw [decodeEsc, if_neg (singleton_ne_preambleBytes x), if_neg (Bool.eq_false_iff.1 h)]

theorem decodeEncode_operands {flags length : U16} {payload : List Byte} (h : payloadMatches length payload = true) :
    decodeEncode (bytesLE16 flags ++ bytesLE16 length ++ payload) = .ok (.encode flags length payload) := by
  simp only [bytesLE16, List.cons_append, List.nil_append, decodeEncode, le16_bytes, h, if_true]

/-- R53: the last four bytes are the CRC, those before them the payload. -/
theorem decodeBodyLogical_append {payload : List Byte} (h : payload.length < 2 ^ 16) (crc : U32) :
    decodeBodyLogical (payload ++ bytesLE32 crc) = .ok (.rxBodyComplete payload crc) := by
  have hlen : (payload ++ bytesLE32 crc).length - 4 = payload.length := by simp
  rw [decodeBodyLogical, hlen, List.drop_left, List.take_left]
  refine (if_pos h).trans ?_
  exact congrArg (fun v => Except.ok (Instr.rxBodyComplete payload v)) (le32_bytes crc)

/-- R51, R52: the fields of a logical frame pass the tests in their order. -/
theorem decodeLogicalFrame_logicalFrame {flags length : U16} {payload : List Byte} (hlen : payload.length = length.toNat) :
    decodeLogicalFrame (logicalFrame flags length payload) = .ok (.frame flags length payload) := by
  have hsplit : logicalFrame flags length payload =
      flags.extractLsb' 0 8 :: flags.extractLsb' 8 8 :: length.extractLsb' 0 8 :: length.extractLsb' 8 8 ::
        headerChecksum flags length :: (payload ++ bytesLE32 (frameCrc (headerBytes flags length) payload)) := rfl
  have hrest : (payload ++ bytesLE32 (frameCrc (headerBytes flags length) payload)).length = payload.length + 4 :=
    List.length_append
  rw [hsplit, decodeLogicalFrame, le16_bytes, le16_bytes, ← hlen, if_neg (not_not.2 hrest), if_neg (not_not.2 rfl),
    List.take_left, List.drop_left]
  exact if_neg (not_not.2 rfl)

theorem decodeFrame_wireFrame {flags length : U16} {payload : List Byte} (hlen : payload.length = length.toNat) :
    decodeFrame (wireFrame flags length payload) = .ok (.frame flags length payload) := by
  have hpreamble : (wireFrame flags length payload).take 4 = preambleBytes := List.take_left' rfl
  have hescaped : (wireFrame flags length payload).drop 4 = escBytes (logicalFrame flags length payload) := List.drop_left' rfl
  simp only [decodeFrame, hpreamble, hescaped, unescape_escBytes, ne_eq, not_true_eq_false, if_false,
    decodeLogicalFrame_logicalFrame hlen]

/-- Settles O4: format by format, the decoder's tests are those the encoder's words meet. -/
theorem decodeOfEncodeIsIdentity : Obligations.DecodeOfEncodeIsIdentity := by
  intro i hwf
  cases i with
  | crc32 seed data => exact congrArg (fun v => Except.ok (Instr.crc32 v data)) (le32_bytes seed)
  | headerChecksum flags length =>
    show Except.ok (Instr.headerChecksum _ _) = _
    rw [le16_bytes, le16_bytes]
  | encode flags length payload => exact decodeEncode_operands hwf
  | decodeStep b => rfl
  | read b n => exact decodeRead_natBytes b n
  | opUnassigned101 => rfl
  | opUnassigned110 => rfl
  | opUnassigned111 => rfl
  | rxPreamble => rfl
  | rxSeekRaw b => exact if_neg (singleton_ne_preambleBytes b)
  | rxSeekRawFull b => rfl
  | rxEscapePrefix => rfl
  | rxLiteral b => exact if_neg (bne_iff_ne.1 hwf)
  | rxEscaped b => rfl
  | rxPair x => rfl
  | rxHeaderComplete flags length hcs =>
    show Except.ok (Instr.rxHeaderComplete _ _ _) = _
    rw [le16_bytes, le16_bytes]
  | rxBodyComplete payload crc => exact decodeBodyLogical_append (of_decide_eq_true hwf) crc
  | txEscFlag => rfl
  | txEscEscape => rfl
  | txVerbatim x => exact decodeEsc_singleton (by simpa [Instr.wellFormed] using hwf)
  | txPreamble => rfl
  | frame flags length payload => exact decodeFrame_wireFrame (beq_iff_eq.1 hwf)

/-! ### The other direction: no request has two readings -/

/-- `i` is well formed and `r` is its words. -/
def Encodes (i : Instr) (r : Request) : Prop := i.wellFormed = true ∧ encode i = r

/-- A decoder reads from the bytes of a request only what encodes to it. -/
def Reencodes (decoder : List Byte → Except DecodeError Instr) (request : List Byte → Request) : Prop :=
  ∀ (bytes : List Byte) (i : Instr), decoder bytes = .ok i → Encodes i (request bytes)

theorem reencodes_crc32 : Reencodes decodeCrc32 fun ops => ⟨.op, 0x00#8 :: ops⟩ := by
  intro ops i h
  unfold decodeCrc32 at h
  split at h
  · cases h
    exact ⟨rfl, by rw [encode, bytes_le32]; rfl⟩
  · cases h

theorem reencodes_headerChecksum : Reencodes decodeHeaderChecksum fun ops => ⟨.op, 0x01#8 :: ops⟩ := by
  intro ops i h
  unfold decodeHeaderChecksum at h
  split at h
  · cases h
    exact ⟨rfl, by rw [encode, bytes_le16, bytes_le16]; rfl⟩
  · cases h
  · cases h

theorem reencodes_encode : Reencodes decodeEncode fun ops => ⟨.op, 0x02#8 :: ops⟩ := by
  intro ops i h
  unfold decodeEncode at h
  split at h
  · split at h
    · cases h
      exact ⟨‹_›, by rw [encode, bytes_le16, bytes_le16]; rfl⟩
    · cases h
  · cases h

theorem reencodes_decodeStep : Reencodes decodeDecodeStep fun ops => ⟨.op, 0x03#8 :: ops⟩ := by
  intro ops i h
  unfold decodeDecodeStep at h
  split at h
  · cases h
    exact ⟨rfl, rfl⟩
  · cases h
  · cases h

theorem reencodes_read : Reencodes decodeRead fun ops => ⟨.op, 0x04#8 :: ops⟩ := by
  intro ops i h
  unfold decodeRead at h
  split at h
  · split at h
    · cases h
    · next hcanonical =>
      cases h
      exact ⟨rfl, by rw [encode, natBytes_natOfBytes hcanonical]⟩
  · cases h

theorem reencodes_unassigned {j : Instr} {op : Byte} (hj : Encodes j ⟨.op, [op]⟩) :
    Reencodes (decodeUnassigned j) fun ops => ⟨.op, op :: ops⟩ := by
  intro ops i h
  unfold decodeUnassigned at h
  split at h
  · cases h
    exact hj
  · cases h

/-- R62: the select byte is the number of its row. -/
theorem reencodes_op : Reencodes decodeOp fun bytes => ⟨.op, bytes⟩ := by
  intro bytes i h
  unfold decodeOp at h
  split at h
  · cases h
  · next op rest =>
    have hselect : ∀ n, op.toNat = n → op = BitVec.ofNat 8 n := fun n e => by rw [← e, BitVec.ofNat_toNat, BitVec.setWidth_eq]
    split at h
    · next e => cases hselect _ e; exact reencodes_crc32 rest i h
    · next e => cases hselect _ e; exact reencodes_headerChecksum rest i h
    · next e => cases hselect _ e; exact reencodes_encode rest i h
    · next e => cases hselect _ e; exact reencodes_decodeStep rest i h
    · next e => cases hselect _ e; exact reencodes_read rest i h
    · next e => cases hselect _ e; exact reencodes_unassigned ⟨rfl, rfl⟩ rest i h
    · next e => cases hselect _ e; exact reencodes_unassigned ⟨rfl, rfl⟩ rest i h
    · next e => cases hselect _ e; exact reencodes_unassigned ⟨rfl, rfl⟩ rest i h
    · cases h

theorem reencodes_seeking : Reencodes decodeSeeking fun bytes => ⟨.wire .seeking, bytes⟩ := by
  intro bytes i h
  unfold decodeSeeking at h
  split at h
  · next e =>
    cases h
    exact ⟨rfl, by rw [e]; rfl⟩
  · split at h
    · cases h
    · cases h
      exact ⟨rfl, rfl⟩
    · cases h

theorem reencodes_seekingFull : Reencodes decodeSeekingFull fun bytes => ⟨.wire .seekingFull, bytes⟩ := by
  intro bytes i h
  unfold decodeSeekingFull at h
  split at h
  · cases h
  · cases h
    exact ⟨rfl, rfl⟩
  · cases h

theorem reencodes_framing : Reencodes decodeFraming fun bytes => ⟨.wire .framing, bytes⟩ := by
  intro bytes i h
  unfold decodeFraming at h
  split at h
  · cases h
  · split at h
    · next e =>
      cases h
      exact ⟨rfl, by rw [e]; rfl⟩
    · next hb =>
      cases h
      exact ⟨bne_iff_ne.2 hb, rfl⟩
  · split at h
    · next e =>
      cases h
      exact ⟨rfl, by rw [e]; rfl⟩
    · cases h
  · cases h

theorem reencodes_framingEscaped : Reencodes decodeFramingEscaped fun bytes => ⟨.wire .framingEscaped, bytes⟩ := by
  intro bytes i h
  unfold decodeFramingEscaped at h
  split at h
  · cases h
  · cases h
    exact ⟨rfl, rfl⟩
  · cases h

theorem reencodes_headerLogical : Reencodes decodeHeaderLogical fun bytes => ⟨.wire .headerLogical, bytes⟩ := by
  intro bytes i h
  unfold decodeHeaderLogical at h
  split at h
  · cases h
  · cases h
    exact ⟨rfl, by rw [encode, bytes_le16, bytes_le16]; rfl⟩
  · cases h

/-- R53: the payload that was cut off the CRC is counted by a 16-bit field. -/
theorem reencodes_bodyLogical : Reencodes decodeBodyLogical fun bytes => ⟨.wire .bodyLogical, bytes⟩ := by
  intro bytes i h
  unfold decodeBodyLogical at h
  split at h
  · next c0 c1 c2 c3 hcrc =>
    split at h
    · next hshort =>
      cases h
      refine ⟨decide_eq_true (lt_of_le_of_lt (List.length_take_le _ _) hshort), ?_⟩
      rw [encode, bytes_le32, ← hcrc, List.take_append_drop]
    · cases h
  · cases h

/-- R54: a pair is read only where its second byte is one that is escaped, a single byte only where it is not. -/
theorem reencodes_esc : Reencodes decodeEsc fun bytes => ⟨.esc, bytes⟩ := by
  intro bytes i h
  unfold decodeEsc at h
  split at h
  · next e =>
    cases h
    exact ⟨rfl, by rw [e]; rfl⟩
  · split at h
    · cases h
    · split at h
      · cases h
      · next hx =>
        cases h
        exact ⟨by simpa [Instr.wellFormed] using hx, rfl⟩
    · split at h
      · next ep =>
        split at h
        · next ex =>
          cases h
          exact ⟨rfl, by rw [ep, ex]; rfl⟩
        · split at h
          · next ex =>
            cases h
            exact ⟨rfl, by rw [ep, ex]; rfl⟩
          · cases h
      · cases h
    · cases h

/-- R51, R52: logical bytes that pass the tests are the logical frame of their fields. -/
theorem decodeLogicalFrame_eq_ok {bytes : List Byte} {i : Instr} (h : decodeLogicalFrame bytes = .ok i) :
    ∃ flags length payload, i = .frame flags length payload ∧ payload.length = length.toNat ∧
      logicalFrame flags length payload = bytes := by
  unfold decodeLogicalFrame at h
  split at h
  · next f0 f1 l0 l1 hcs rest =>
    split at h
    · cases h
    · next hlen =>
      split at h
      · cases h
      · next hsum =>
        split at h
        · cases h
        · next hcrc =>
          cases h
          rw [not_not] at hlen hsum hcrc
          have hheader : headerBytes (le16 f0 f1) (le16 l0 l1) = [f0, f1, l0, l1, hcs] := by
            rw [headerBytes, bytes_le16, bytes_le16, hsum]
            rfl
          refine ⟨_, _, _, rfl, by rw [List.length_take]; omega, ?_⟩
          rw [logicalFrame, hheader, ← hcrc, List.append_assoc, List.take_append_drop]
          rfl
  · cases h

/-- R50, R56. -/
theorem reencodes_frame : Reencodes decodeFrame fun bytes => ⟨.frame, bytes⟩ := by
  intro bytes i h
  unfold decodeFrame at h
  split at h
  · cases h
  · next hpreamble =>
    split at h
    · cases h
    · next logical _ =>
      split at h
      · cases h
      · next hescaped =>
        obtain ⟨flags, length, payload, rfl, hlen, hlogical⟩ := decodeLogicalFrame_eq_ok h
        rw [not_not] at hpreamble hescaped
        refine ⟨beq_iff_eq.2 hlen, ?_⟩
        rw [encode, wireFrame, hlogical, hescaped, ← hpreamble, List.take_append_drop]

/-- Settles O5: each format's decoder keeps every byte it reads in an operand, or has tested it against a fixed one. -/
theorem decodedRequestsReencode : Obligations.DecodedRequestsReencode := by
  rintro ⟨format, bytes⟩ i h
  cases format with
  | op => exact reencodes_op bytes i h
  | wire sel =>
    cases sel with
    | seeking => exact reencodes_seeking bytes i h
    | seekingFull => exact reencodes_seekingFull bytes i h
    | framing => exact reencodes_framing bytes i h
    | framingEscaped => exact reencodes_framingEscaped bytes i h
    | headerLogical => exact reencodes_headerLogical bytes i h
    | bodyLogical => exact reencodes_bodyLogical bytes i h
  | esc => exact reencodes_esc bytes i h
  | frame => exact reencodes_frame bytes i h

/-- 95_test_vectors.md section 1.1: the wire form of the reference frame. -/
theorem wireFrame_reference : wireFrame 0x1234#16 0x0003#16 [0x10#8, 0xAA#8, 0x1B#8] =
    [0x55#8, 0xAA#8, 0x55#8, 0xAA#8, 0x34#8, 0x12#8, 0x03#8, 0x00#8, 0x25#8, 0x10#8, 0x1B#8, 0xAA#8, 0x1B#8, 0x1B#8,
      0x3D#8, 0xC3#8, 0x15#8, 0x22#8] := by decide +kernel

/-- Settles O3: the decoder evaluates on each word; the last is the wire form of the reference frame, which is read back. -/
theorem tableWordsDecode : Obligations.TableWordsDecode := by
  refine ⟨rfl, rfl, rfl, rfl, rfl, by decide, by decide, by decide, by decide, by decide, by decide, rfl, ?_⟩
  rw [← wireFrame_reference]
  exact decodeOfEncodeIsIdentity (.frame 0x1234#16 0x0003#16 [0x10#8, 0xAA#8, 0x1B#8]) rfl

end Sys2Proof.Machine

namespace Sys2Proof.Machine

/-! ### One step of the machine (00_scope.md R5, 70_reset_and_hazards.md R213) -/

theorem step_of_idle {s : State} (h : s.pending = []) : step s = .next s := by
  simp only [step, fetch, h]

theorem step_of_decode_ok {s : State} {r : Request} {rest : List Request} {i : Instr} (h : s.pending = r :: rest)
    (hr : decode r = .ok i) : step s = exec i { s with pending := rest } := by
  simp only [step, fetch, h, hr]

theorem step_of_decode_error {s : State} {r : Request} {rest : List Request} {e : DecodeError} (h : s.pending = r :: rest)
    (hr : decode r = .error e) : step s = .refused (.undecodable e) := by
  simp only [step, fetch, h, hr]

/-- Every step rests, performs a decoded request, or refuses the request. -/
theorem step_cases (s : State) :
    step s = .next s ∨
    (∃ r rest i, s.pending = r :: rest ∧ decode r = .ok i ∧ step s = exec i { s with pending := rest }) ∨
    ∃ e, step s = .refused (.undecodable e) := by
  cases h : s.pending with
  | nil => exact .inl (step_of_idle h)
  | cons r rest =>
    cases hr : decode r with
    | ok i => exact .inr (.inl ⟨r, rest, i, rfl, hr, step_of_decode_ok h hr⟩)
    | error e => exact .inr (.inr ⟨e, step_of_decode_error h hr⟩)

theorem inv_withPending {s : State} (h : s.Inv) (rest : List Request) : State.Inv { s with pending := rest } :=
  inv_withOutside h h.destCanonical s.tx s.rxPos s.result s.events rest

theorem decode_requestOfTable {nbits w : Nat} {i : Instr} (h : decodeTableWord nbits w = some i) :
    decode (requestOfTable nbits w) = .ok i := by
  unfold decodeTableWord at h
  split at h
  · next hr => exact hr.trans (congrArg _ (Option.some.inj h))
  · cases h

/-! ### No step faults and every step keeps the invariant (60_exceptions.md section 2, 10_state.md R20, R21) -/

/-- Settles O6: the run of an operation beside itself answers a next state (`exec_alike`). -/
theorem everyOperationCompletes : Obligations.EveryOperationCompletes := by
  intro s i h hwf hop
  have halike : AnswerAlike (exec i s) (exec i s) := exec_alike i h h ⟨s.buf, rfl, fun _ _ => rfl⟩ hwf hop
  obtain ⟨t, -, hrun, -⟩ := halike
  exact ⟨t, hrun⟩

/-- Settles O7: a step rests in the state it was in or performs an operation, and every operation keeps the invariant. -/
theorem stepKeepsInvariant : Obligations.StepKeepsInvariant := by
  intro s t h hstep
  rcases step_cases s with hidle | ⟨r, rest, i, -, -, hexec⟩ | ⟨e, hbad⟩
  · exact Host.Outcome.next.inj (hidle.symm.trans hstep) ▸ h
  · exact exec_nextInv i (inv_withPending h rest) t (hexec.symm.trans hstep)
  · exact nomatch hbad.symm.trans hstep

/-- R62: the unassigned selects are refused, so they do not fault. -/
theorem exec_of_unassigned {i : Instr} (h : unassigned i = true) (s : State) : ∃ r, exec i s = .refused r := by
  cases i with
  | opUnassigned101 => exact ⟨_, rfl⟩
  | opUnassigned110 => exact ⟨_, rfl⟩
  | opUnassigned111 => exact ⟨_, rfl⟩
  | _ => cases h

/-- Settles O8: what a step decodes is well formed, so it completes where it is an operation and is refused where it is none. -/
theorem noStepFaults : Obligations.NoStepFaults := by
  intro s f h hfault
  rcases step_cases s with hidle | ⟨r, rest, i, -, hr, hexec⟩ | ⟨e, hbad⟩
  · exact nomatch hidle.symm.trans hfault
  · rw [hexec] at hfault
    cases hop : unassigned i with
    | true =>
      obtain ⟨q, hrefused⟩ := exec_of_unassigned hop { s with pending := rest }
      exact nomatch hrefused.symm.trans hfault
    | false =>
      obtain ⟨t, hrun⟩ := everyOperationCompletes _ i (inv_withPending h rest) (decodedRequestsReencode r i hr).1 hop
      exact nomatch hrun.symm.trans hfault
  · exact nomatch hbad.symm.trans hfault

/-! ### Requests and selects (00_scope.md section 6, 30_encoding.md section 5) -/

/-- Settles O2: by the equations of `step`, one for each answer of the decoder. -/
theorem stepPerformsOldestRequest : Obligations.StepPerformsOldestRequest := by
  refine ⟨fun s r rest i h hr => step_of_decode_ok h hr, fun s r rest e h hr => step_of_decode_error h hr,
    fun s h => step_of_idle h, fun s nbits w i h => ?_⟩
  exact step_of_decode_ok (s := s.withFetchWord nbits w) rfl (decode_requestOfTable h)

/-- Settles O10: the words of the operations begin with their selects; the three other words decode, and are refused by `exec`. -/
theorem selectCodesAsAssigned : Obligations.SelectCodesAsAssigned :=
  ⟨fun _ _ => ⟨_, rfl⟩, fun _ _ => ⟨_, rfl⟩, fun _ _ _ => ⟨_, rfl⟩, fun _ => ⟨_, rfl⟩, fun _ _ => ⟨_, rfl⟩,
    fun s rest => step_of_decode_ok (s := { s with pending := _ :: rest }) (i := .opUnassigned101) rfl rfl,
    fun s rest => step_of_decode_ok (s := { s with pending := _ :: rest }) (i := .opUnassigned110) rfl rfl,
    fun s rest => step_of_decode_ok (s := { s with pending := _ :: rest }) (i := .opUnassigned111) rfl rfl,
    fun _ => ⟨rfl, rfl, rfl⟩⟩

/-! ### Construction (10_state.md R23, 70_reset_and_hazards.md R200) -/

/-- R15, D6: the buffer holds the bytes given to construction, and the free value at every other index. -/
theorem byteAt_afterConstruction (cap : Nat) (contents : List Byte) (i : Nat) :
    (State.afterConstruction cap contents).byteAt i = contents.getD i (Config.initialByte i) := by
  have hread : (Memory.writeList [] 0 contents).read i = contents[i]? := by
    rw [Memory.read_writeList]
    split
    · rfl
    · next hout => rw [Memory.read, List.getElem?_eq_none (by omega)]
  rw [List.getD_eq_getElem?_getD, ← hread]
  rfl

/-- Settles O1: the two conditions of `construct`, and the state it answers read field by field. -/
theorem constructionLeavesResetState : Obligations.ConstructionLeavesResetState := by
  refine ⟨fun cap contents hbad => if_neg ?_, fun cap contents hcap hlen => ?_, ?_, rfl⟩
  · rintro ⟨hcap, hlen⟩
    change 10 ≤ cap at hcap
    omega
  · refine ⟨_, construct_eq_some.2 ⟨⟨hcap, hlen⟩, rfl⟩, inv_afterConstruction hcap hlen, rfl, rfl, rfl, rfl, rfl, rfl,
      fun i hi => ?_⟩
    rw [bufRead_byteAt hi, byteAt_afterConstruction]
  · exact inv_afterConstruction (by decide) (by decide)

end Sys2Proof.Machine

namespace Sys2Proof.Machine

/-! ### The rows of format ESC (30_encoding.md R54, R103) -/

/-- R103. -/
theorem exec_txPreamble (s : State) : exec .txPreamble s = .next { s with tx := s.tx ++ preambleBytes, events := [] } :=
  congrArg Host.Outcome.next (txBytes_eq _ _)

/-- R54: a byte that the row excludes goes out escaped (log entry 11). -/
theorem exec_txVerbatim (x : Byte) (s : State) :
    exec (.txVerbatim x) s = .next { s with tx := s.tx ++ escByte x, events := [] } :=
  congrArg Host.Outcome.next (txEscaped_eq x _)

/-- R54: the row that takes a logical byte appends its escape code. -/
theorem exec_escRow (x : Byte) (s : State) :
    exec (escRow x) s = .next { s with tx := s.tx ++ escByte x, events := [] } := by
  unfold escRow
  split
  · next e => exact e ▸ congrArg Host.Outcome.next (txBytes_eq _ _)
  · split
    · next e => exact e ▸ congrArg Host.Outcome.next (txBytes_eq _ _)
    · exact exec_txVerbatim x s

theorem execAll_escRows (xs : List Byte) {s : State} (hs : s.events = []) :
    execAll (xs.map escRow) s = .next { s with tx := s.tx ++ escBytes xs, events := [] } := by
  induction xs generalizing s with
  | nil => simp [execAll, escBytes, ← hs]
  | cons x xs ih =>
    rw [List.map_cons, execAll_cons_of_next (exec_escRow x s), ih rfl, escBytes, ← List.append_assoc]

/-- Settles O22: the bytes FLAG and ESCAPE go out behind ESCAPE, another byte is its own escape code. -/
theorem escRowsAppendTheirBytes : Obligations.EscRowsAppendTheirBytes := by
  refine fun s => ⟨exec_escRow 0xAA#8 s, exec_escRow 0x1B#8 s, fun x hflag hescape => ?_, exec_txPreamble s⟩
  have hrow : escRow x = .txVerbatim x := (if_neg hflag).trans (if_neg hescape)
  have hverbatim : escByte x = [x] := by rw [escByte_eq_ite, if_neg (not_or.2 ⟨hflag, hescape⟩)]
  rw [← hrow, exec_escRow, hverbatim]

/-- Settles O23: the preamble and the escape codes of the logical bytes are the wire form that `encode` appends. -/
theorem encodeIsItsEscRows : Obligations.EncodeIsItsEscRows := by
  intro flags length payload s hlen hcap
  refine ⟨{ s with tx := s.tx ++ wireFrame flags length payload, events := [] }, ?_, exec_encode hlen hcap⟩
  rw [execAll_cons_of_next (exec_txPreamble s), execAll_escRows _ rfl, wireFrame, ← List.append_assoc]

/-- Settles O19: the size of the payload is tested before anything else. -/
theorem payloadOfOtherLengthRefused : Obligations.PayloadOfOtherLengthRefused :=
  fun _ _ _ _ hlen => ⟨if_pos hlen, if_pos hlen⟩

/-- Settles O40: each row's own rule is the step's where its condition holds, and it is the step elsewhere. -/
theorem wireRowsAgreeWithDecodeStep : Obligations.WireRowsAgreeWithDecodeStep := fun s b =>
  ⟨exec_rxSeekRaw b s, exec_rxSeekRawFull b s, exec_rxEscapePrefix s, exec_rxLiteral b s, exec_rxEscaped b s⟩

/-! ### What a `decode_step` writes (42_decode.md R154) -/

/-- R127: the shift of a full window leaves the bytes from index 4 upward. -/
theorem read_shiftedBuf_above (s : State) {k : Nat} (hk : 4 ≤ k) : (shiftedBuf s).read k = s.buf.read k := by
  rw [read_shiftedBuf, if_neg (by omega), if_neg (by omega), if_neg (by omega), if_neg (by omega)]

/-- R121, R124, R127: the byte is stored at the write index, and but for the shift of a full window nothing else is. -/
theorem exists_exec_decodeStep_stores {s : State} (b : Byte) (h : s.Inv) :
    ∃ t, exec (.decodeStep b) s = .next t ∧ t.buf.read s.writeIndex = some b ∧
      ∀ i, i ≠ s.writeIndex → (s.state = .seekingPreamble → s.cursor + 1 = s.cap → 4 ≤ i) →
        t.buf.read i = s.buf.read i := by
  by_cases hs : s.state = .seekingPreamble
  · have hw := writeIndex_clear (h.seeking hs).1
    have h10 := h.capacity
    by_cases hb : s.completesPreamble b
    · exact ⟨_, exec_decodeStep_matched h hs hb, read_arrived_same rfl, fun i hi _ => read_arrived_other rfl i hi⟩
    · by_cases hc : s.cursor + 1 = s.cap
      · exact ⟨_, exec_decodeStep_full h hs hb hc,
          (read_shiftedBuf_above _ (by omega)).trans (read_arrived_same (s := s) rfl),
          fun i hi h4 => (read_shiftedBuf_above _ (h4 hs hc)).trans (read_arrived_other (s := s) rfl i hi)⟩
      · exact ⟨_, exec_decodeStep_seeks h hs hb hc, read_arrived_same rfl, fun i hi _ => read_arrived_other rfl i hi⟩
  · by_cases hb : s.takesLogical b
    · obtain ⟨t, hstep, took⟩ := exec_decodeStep_logical h hb
      exact ⟨t, hstep, took.read_same rfl, fun i hi _ => took.read_other rfl i hi⟩
    · obtain ⟨hu, rfl⟩ := (not_takesLogical_iff hs).1 hb
      rw [writeIndex_clear hu]
      exact ⟨_, exec_decodeStep_marker hs hu h.cursor_lt, Memory.read_write_same _ _ _,
        fun i hi _ => Memory.read_write_other _ _ hi⟩

/-- Settles O24: the core of the step consumes its byte and keeps the outside; where it writes is said above. -/
theorem decodeStepConsumesOneByte : Obligations.DecodeStepConsumesOneByte := by
  intro s b h
  obtain ⟨t, hstep, hsame, hother⟩ := exists_exec_decodeStep_stores b h
  obtain ⟨u, r, hcore, rfl⟩ := exec_decodeStep_eq_next hstep
  obtain ⟨v, q, hkeeps, -, hout, hrx⟩ := decodeStepCore_keeps b (inv_startOp h)
  obtain ⟨rfl, rfl⟩ := Prod.mk.inj (Except.ok.inj (hcore.symm.trans hkeeps))
  refine ⟨_, hstep, hout, hrx, hsame, hother, ?_⟩
  cases r with
  | none => exact .inl rfl
  | some f => exact .inr ⟨f, rfl⟩

end Sys2Proof.Machine

namespace Sys2Proof.Machine

/-! ### Each piece of state is written by its owners only (10_state.md sections 1 and 4)

From any state, the invariant or not, what an instruction that receives answers has the outside of the state it began in; an
instruction that transmits answers that state with bytes appended to `tx`. -/

/-- What a computation that completes answers has the property. -/
def Yields {α : Type} (P : α → Prop) (x : Except Fault α) : Prop := ∀ a, x = .ok a → P a

section
variable {α β : Type} {P : α → Prop} {Q : β → Prop} {x : Except Fault α} {f : α → Except Fault β}

theorem yields_pure {a : α} (h : P a) : Yields P (pure a) := fun _ e => Except.ok.inj e ▸ h

theorem yields_bind (hx : Yields P x) (hf : ∀ a, P a → Yields Q (f a)) : Yields Q (x >>= f) := by
  cases x with
  | error e => exact fun _ h => nomatch h
  | ok a => exact hf a (hx a rfl)

/-- A computation whose answer does not matter, a read for one. -/
theorem yields_after (hf : ∀ a, Yields Q (f a)) : Yields Q (x >>= f) :=
  yields_bind (P := fun _ => True) (fun _ _ => trivial) fun a _ => hf a

end

theorem SameOutside.trans {s t u : State} (h : SameOutside s t) (h' : SameOutside t u) : SameOutside s u := by
  obtain ⟨hcap, htx, hdest, hpending⟩ := h
  obtain ⟨hcap', htx', hdest', hpending'⟩ := h'
  exact ⟨hcap'.trans hcap, htx'.trans htx, hdest'.trans hdest, hpending'.trans hpending⟩

section
variable {s₀ s : State} (h : SameOutside s₀ s)
include h

theorem append_outside (b : Byte) : Yields (SameOutside s₀) (append b s) := fun t e => by
  obtain ⟨-, rfl⟩ := append_eq_ok.1 e
  exact h

theorem stepBack_outside : Yields (SameOutside s₀) (stepBack s) := fun t e => by
  rcases stepBack_eq_ok.1 e with ⟨-, rfl⟩ | ⟨-, -, rfl⟩
  · exact h
  · exact h

theorem storeMarker_outside : Yields (SameOutside s₀) (storeMarker s) := fun t e => by
  obtain ⟨-, rfl⟩ := storeMarker_eq_ok.1 e
  exact h

theorem bufMove_outside (dst src : Nat) : Yields (SameOutside s₀) (bufMove dst src s) := fun t e => by
  obtain ⟨-, -, rfl⟩ := bufMove_eq_ok.1 e
  exact h

theorem shiftWindow_outside : Yields (SameOutside s₀) (shiftWindow s) :=
  yields_bind (bufMove_outside h _ _) fun _ h =>
  yields_bind (bufMove_outside h _ _) fun _ h =>
  yields_bind (bufMove_outside h _ _) fun _ h =>
  yields_bind (bufMove_outside h _ _) fun _ h => yields_pure h

theorem raiseEvent_outside (e : Event) : SameOutside s₀ (raiseEvent e s) := h.trans (by simp [SameOutside])

theorem seekLogic_outside : Yields (SameOutside s₀) (seekLogic s) := by
  refine yields_after fun seen => ?_
  split
  · exact yields_pure h
  · split
    · exact shiftWindow_outside h
    · exact yields_pure h

theorem judgeHeader_outside (flags length : U16) (hcs : Byte) : SameOutside s₀ (judgeHeader flags length hcs s) := by
  unfold judgeHeader
  split
  · exact h
  · exact raiseEvent_outside h _

theorem headerLogic_outside : Yields (SameOutside s₀) (headerLogic s) := by
  unfold headerLogic
  split
  · iterate 5 refine yields_after fun _ => ?_
    exact yields_pure (judgeHeader_outside h _ _ _)
  · exact yields_pure h

theorem judgeBody_outside (rxCrc calcCrc : U32) (f : Frame) : SameOutside s₀ (judgeBody rxCrc calcCrc f s).1 := by
  unfold judgeBody
  split
  · exact h
  · exact raiseEvent_outside (s := resync s) h _

theorem bodyLogic_outside : Yields (fun p => SameOutside s₀ p.1) (bodyLogic s) := by
  refine yields_after fun _ => yields_after fun _ => ?_
  dsimp only
  split
  · iterate 8 refine yields_after fun _ => ?_
    exact yields_pure (judgeBody_outside h _ _ _)
  · exact yields_pure h

theorem stateLogic_outside : Yields (fun p => SameOutside s₀ p.1) (stateLogic s) := by
  unfold stateLogic
  split
  · exact yields_bind (seekLogic_outside h) fun _ h => yields_pure h
  · exact yields_bind (headerLogic_outside h) fun _ h => yields_pure h
  · exact bodyLogic_outside h

theorem unescapePhase_outside (b : Byte) : Yields (fun p => SameOutside s₀ p.1) (unescapePhase b s) := by
  unfold unescapePhase
  split
  · exact yields_pure h
  · refine yields_bind (stepBack_outside h) fun _ h => ?_
    split
    · exact yields_bind (storeMarker_outside h) fun _ h => yields_pure h
    · exact yields_pure h

/-- R11: a decode step leaves the outside alone, from any state. -/
theorem decodeStepCore_outside (b : Byte) : Yields (fun p => SameOutside s₀ p.1) (decodeStepCore b s) := by
  refine yields_bind (unescapePhase_outside (s := takeRx s) h b) fun ⟨t, ended⟩ h => ?_
  cases ended with
  | true => exact yields_pure h
  | false => exact yields_bind (append_outside h b) fun _ h => stateLogic_outside h

end

theorem feedCore_outside {s₀ s : State} (bs : List Byte) (h : SameOutside s₀ s) :
    Yields (fun p => SameOutside s₀ p.1) (feedCore bs s) := by
  induction bs generalizing s with
  | nil => exact yields_pure h
  | cons b bs ih =>
    exact yields_bind (decodeStepCore_outside h b) fun _ h => yields_bind (ih h) fun _ h => yields_pure h

/-- A `feed` that completes has run its core. -/
theorem feed_eq_next {s t : State} {bs : List Byte} (e : feed bs s = .next t) :
    ∃ u fs, feedCore bs (startOp s) = .ok (u, fs) ∧ t = ret (.frames fs) u := by
  unfold feed at e
  split at e
  · exact ⟨_, _, ‹_›, (Host.Outcome.next.inj e).symm⟩
  · cases e

/-- A `read` that completes has run a decode step. -/
theorem execRead_eq_next {s t : State} {b : Byte} {n : Nat} (e : execRead b n s = .next t) :
    ∃ u r, decodeStepCore b (startOp s) = .ok (u, r) ∧ t = readFrame n r u := by
  unfold execRead at e
  split at e
  · exact ⟨_, _, ‹_›, (Host.Outcome.next.inj e).symm⟩
  · cases e

theorem startOp_outside (s : State) : SameOutside s (startOp s) := ⟨rfl, rfl, rfl, rfl⟩

theorem feed_outside {s t : State} {bs : List Byte} (e : feed bs s = .next t) : SameOutside s t := by
  obtain ⟨u, fs, hrun, rfl⟩ := feed_eq_next e
  exact feedCore_outside bs (startOp_outside s) _ hrun

theorem decodeByte_outside {s t : State} {b : Byte} (e : decodeByte b s = .next t) : SameOutside s t := by
  obtain ⟨u, r, hcore, rfl⟩ := exec_decodeStep_eq_next e
  exact decodeStepCore_outside (startOp_outside s) b _ hcore

/-- R161 to R163: behind its decode step `read` writes `dest`, the result and the labels. -/
theorem readFrame_keeps (n : Nat) (r : FrameResult) (s : State) :
    (readFrame n r s).cap = s.cap ∧ (readFrame n r s).tx = s.tx ∧ (readFrame n r s).pending = s.pending := by
  cases r with
  | none => exact ⟨rfl, rfl, rfl⟩
  | some f =>
    rw [readFrame]
    split
    · exact ⟨raiseEvent_cap _ _, raiseEvent_tx _ _, raiseEvent_pending _ _⟩
    · exact ⟨rfl, rfl, rfl⟩

/-- The instruction leads from `s` to `t` and writes nothing that its class does not own. -/
def WritesOwn (i : Instr) (s t : State) : Prop :=
  t.cap = s.cap ∧ t.pending = s.pending ∧ s.tx <+: t.tx ∧
    (receives i = false → SameDecoder s t) ∧ (transmits i = false → t.tx = s.tx) ∧ (copies i = false → t.dest = s.dest)

section
variable {i : Instr} {s t : State}

theorem writesOwn_of_returns (r : Result) (es : List Event) : WritesOwn i s { s with result := r, events := es } :=
  ⟨rfl, rfl, List.prefix_rfl, fun _ => ⟨rfl, rfl, rfl, rfl, rfl, rfl⟩, fun _ => rfl, fun _ => rfl⟩

theorem writesOwn_of_emits (hi : transmits i = true) (w : List Byte) (r : Result) (es : List Event) :
    WritesOwn i s { s with tx := s.tx ++ w, result := r, events := es } :=
  ⟨rfl, rfl, List.prefix_append _ _, fun _ => ⟨rfl, rfl, rfl, rfl, rfl, rfl⟩, fun h => absurd (h.symm.trans hi) (by decide),
    fun _ => rfl⟩

theorem writesOwn_of_outside (hi : receives i = true) (h : SameOutside s t) : WritesOwn i s t := by
  obtain ⟨hcap, htx, hdest, hpending⟩ := h
  exact ⟨hcap, hpending, htx ▸ List.prefix_rfl, fun h => absurd (h.symm.trans hi) (by decide), fun _ => htx, fun _ => hdest⟩

end

theorem execEncode_writesOwn {flags length : U16} {payload : List Byte} {s t : State}
    (e : execEncode flags length payload s = .next t) : WritesOwn (.encode flags length payload) s t := by
  unfold execEncode at e
  split at e
  · cases e
  · split at e
    · cases e
      exact writesOwn_of_returns .failure _
    · cases e
      rw [emitFrame_eq]
      exact writesOwn_of_emits rfl _ .success _

theorem execRead_writesOwn {b : Byte} {n : Nat} {s t : State} (e : execRead b n s = .next t) :
    WritesOwn (.read b n) s t := by
  obtain ⟨u, r, hcore, rfl⟩ := execRead_eq_next e
  obtain ⟨hcap, htx, -, hpending⟩ := decodeStepCore_outside (startOp_outside s) b _ hcore
  obtain ⟨hcap', htx', hpending'⟩ := readFrame_keeps n r u
  have htx := htx'.trans htx
  exact ⟨hcap'.trans hcap, hpending'.trans hpending, htx ▸ List.prefix_rfl, nofun, fun _ => htx, nofun⟩

/-- Settles O9: an instruction returns a value, appends to `tx`, receives and leaves the outside alone, or is `read`. -/
theorem stateWrittenOnlyByItsWriters : Obligations.StateWrittenOnlyByItsWriters := by
  intro i s t e
  show WritesOwn i s t
  have emitted : ∀ {w : List Byte}, transmits i = true → exec i s = .next { s with tx := s.tx ++ w, events := [] } →
      WritesOwn i s t := fun hi hrun => Host.Outcome.next.inj (hrun.symm.trans e) ▸ writesOwn_of_emits hi _ s.result _
  cases i with
  | crc32 seed data => cases e; exact writesOwn_of_returns _ _
  | headerChecksum flags length => cases e; exact writesOwn_of_returns _ _
  | encode flags length payload => exact execEncode_writesOwn e
  | decodeStep b => exact writesOwn_of_outside rfl (decodeByte_outside e)
  | read b n => exact execRead_writesOwn e
  | opUnassigned101 => cases e
  | opUnassigned110 => cases e
  | opUnassigned111 => cases e
  | rxPreamble => exact writesOwn_of_outside rfl (feed_outside e)
  | rxSeekRaw b => exact writesOwn_of_outside rfl (decodeByte_outside ((exec_rxSeekRaw b s).symm.trans e))
  | rxSeekRawFull b => exact writesOwn_of_outside rfl (decodeByte_outside ((exec_rxSeekRawFull b s).symm.trans e))
  | rxEscapePrefix => exact writesOwn_of_outside rfl (decodeByte_outside ((exec_rxEscapePrefix s).symm.trans e))
  | rxLiteral b => exact writesOwn_of_outside rfl (decodeByte_outside ((exec_rxLiteral b s).symm.trans e))
  | rxEscaped b => exact writesOwn_of_outside rfl (decodeByte_outside ((exec_rxEscaped b s).symm.trans e))
  | rxPair x => exact writesOwn_of_outside rfl (feed_outside e)
  | rxHeaderComplete flags length hcs => exact writesOwn_of_outside rfl (feed_outside e)
  | rxBodyComplete payload crc => exact writesOwn_of_outside rfl (feed_outside e)
  | txEscFlag => exact emitted rfl (exec_escRow Config.flag s)
  | txEscEscape => exact emitted rfl (exec_escRow Config.escape s)
  | txVerbatim x => exact emitted rfl (exec_txVerbatim x s)
  | txPreamble => exact emitted rfl (exec_txPreamble s)
  | frame flags length payload =>
    change execFrame flags length payload s = .next t at e
    unfold execFrame at e
    split at e
    · cases e
    · exact writesOwn_of_outside rfl (feed_outside e)

end Sys2Proof.Machine

namespace Sys2Proof.Machine

/-! ### Logical bytes stored in the buffer (42_decode.md R124, R135, R145)

`Stored s xs t` follows the logical bytes `xs` of a header or of a body from the state `s` in which they begin to arrive; the last
byte of either is judged on what they left. -/

/-- `t` is `s` with the logical bytes `xs` stored from its cursor upward and, where the flag is set, a marker above them. -/
structure Stored (s : State) (xs : List Byte) (t : State) : Prop where
  cap : t.cap = s.cap
  state : t.state = s.state
  events : t.events = s.events
  count : t.logicalCount = s.cursor + xs.length
  bytes : t.bytesAt s.cursor xs.length = xs
  frame : ∀ k, k < s.cursor ∨ t.cursor ≤ k → t.buf.read k = s.buf.read k

/-- The index at which the byte is written that completes the header or the frame (R135, R145). -/
def State.judgedIndex (s : State) : Nat :=
  match s.state with
  | .seekingPreamble => 0
  | .readingHeader => 4
  | .readingBody => 8 + s.lengthField.toNat

theorem byteAt_eq_of_read_eq {s t : State} {k : Nat} (h : t.buf.read k = s.buf.read k) : t.byteAt k = s.byteAt k := by
  rw [State.byteAt, State.byteAt, Memory.byte, Memory.byte, h]

/-- R124: before the index of judgement a logical byte is stored and no test of phase 3 applies. -/
theorem decodeStepCore_below {s : State} {b : Byte} (h : s.Inv) (hb : s.takesLogical b) (hlt : s.logicalCount < s.judgedIndex) :
    decodeStepCore b s = .ok (afterByte b s, none) := by
  have hne : s.writeIndex ≠ s.judgedIndex := Nat.ne_of_lt hlt
  cases hs : s.state with
  | seekingPreamble => exact absurd hs hb.1
  | readingHeader =>
    simp only [State.judgedIndex, hs] at hne
    rw [decodeStepCore_of_header h hs hb, if_neg hne]
  | readingBody =>
    simp only [State.judgedIndex, hs] at hne
    rw [decodeStepCore_of_body h hs hb, if_neg hne]

namespace Stored

variable {s t : State} {xs : List Byte} {x : Byte}

theorem refl {s : State} (hu : s.unescaping = false) : Stored s [] s :=
  ⟨rfl, rfl, rfl, writeIndex_clear hu, rfl, fun _ _ => rfl⟩

/-- With no marker above them the cursor stands behind the bytes. -/
theorem cursor (a : Stored s xs t) (hu : t.unescaping = false) : t.cursor = s.cursor + xs.length :=
  (writeIndex_clear hu).symm.trans a.count

/-- The bytes below the first of `xs` are as before. -/
theorem byteAt_below (a : Stored s xs t) {k : Nat} (hk : k < s.cursor) : t.byteAt k = s.byteAt k :=
  byteAt_eq_of_read_eq (a.frame k (.inl hk))

theorem fields (a : Stored s xs t) (h4 : 4 ≤ s.cursor) : t.flagsField = s.flagsField ∧ t.lengthField = s.lengthField := by
  simp only [State.flagsField, State.lengthField]
  rw [a.byteAt_below (by omega), a.byteAt_below (by omega), a.byteAt_below (by omega), a.byteAt_below (by omega)]
  exact ⟨rfl, rfl⟩

theorem bytesAt_below (a : Stored s xs t) {n : Nat} (hn : n ≤ s.cursor) : t.bytesAt 0 n = s.bytesAt 0 n :=
  List.map_congr_left fun k hk => a.byteAt_below (by have := List.mem_range.1 hk; omega)

theorem judgedIndex (a : Stored s xs t) (h : s.Inv) (hu : s.unescaping = false) : t.judgedIndex = s.judgedIndex := by
  simp only [State.judgedIndex, a.state]
  cases hs : s.state with
  | seekingPreamble => rfl
  | readingHeader => rfl
  | readingBody =>
    have h5 := (h.body hs hu).1
    rw [(a.fields (by omega)).2]

/-- R122: a marker is stored above the bytes. -/
theorem marker (a : Stored s xs t) (hu : t.unescaping = false) : Stored s xs (afterMarker t) where
  cap := a.cap
  state := a.state
  events := a.events
  count := (writeIndex_clear hu).symm.trans a.count
  bytes := by
    have hcursor := a.cursor hu
    refine Eq.trans (List.map_congr_left fun k hk => Memory.byte_write_other _ _ ?_) a.bytes
    have := List.mem_range.1 hk
    omega
  frame k hk := by
    have hcursor := a.cursor hu
    have hk' : k < s.cursor ∨ t.cursor + 1 ≤ k := hk
    rw [← a.frame k (by omega)]
    exact Memory.read_write_other _ _ (by omega)

/-- R124: one more logical byte is stored, over the marker where there is one. -/
theorem byte (a : Stored s xs t) (x : Byte) : Stored s (xs ++ [x]) (afterByte x t) where
  cap := a.cap
  state := a.state
  events := a.events
  count := by
    rw [List.length_append, ← Nat.add_assoc, ← a.count]
    rfl
  bytes := by
    have hcount : t.writeIndex = s.cursor + xs.length := a.count
    rw [List.length_append, List.length_singleton, bytesAt_succ, ← hcount, byteAt_afterByte_same,
      bytesAt_afterByte hcount.ge, a.bytes]
  frame k hk := by
    have hcount : t.writeIndex = s.cursor + xs.length := a.count
    have hle : t.cursor ≤ t.writeIndex + 1 := by unfold State.writeIndex; split <;> omega
    have hk' : k < s.cursor ∨ t.writeIndex + 1 ≤ k := hk
    rw [← a.frame k (by omega)]
    exact Memory.read_write_other _ _ (by omega)

/-- R54, R57: up to the last wire byte of a logical byte what is stored is kept, and the byte is still to be taken. -/
theorem exists_before (a : Stored s xs t) (h : t.Inv) (hs : t.state ≠ .seekingPreamble) (hu : t.unescaping = false) (x : Byte) :
    ∃ c v, escByte x = c ++ [x] ∧ feedCore c t = .ok (v, []) ∧ v.Inv ∧ v.takesLogical x ∧ Stored s xs v := by
  rcases escByte_cases x with ⟨hx, e⟩ | e
  · exact ⟨[], t, e, rfl, h, ⟨hs, .inr hx⟩, a⟩
  · exact ⟨[Config.escape], afterMarker t, e, feedCore_singleton (decodeStepCore_marker hs hu h.cursor_lt),
      inv_afterMarker h hs hu, ⟨hs, .inl rfl⟩, a.marker hu⟩

end Stored

section

variable {s : State} (h : s.Inv) (hs : s.state ≠ .seekingPreamble) (hu : s.unescaping = false)
include h hs hu

/-- R124: logical bytes below the index of judgement arrive, in their wire form, and are stored. -/
theorem exists_feedCore_stored {xs : List Byte} (hroom : s.cursor + xs.length ≤ s.judgedIndex) :
    ∃ t, feedCore (escBytes xs) s = .ok (t, []) ∧ t.Inv ∧ t.unescaping = false ∧ Stored s xs t := by
  induction xs using List.reverseRecOn with
  | nil => exact ⟨s, rfl, h, hu, .refl hu⟩
  | append_singleton xs x ih =>
    rw [List.length_append, List.length_singleton] at hroom
    obtain ⟨t, hrun, ht, hclear, a⟩ := ih (by omega)
    obtain ⟨c, v, hwire, hrun', hv, hb, a'⟩ := a.exists_before ht (a.state ▸ hs) hclear x
    have hstep := decodeStepCore_below hv hb (by rw [a'.count, a'.judgedIndex h hu]; omega)
    refine ⟨_, ?_, decodeStepCore_inv hv hstep, rfl, a'.byte x⟩
    rw [escBytes_append, escBytes, escBytes, List.append_nil, hwire]
    exact feedCore_append hrun (feedCore_append hrun' (feedCore_singleton hstep))

/-- R135, R145: what has arrived when the last wire byte of the logical bytes `xs` and `x` is still to come. -/
theorem exists_feedCore_before {xs : List Byte} (hroom : s.cursor + xs.length ≤ s.judgedIndex) (x : Byte) :
    ∃ c v, escBytes (xs ++ [x]) = c ++ [x] ∧ feedCore c s = .ok (v, []) ∧ v.Inv ∧ v.takesLogical x ∧ Stored s xs v := by
  obtain ⟨t, hrun, ht, hclear, a⟩ := exists_feedCore_stored h hs hu hroom
  obtain ⟨c, v, hwire, hrun', hv, hb, a'⟩ := a.exists_before ht (a.state ▸ hs) hclear x
  refine ⟨escBytes xs ++ c, v, ?_, feedCore_append hrun hrun', hv, hb, a'⟩
  rw [escBytes_append, escBytes, escBytes, List.append_nil, hwire, List.append_assoc]

end

/-! #### The verdicts leave the buffer as it stands -/

@[simp] theorem judgeHeader_buf (flags length : U16) (hcs : Byte) (s : State) : (judgeHeader flags length hcs s).buf = s.buf := by
  unfold judgeHeader
  split
  · rfl
  · exact raiseEvent_buf _ _

@[simp] theorem judgeHeader_unescaping (flags length : U16) (hcs : Byte) (s : State) :
    (judgeHeader flags length hcs s).unescaping = s.unescaping := by
  unfold judgeHeader
  split
  · rfl
  · exact raiseEvent_unescaping _ _

/-! #### The row `rx.header_complete` -/

/-- R135 to R139: a header arriving at an empty one is stored at 0..4 and judged. -/
theorem exists_feedCore_header {s : State} (h : s.Inv) (hs : s.state = .readingHeader) (hc : s.cursor = 0)
    (flags length : U16) (hcs : Byte) :
    ∃ t, feedCore (escBytes (bytesLE16 flags ++ bytesLE16 length ++ [hcs])) s = .ok (judgeHeader flags length hcs t, []) ∧
      t.unescaping = false ∧ Stored s (bytesLE16 flags ++ bytesLE16 length ++ [hcs]) t := by
  have hroom : s.cursor + (bytesLE16 flags ++ bytesLE16 length).length ≤ s.judgedIndex := by
    simp [State.judgedIndex, hs, hc]
  obtain ⟨c, v, hwire, hrun, hv, hb, a⟩ :=
    exists_feedCore_before h (by simp [hs]) (unescaping_of_cursor_zero h hc) hroom hcs
  have r : HeaderHolds (bytesLE16 flags ++ bytesLE16 length) v :=
    ⟨hv, a.state.trans hs, by rw [a.count, hc, Nat.zero_add], by have := a.bytes; rwa [hc] at this⟩
  refine ⟨afterByte hcs v, ?_, rfl, a.byte hcs⟩
  rw [hwire]
  exact feedCore_append hrun (feedCore_singleton (r.fifth hb))

/-- R36: the fields of a stored header. -/
theorem Stored.header_fields {s t : State} {flags length : U16} {hcs : Byte}
    (a : Stored s (bytesLE16 flags ++ bytesLE16 length ++ [hcs]) t) (hc : s.cursor = 0) :
    t.flagsField = flags ∧ t.lengthField = length ∧ t.byteAt 4 = hcs := by
  have hbytes := a.bytes
  rw [hc] at hbytes
  have hfive : t.bytesAt 0 5 = [t.byteAt 0, t.byteAt 1, t.byteAt 2, t.byteAt 3, t.byteAt 4] := rfl
  rw [show (bytesLE16 flags ++ bytesLE16 length ++ [hcs]).length = 5 from rfl, hfive] at hbytes
  simp only [bytesLE16, List.cons_append, List.nil_append, List.cons.injEq, and_true] at hbytes
  obtain ⟨h0, h1, h2, h3, h4⟩ := hbytes
  exact ⟨by rw [State.flagsField, h0, h1, le16_bytes], by rw [State.lengthField, h2, h3, le16_bytes], h4⟩

/-- A `feed` whose core completes. -/
theorem feed_of_core {s t : State} {bs : List Byte} {fs : List Frame} (h : feedCore bs (startOp s) = .ok (t, fs)) :
    feed bs s = .next (ret (.frames fs) t) := by
  simp only [feed, h]

/-- Settles O36: the header is stored and judged, and each verdict is R138's or R139's. -/
theorem headerRowJudged : Obligations.HeaderRowJudged := by
  intro s flags length hcs h hs hc
  obtain ⟨t, hrun, hu, a⟩ := exists_feedCore_header (inv_startOp h) hs hc flags length hcs
  obtain ⟨-, hout, hrx⟩ := feedCore_frame (inv_startOp h) hrun
  obtain ⟨hflags, hlength, hsum⟩ := a.header_fields hc
  have hbuf := judgeHeader_buf flags length hcs t
  have hcursor : t.cursor = 5 := (a.cursor hu).trans (congrArg (· + 5) hc)
  refine ⟨_, feed_of_core hrun, ?_, ?_, ?_, (judgeHeader_unescaping ..).trans hu, rfl, fun k hk => ?_, hout, hrx, fun hok => ?_,
    fun hbad => ?_⟩
  · simpa only [State.flagsField, State.byteAt, ret_buf, hbuf] using hflags
  · simpa only [State.lengthField, State.byteAt, ret_buf, hbuf] using hlength
  · simpa only [State.byteAt, ret_buf, hbuf] using hsum
  · rw [ret_buf, hbuf]
    exact a.frame k (.inr (hcursor.trans_le hk))
  · rw [judgeHeader_of_accepted (by rwa [a.cap])]
    exact ⟨rfl, hcursor, a.events⟩
  · rw [judgeHeader_of_rejected (by rwa [a.cap])]
    exact ⟨rfl, rfl, congrArg (· ++ _) a.events⟩

/-! #### The row `rx.body_complete` -/

/-- R147: whatever the verdict, the decoder is resynchronised and the buffer stands as it was. -/
theorem judgeBody_resyncs {rxCrc calcCrc : U32} {f : Frame} {s t : State} {r : FrameResult}
    (h : judgeBody rxCrc calcCrc f s = (t, r)) :
    t.state = .seekingPreamble ∧ t.cursor = 0 ∧ t.unescaping = s.unescaping ∧ t.buf = s.buf := by
  by_cases hcrc : rxCrc = calcCrc
  · cases (judgeBody_of_eq hcrc f s).symm.trans h
    exact ⟨rfl, rfl, rfl, rfl⟩
  · cases (judgeBody_of_ne hcrc f s).symm.trans h
    exact ⟨rfl, rfl, rfl, rfl⟩

/-- R145: the payload and the CRC that stand behind an accepted header once the last byte is stored. -/
theorem Stored.body_parts {s v : State} {payload : List Byte} {crc : U32} {x : Byte}
    (a : Stored s (payload ++ bytesLE32 crc) (afterByte x v)) (hc : s.cursor = 5)
    (hlen : payload.length = v.lengthField.toNat) (hw : v.writeIndex = 8 + v.lengthField.toNat) :
    v.bytesAt 5 v.lengthField.toNat = payload ∧ v.receivedCrc x = crc := by
  have hbytes := a.bytes
  rw [hc, List.length_append, bytesLE32_length, bytesAt_add, hlen, bytesAt_afterByte_crc hw, bytesAt_afterByte (by omega)] at hbytes
  obtain ⟨hpayload, hcrc⟩ := List.append_inj hbytes (by rw [bytesAt_length, hlen])
  exact ⟨hpayload, bytesLE32_injective hcrc⟩

/-- R145 to R149: payload and CRC arriving behind an accepted header are stored from index 5 and judged. -/
theorem exists_feedCore_body {s : State} (h : s.Inv) (hs : s.state = .readingBody) (hc : s.cursor = 5)
    (hu : s.unescaping = false) {payload : List Byte} (hlen : payload.length = s.lengthField.toNat) (crc : U32) :
    ∃ t u r, feedCore (escBytes (payload ++ bytesLE32 crc)) s = .ok (u, r.toList) ∧
      judgeBody crc (frameCrc (s.bytesAt 0 5) payload) ⟨s.flagsField, s.lengthField, payload⟩ t = (u, r) ∧
      t.unescaping = false ∧ Stored s (payload ++ bytesLE32 crc) t := by
  obtain ⟨xs, hxs⟩ : ∃ xs, xs = payload ++ [crc.extractLsb' 0 8, crc.extractLsb' 8 8, crc.extractLsb' 16 8] := ⟨_, rfl⟩
  have hsplit : payload ++ bytesLE32 crc = xs ++ [crc.extractLsb' 24 8] := by rw [hxs, List.append_assoc]; rfl
  have hcount : xs.length = s.lengthField.toNat + 3 := by rw [hxs, List.length_append, hlen]; rfl
  have hroom : s.cursor + xs.length ≤ s.judgedIndex := by
    simp only [State.judgedIndex, hs]
    omega
  obtain ⟨c, v, hwire, hrun, hv, hb, a⟩ := exists_feedCore_before h (by simp [hs]) hu hroom (crc.extractLsb' 24 8)
  obtain ⟨hflags, hlength⟩ := a.fields (by omega)
  have hw : v.writeIndex = 8 + v.lengthField.toNat := by
    have hcountv : v.writeIndex = s.cursor + xs.length := a.count
    rw [hlength]
    omega
  have stored := hsplit ▸ a.byte (crc.extractLsb' 24 8)
  obtain ⟨hpayload, hcrc⟩ := stored.body_parts hc (by rw [hlength, hlen]) hw
  have hstep := decodeStepCore_of_body hv (a.state.trans hs) hb
  rw [if_pos hw, hcrc, State.computedCrc, State.bufferedFrame, hpayload, a.bytesAt_below hc.ge, hflags, hlength] at hstep
  refine ⟨_, _, _, ?_, rfl, rfl, stored⟩
  rw [hsplit, hwire]
  exact feedCore_append hrun (feedCore_singleton hstep)

/-- Settles O39: payload and CRC are stored and judged, and each verdict is R148's or R149's. -/
theorem bodyRowJudged : Obligations.BodyRowJudged := by
  intro s payload crc h hs hc hu hlen
  obtain ⟨t, u, r, hrun, hjudged, hclear, a⟩ := exists_feedCore_body (inv_startOp h) hs hc hu hlen crc
  obtain ⟨-, hout, hrx⟩ := feedCore_frame (inv_startOp h) hrun
  obtain ⟨hstate, hcursor, hu', hbuf⟩ := judgeBody_resyncs hjudged
  have hend : t.cursor = 9 + payload.length := by
    rw [a.cursor hclear, startOp_cursor, hc, List.length_append, bytesLE32_length]
    omega
  refine ⟨_, feed_of_core hrun, hstate, hcursor, hu'.trans hclear, fun k hk => ?_, ?_, hout, hrx, fun heq => ?_, fun hne => ?_⟩
  · rw [ret_buf, hbuf]
    exact a.frame k (by rw [hend, startOp_cursor, hc]; exact hk)
  · have hbytes := a.bytes
    rw [startOp_cursor, hc, List.length_append, bytesLE32_length] at hbytes
    simpa only [State.bytesAt, State.byteAt, ret_buf, hbuf] using hbytes
  · cases (judgeBody_of_eq (rxCrc := crc) heq _ t).symm.trans hjudged
    exact ⟨rfl, a.events⟩
  · cases (judgeBody_of_ne (rxCrc := crc) hne _ t).symm.trans hjudged
    exact ⟨rfl, congrArg (· ++ _) a.events⟩

/-! ### A whole frame arriving at an empty window (30_encoding.md R51, 42_decode.md R126, R138, R148)

Its preamble, its header and its body are the three rows, one after another. -/

/-- R126: the preamble starts a header and leaves the bytes from index 4 upward. -/
theorem exists_feedCore_preamble_frame {s : State} (h : s.Inv) (hs : s.state = .seekingPreamble) (hc : s.cursor = 0) :
    ∃ t, feedCore preambleBytes (startOp s) = .ok (t, []) ∧ t.state = .readingHeader ∧ t.cursor = 0 ∧ t.events = [] ∧
      ∀ k, 4 ≤ k → t.buf.read k = s.buf.read k := by
  have h10 := h.capacity
  obtain ⟨t, hrow, hstate, hcursor, -, hresult, hevents, -, -, hframe⟩ := preambleRowStartsHeader s h hs (by omega)
  obtain ⟨u, fs, hrun, rfl⟩ := feed_eq_next hrow
  cases hresult
  exact ⟨u, hrun, hstate, hcursor, hevents, fun k hk => hframe k (by omega) (by omega)⟩

/-- R138: a header within the bound is accepted, and stands in the buffer. -/
theorem exists_feedCore_accepted {s : State} (h : s.Inv) (hs : s.state = .readingHeader) (hc : s.cursor = 0)
    {flags length : U16} (hfits : length.toNat + 10 ≤ s.cap) :
    ∃ t, feedCore (escBytes (headerBytes flags length)) s = .ok (t, []) ∧ t.state = .readingBody ∧ t.cursor = 5 ∧
      t.unescaping = false ∧ t.events = s.events ∧ t.flagsField = flags ∧ t.lengthField = length ∧
      ∀ k, 5 ≤ k → t.buf.read k = s.buf.read k := by
  obtain ⟨t, hrun, hu, a⟩ := exists_feedCore_header h hs hc flags length (headerChecksum flags length)
  obtain ⟨hflags, hlength, -⟩ := a.header_fields hc
  have hcursor : t.cursor = 5 := (a.cursor hu).trans (congrArg (· + 5) hc)
  rw [judgeHeader_of_accepted ⟨rfl, by rwa [a.cap]⟩] at hrun
  exact ⟨_, hrun, rfl, hcursor, hu, a.events, hflags, hlength, fun k hk => a.frame k (.inr (hcursor.trans_le hk))⟩

/-- R148: the body of a frame, its CRC that of the accepted header and the payload, is delivered. -/
theorem exists_feedCore_delivered {s : State} (h : s.Inv) (hs : s.state = .readingBody) (hc : s.cursor = 5)
    (hu : s.unescaping = false) {flags length : U16} {payload : List Byte} (hflags : s.flagsField = flags)
    (hlength : s.lengthField = length) (hlen : payload.length = length.toNat) :
    ∃ t, feedCore (escBytes (payload ++ bytesLE32 (frameCrc (headerBytes flags length) payload))) s =
        .ok (t, [⟨flags, length, payload⟩]) ∧
      t.state = .seekingPreamble ∧ t.cursor = 0 ∧ t.unescaping = false ∧ t.events = s.events ∧
      t.bytesAt 0 (9 + length.toNat) = logicalFrame flags length payload ∧
      ∀ k, 9 + length.toNat ≤ k → t.buf.read k = s.buf.read k := by
  have hheader := bytesAt_of_headerAccepted (h.accepted hs)
  rw [hflags, hlength] at hheader
  obtain ⟨t, u, r, hrun, hjudged, hclear, a⟩ := exists_feedCore_body h hs hc hu (by rw [hlen, hlength])
    (frameCrc (headerBytes flags length) payload)
  rw [hheader, hflags, hlength] at hjudged
  cases (judgeBody_of_eq rfl _ t).symm.trans hjudged
  have hcursor := a.cursor hclear
  have hbody := a.bytes
  rw [List.length_append, bytesLE32_length, hc, hlen] at hcursor hbody
  refine ⟨_, hrun, rfl, rfl, hclear, a.events, ?_, fun k hk => a.frame k (.inr (by omega))⟩
  rw [bytesAt_resync, show 9 + length.toNat = 5 + (length.toNat + 4) by omega, bytesAt_add, a.bytesAt_below hc.ge, hheader,
    hbody, logicalFrame, List.append_assoc]

/-- Settles O47: the preamble starts a header, which is accepted, and the body behind it is delivered. -/
theorem wholeFrameDelivered : Obligations.WholeFrameDelivered := by
  intro s flags length payload h hs hc hlen hfits
  have hstart := inv_startOp h
  obtain ⟨t₀, hpreamble, hstate₀, hcursor₀, hevents₀, hframe₀⟩ := exists_feedCore_preamble_frame h hs hc
  obtain ⟨hinv₀, ⟨hcap₀, -⟩, -⟩ := feedCore_frame hstart hpreamble
  obtain ⟨t₁, hheader, hstate₁, hcursor₁, hu₁, hevents₁, hflags, hlength, hframe₁⟩ :=
    exists_feedCore_accepted hinv₀ hstate₀ hcursor₀ (flags := flags) (by rwa [hcap₀])
  obtain ⟨t₂, hbody, hstate₂, hcursor₂, hu₂, hevents₂, hbytes, hframe₂⟩ :=
    exists_feedCore_delivered (feedCore_frame hinv₀ hheader).1 hstate₁ hcursor₁ hu₁ hflags hlength hlen
  have hrun : feedCore (wireFrame flags length payload) (startOp s) = .ok (t₂, [⟨flags, length, payload⟩]) := by
    rw [wireFrame, logicalFrame, List.append_assoc, escBytes_append]
    exact feedCore_append hpreamble (feedCore_append hheader hbody)
  obtain ⟨-, hout, hrx⟩ := feedCore_frame hstart hrun
  have hexec : exec (.frame flags length payload) s = feed (wireFrame flags length payload) s := if_neg (not_not.2 hlen)
  have hevents : t₂.events = [] := (hevents₂.trans hevents₁).trans hevents₀
  refine ⟨_, hexec.trans (feed_of_core hrun), rfl, hstate₂, hcursor₂, hu₂, hevents, hbytes, fun k hk => ?_, hrx, hout⟩
  rw [ret_buf, hframe₂ k hk, hframe₁ k (by omega), hframe₀ k (by omega)]

end Sys2Proof.Machine
